-- ==== Sys2Proof/Word.lean ====
section
/-! DEFINITION. The word types of the HUF block (rules R9, R11, R12): everything the spec treats as a
field of bits is a bit vector of the width the spec gives it. -/

namespace Sys2Proof

/-- A bus word, a 32-bit register, a command word (R9 `XLEN` = 32). -/
abbrev Word := BitVec 32

/-- One byte of PAY (R47). -/
abbrev Byte := BitVec 8

/-- A symbol: a byte value, ordered as a number (R9 `SYM_W` = 8, R17 Symbol). -/
abbrev Sym := BitVec 8

/-- A node handle: an index into NODE, or NIL (R9 `HND_W` = 9). -/
abbrev Handle := BitVec 9

/-- A node weight and TOTAL (R9 `WGT_W` = 40). -/
abbrev Weight := BitVec 40

/-- The stored bits of one code, right-aligned (R9 `CBITS_W` = 256, R46). -/
abbrev CodeBits := BitVec 256

/-- The handle that names no node (R9 `NIL` = 0x1FF). -/
abbrev NIL : Handle := 0x1FF#9

end Sys2Proof
end

