-- ==== Sys2Proof/Syntax.lean ====
section
/-! DEFINITION. The fifteen commands of HUF-CMD version 1 (rule R93), one constructor per row of the
opcode table, with the operands of rule R92. -/

namespace Sys2Proof

/-- A command. `sym` is the symbol operand `w[7:0]`. `n` is the bit count `w[12:8] + 1` itself (as the
assembler text of R98 writes it, 1..32), not the stored field. -/
inductive Instr where
  /-- `NOP` (R180) -/
  | nop
  /-- `FCLR` (R110) -/
  | fclr
  /-- `FACC sym` (R111) -/
  | facc (sym : Sym)
  /-- `TINIT` (R124) -/
  | tinit
  /-- `TMERGE` (R125) -/
  | tmerge
  /-- `TFIN` (R126) -/
  | tfin
  /-- `TBUILD` (R128) -/
  | tbuild
  /-- `CGEN` (R141) -/
  | cgen
  /-- `PRST` (R150) -/
  | prst
  /-- `PPUT n` (R151) -/
  | pput (n : Nat)
  /-- `PSYM sym` (R152) -/
  | psym (sym : Sym)
  /-- `URST` (R165) -/
  | urst
  /-- `UGET n` (R166) -/
  | uget (n : Nat)
  /-- `USYM` (R167) -/
  | usym
  /-- `SRST` (R181) -/
  | srst
  deriving DecidableEq, Repr

end Sys2Proof
end

