-- ==== Sys2Proof/WellFormed.lean ====
section
/-! DEFINITION. Which terms of `Instr` are commands: the bit count of `PPUT` and `UGET` lies in 1..32
(rules R9 `N_MAX`, R92). A symbol is a byte by its type, so no other check is left. -/

namespace Sys2Proof

/-- A bit count the encoding can carry: 1..32 (R92). -/
def wellFormedCount (n : Nat) : Bool := decide (1 ≤ n) && decide (n ≤ 32)

/-- The well-formed commands. -/
def Instr.wellFormed : Instr → Bool
  | .nop => true
  | .fclr => true
  | .facc _ => true
  | .tinit => true
  | .tmerge => true
  | .tfin => true
  | .tbuild => true
  | .cgen => true
  | .prst => true
  | .pput n => wellFormedCount n
  | .psym _ => true
  | .urst => true
  | .uget n => wellFormedCount n
  | .usym => true
  | .srst => true

end Sys2Proof
end

