-- ==== Sys2Proof/Decode.lean ====
section
/-! DEFINITION. The decoder of a word written to CMD (rules R91 to R94, R100), total on every word and
rejecting by name, and after it the encoder, written from the same table. -/

namespace Sys2Proof

/-- Which row of the opcode table a word matches. -/
inductive Op where
  | nop | fclr | facc | tinit | tmerge | tfin | tbuild | cgen
  | prst | pput | psym | urst | uget | usym | srst
  deriving DecidableEq, Repr

/-- One row of R93: a word `w` is the command when `(w & mask) == pattern`. -/
structure OpRow where
  op : Op
  pattern : Word
  mask : Word
  deriving DecidableEq, Repr

/-- The opcode map of R93, row for row. -/
def opTable : List OpRow :=
  [ ⟨.nop,    0x00000000, 0xFFFFFFFF⟩,
    ⟨.fclr,   0x10000000, 0xFFFFFFFF⟩,
    ⟨.facc,   0x11000000, 0xFFFFFF00⟩,
    ⟨.tinit,  0x20000000, 0xFFFFFFFF⟩,
    ⟨.tmerge, 0x21000000, 0xFFFFFFFF⟩,
    ⟨.tfin,   0x22000000, 0xFFFFFFFF⟩,
    ⟨.tbuild, 0x23000000, 0xFFFFFFFF⟩,
    ⟨.cgen,   0x30000000, 0xFFFFFFFF⟩,
    ⟨.prst,   0x40000000, 0xFFFFFFFF⟩,
    ⟨.pput,   0x41000000, 0xFFFFE0FF⟩,
    ⟨.psym,   0x42000000, 0xFFFFFF00⟩,
    ⟨.urst,   0x50000000, 0xFFFFFFFF⟩,
    ⟨.uget,   0x51000000, 0xFFFFE0FF⟩,
    ⟨.usym,   0x52000000, 0xFFFFFFFF⟩,
    ⟨.srst,   0xFF000000, 0xFFFFFFFF⟩ ]

/-- Whether word `w` matches row `r` (R93). -/
def OpRow.matches (r : OpRow) (w : Word) : Bool := w &&& r.mask == r.pattern

/-- The OPC field, bits 31:24 (R91). -/
def opcField (w : Word) : BitVec 8 := w.extractLsb' 24 8

/-- The operand `sym = w[7:0]` (R92). -/
def symField (w : Word) : Sym := w.extractLsb' 0 8

/-- The field NM1 = `w[12:8]` (R91). -/
def nm1Field (w : Word) : BitVec 5 := w.extractLsb' 8 5

/-- The operand `n = w[12:8] + 1`, 1..32 (R92). -/
def countField (w : Word) : Nat := (nm1Field w).toNat + 1

/-- The command of a matched row, with the operands it uses taken from the word (R92, R100). -/
def assemble (op : Op) (w : Word) : Instr :=
  match op with
  | .nop => .nop
  | .fclr => .fclr
  | .facc => .facc (symField w)
  | .tinit => .tinit
  | .tmerge => .tmerge
  | .tfin => .tfin
  | .tbuild => .tbuild
  | .cgen => .cgen
  | .prst => .prst
  | .pput => .pput (countField w)
  | .psym => .psym (symField w)
  | .urst => .urst
  | .uget => .uget (countField w)
  | .usym => .usym
  | .srst => .srst

/-- Why a word is no command. R94 names the two cases, and both raise IllegalCommand. -/
inductive Reject where
  /-- an OPC value that no row has -/
  | unknownOpcode (opc : BitVec 8)
  /-- a listed OPC with a 1 in a bit that its row requires to be 0 -/
  | reservedBits (opc : BitVec 8)
  deriving DecidableEq, Repr

/-- Decode the word written to CMD (R100): the first row that matches, else a named rejection. It reads
no state. -/
def decode (w : Word) : Except Reject Instr :=
  match opTable.find? (fun r => r.matches w) with
  | some r => .ok (assemble r.op w)
  | none =>
    if opTable.any (fun r => opcField r.pattern == opcField w) then
      .error (.reservedBits (opcField w))
    else
      .error (.unknownOpcode (opcField w))

/-- The word with operand field SYM set (R91, bits 7:0). -/
def withSym (base : Word) (sym : Sym) : Word := base ||| sym.setWidth 32

/-- The word with operand field NM1 set to n - 1 (R91, bits 12:8). -/
def withCount (base : Word) (n : Nat) : Word := base ||| (BitVec.ofNat 5 (n - 1)).setWidth 32 <<< 8

/-- The command word of a command (R93). -/
def encode : Instr → Word
  | .nop => 0x00000000
  | .fclr => 0x10000000
  | .facc sym => withSym 0x11000000 sym
  | .tinit => 0x20000000
  | .tmerge => 0x21000000
  | .tfin => 0x22000000
  | .tbuild => 0x23000000
  | .cgen => 0x30000000
  | .prst => 0x40000000
  | .pput n => withCount 0x41000000 n
  | .psym sym => withSym 0x42000000 sym
  | .urst => 0x50000000
  | .uget n => withCount 0x51000000 n
  | .usym => 0x52000000
  | .srst => 0xFF000000

/-- The word whose `nbits` low bits are those of `w` and whose other bits are 0: how the opcode table's
row number becomes the one 32-bit word a command is (R90, log entry 8). -/
def tableWord (nbits w : Nat) : Word := BitVec.ofNat 32 (w % 2 ^ nbits)

/-- What the decoder reads from an opcode-table row's word. -/
def decodeTableWord (nbits w : Nat) : Option Instr :=
  match decode (tableWord nbits w) with
  | .ok i => some i
  | .error _ => none

end Sys2Proof
end

