-- ==== Sys2Proof/Config.lean ====
section
/-! DEFINITION. What is fixed for one block (the spec's one open parameter, rule R9) and the one value
the spec leaves free (the contents of PAY after hardware reset, rule R223). -/

namespace Sys2Proof

/-- What an implementation fixes: only `PAY_CAP`, the number of bytes of PAY (R9, R10, U2). It is
carried in State as data, so that every statement holds for every legal capacity, and no step
changes it (log entry 1). -/
structure Config where
  /-- PAY_CAP in bytes. -/
  payCap : Nat
  deriving DecidableEq, Repr

/-- The capacities the spec allows: a multiple of 4 with 4 <= PAY_CAP <= 2^28 (R9). -/
def Config.legal (c : Config) : Bool :=
  c.payCap % 4 == 0 && decide (4 ≤ c.payCap) && decide (c.payCap ≤ 2 ^ 28)

/-- The spec's default, PAY_CAP = 65536 (R9, D12). -/
def Config.standard : Config := ⟨65536⟩

/-- FREE VALUE (R223, U1): the byte that PAY[a] holds after the k-th hardware reset, before anything
has written it: `Config.resetPayByte k a`. It has no body, so nothing can be proved of its value, and
it may differ at each reset. DESIGN CHOICE of form, log entry 2. -/
opaque Config.resetPayByte : Nat → Nat → Byte

end Sys2Proof
end

