-- ==== Sys2Proof/Machine/State.lean ====
section
/-! DEFINITION. The state of the HUF block as plain data (rules R20 to R50), what the host can put on the
bus (R19, R66, R67, R220), the error taxonomy (R191), and the state after hardware reset (R50). -/

namespace Sys2Proof.Machine

/-- The stored fields of one NODE entry (R44). `.used` is a function of NNODE and has no storage. -/
structure Node where
  /-- 1 for a leaf, 0 for an internal node -/
  leaf : Bool
  /-- the leaf's symbol, 0 in an internal node -/
  sym : Sym
  /-- weight -/
  w : Weight
  /-- handle of the left child, NIL in a leaf -/
  left : Handle
  /-- handle of the right child, NIL in a leaf and in the wrapper -/
  right : Handle
  deriving DecidableEq, Repr

/-- An entry that no node occupies (R44 "empty"). -/
def Node.empty : Node := ⟨false, 0, 0, NIL, NIL⟩

/-- One CODE entry (R46). -/
structure CodeEntry where
  valid : Bool
  len : BitVec 8
  bits : CodeBits
  deriving DecidableEq, Repr

/-- An entry for a symbol without a code (R46: len = 0 and bits = 0). -/
def CodeEntry.absent : CodeEntry := ⟨false, 0, 0⟩

/-- The errors of R191, by the spec's names. `emptyInput` and `corruptHeader` are reserved for host
software and no command raises them (R204). -/
inductive CmdError where
  | emptyInput | invalidInput | invalidTree | corruptHeader | decodeError
  | illegalCommand | sequenceError | countOverflow | noCode | payloadOverflow | endOfStream
  deriving DecidableEq, Repr

/-- A bus transaction (R19): one aligned 32-bit read or write. There is no other access width (R71). -/
inductive Transaction where
  | read (addr : Word)
  | write (addr : Word) (v : Word)
  deriving DecidableEq, Repr

/-- The response of a transaction (R19): a word, OK, or BusError. -/
inductive Response where
  | word (v : Word)
  | ok
  | busError
  deriving DecidableEq, Repr

/-- One thing the outside world does to the block: a transaction, or an assertion and release of the
hardware reset input (R220, log entry 5). Nothing else reaches it (R199, log entry 7). -/
inductive HostInput where
  | txn (t : Transaction)
  | hardReset
  deriving DecidableEq, Repr

/-- Why the machine could stop with a fault: never. Every command ends in `done` or `raise`, and both
are next states (R16, R193); "No operation within the core is fatal" (R190); BusError is a response (R205).
So the type has no constructor (log entry 9): safe, since a stop that no rule gives cannot be claimed. -/
inductive Fault where
  deriving DecidableEq, Repr

/-- Why an instruction has no meaning. -/
inductive Refusal where
  /-- Raised by `exec` alone, for a constructor whose meaning is not written: safe (the machine stops
  where the hardware goes on). No arm of this model uses it. -/
  | notModelled (mnemonic : String)
  deriving DecidableEq, Repr

/-- The complete state of the block (R20) and, last, the model's own three fields: which draw of the
unspecified PAY contents is in force, the host's inputs still to come, and the responses given. -/
structure State where
  /-- PAY_CAP, the parameter of the block (R9, R42): no step changes it -/
  cfg : Config
  /-- ARG, operand of PPUT (R21) -/
  arg : Word
  /-- DATA, result of UGET and USYM (R22) -/
  data : Word
  /-- RESULT, result code of the last command (R33) -/
  result : BitVec 8
  /-- ERRS, sticky error summary (R34) -/
  errs : Word
  /-- TREE_VALID (R25) -/
  treeValid : Bool
  /-- CODE_VALID (R26) -/
  codeValid : Bool
  /-- HEAP_LIVE (R27) -/
  heapLive : Bool
  /-- ROOT (R38) -/
  root : Handle
  /-- NNODE (R37), 0..511 -/
  nnode : BitVec 9
  /-- HEAPN (R39), 0..256 -/
  heapn : BitVec 9
  /-- BITCNT (R40) -/
  bitcnt : Word
  /-- RDPOS (R41) -/
  rdpos : Word
  /-- FREQ[0..255] (R43) -/
  freq : Vector Word 256
  /-- NODE[0..510] (R44) -/
  node : Vector Node 511
  /-- HEAP[0..255] (R45) -/
  heap : Vector Handle 256
  /-- CODE[0..255] (R46) -/
  code : Vector CodeEntry 256
  /-- PAY (R47): the bytes written since the last hardware reset, addresses (payload byte indices)
  strictly rising; a byte not listed holds `Config.resetPayByte resets a` (R223) -/
  pay : List Host.Cell
  /-- MODEL'S OWN: how many times the hardware reset input was used, so that each draw is its own (U1) -/
  resets : Nat
  /-- MODEL'S OWN: what the host will do, first first (R19, R234); a step takes one -/
  bus : List HostInput
  /-- MODEL'S OWN: the responses given so far, oldest first (R19 "the list of responses") -/
  responses : List Response
  deriving DecidableEq, Repr

/-- The state after hardware reset (R50, R221), with the default capacity and no input waiting. -/
def State.reset : State where
  cfg := Config.standard
  arg := 0
  data := 0
  result := 0
  errs := 0
  treeValid := false
  codeValid := false
  heapLive := false
  root := NIL
  nnode := 0
  heapn := 0
  bitcnt := 0
  rdpos := 0
  freq := Vector.replicate 256 0
  node := Vector.replicate 511 Node.empty
  heap := Vector.replicate 256 NIL
  code := Vector.replicate 256 CodeEntry.absent
  pay := []
  resets := 0
  bus := []
  responses := []

end Sys2Proof.Machine
end

