-- ==== Sys2Proof/Machine/Ops.lean ====
section
/-! DEFINITION. The named operations over registers and memories that the command meanings share: ending
a command (rules R192, R193), the tables FREQ, NODE, HEAP and CODE, the bytes of PAY (R74), the heap
procedures (R121 to R123), the bodies of the build commands (R124 to R126), the traversal of CGEN (R142),
and the two resets (R220, R181). -/

namespace Sys2Proof.Machine

/-- The result of a step of this machine. -/
abbrev Result := Host.Outcome State Fault Refusal

/-! ## Ending a command -/

/-- The result code of an error (R191). -/
def CmdError.code : CmdError → BitVec 8
  | .emptyInput => 0x01
  | .invalidInput => 0x02
  | .invalidTree => 0x03
  | .corruptHeader => 0x04
  | .decodeError => 0x05
  | .illegalCommand => 0x10
  | .sequenceError => 0x11
  | .countOverflow => 0x12
  | .noCode => 0x13
  | .payloadOverflow => 0x14
  | .endOfStream => 0x15

/-- The ERRS word in which only the bit of `e` is 1 (R34, R193). -/
def CmdError.bit (e : CmdError) : Word := 1#32 <<< e.code.toNat

/-- `raise e` (R15, R193): the block's trap entry. RESULT takes the code, the error's bit of ERRS is set,
nothing else changes. There is no trap return: the next command runs normally (R207, R184). -/
def State.raise (s : State) (e : CmdError) : State :=
  { s with result := e.code, errs := s.errs ||| e.bit }

/-- `done` (R15, R192): RESULT <- 0, ERRS as it was. -/
def State.done (s : State) : State := { s with result := 0 }

/-! ## Tables -/

/-- Entry `i` of a table, and `d` where the table has no entry `i`. Only a read through the handle NIL can
miss, and no run does that (log entry 3). -/
def tableGet {α : Type} {n : Nat} (t : Vector α n) (d : α) (i : Nat) : α := t[i]?.getD d

/-- The table with entry `i` replaced; a table has no entry past its end to replace. -/
def tableSet {α : Type} {n : Nat} (t : Vector α n) (i : Nat) (x : α) : Vector α n := t.setIfInBounds i x

/-- `FREQ[sym]` (R43). -/
def State.freqAt (s : State) (sym : Sym) : Word := tableGet s.freq 0 sym.toNat

/-- `FREQ[sym] <- v` (R43). -/
def State.setFreq (s : State) (sym : Sym) (v : Word) : State :=
  { s with freq := tableSet s.freq sym.toNat v }

/-- `NODE[h]` of a node table (R44); the slot 511 that NIL would have holds nothing and reads empty. -/
def nodeAt (t : Vector Node 511) (h : Handle) : Node := tableGet t Node.empty h.toNat

/-- `NODE[h]` (R44). -/
def State.nodeAt (s : State) (h : Handle) : Node := Machine.nodeAt s.node h

/-- `HEAP[i]` of a heap table (R45). -/
def heapAt (t : Vector Handle 256) (i : Nat) : Handle := tableGet t NIL i

/-- `HEAP[i]` (R45). -/
def State.heapAt (s : State) (i : Nat) : Handle := Machine.heapAt s.heap i

/-- `CODE[sym]` (R46). -/
def State.codeAt (s : State) (sym : Sym) : CodeEntry := tableGet s.code CodeEntry.absent sym.toNat

/-- `for s in 0..255: FREQ[s] <- 0` (R110). -/
def State.clearFreq (s : State) : State := { s with freq := Vector.replicate 256 0 }

/-! ## The bytes of PAY (R47, R74) -/

/-- The byte written at address `a`, if one was. -/
def Memory.lookup : List Host.Cell → Nat → Option Byte
  | [], _ => none
  | (k, v) :: m, a => if a = k then some v else Memory.lookup m a

/-- Memory with byte `b` at address `a`, the addresses still rising. -/
def Memory.write : List Host.Cell → Nat → Byte → List Host.Cell
  | [], a, b => [(a, b)]
  | (k, v) :: m, a, b =>
    if a < k then (a, b) :: (k, v) :: m
    else if a = k then (a, b) :: m
    else (k, v) :: Memory.write m a b

/-- The canonical form: addresses strictly rising. An unlisted address has no written byte, so no entry
repeats what an unlisted address holds (log entry 2). -/
abbrev Memory.wf (m : List Host.Cell) : Prop := m.Pairwise (fun c d => c.1 < d.1)

/-- What an unlisted byte of PAY reads as: the draw of the last hardware reset (R223). -/
def State.unwrittenByte (s : State) (a : Nat) : Byte := Config.resetPayByte s.resets a

/-- `MemRead(a, 1)`: the byte `PAY[a]` (R74). -/
def State.payByte (s : State) (a : Nat) : Byte := (Memory.lookup s.pay a).getD (s.unwrittenByte a)

/-- `MemWrite(a, 1, b)`: `PAY[a] <- b` (R74). -/
def State.setPayByte (s : State) (a : Nat) (b : Byte) : State :=
  { s with pay := Memory.write s.pay a b }

/-! ## The heap (R120 to R123) -/

/-- `less(a, b)`, the order of keys (weight, handle) (R121). -/
def less (t : Vector Node 511) (a b : Handle) : Bool :=
  decide ((nodeAt t a).w < (nodeAt t b).w) ||
    ((nodeAt t a).w == (nodeAt t b).w && decide (a < b))

/-- Swap `HEAP[i]` and `HEAP[j]`. -/
def heapSwap (hp : Vector Handle 256) (i j : Nat) : Vector Handle 256 :=
  tableSet (tableSet hp i (heapAt hp j)) j (heapAt hp i)

/-- The loop of `heap_insert` (R122) at position `i`, for at most `fuel` rounds. A round at `i` goes on at
`(i - 1) >> 1 < i`, so `fuel = i` rounds are enough. -/
def siftUp (t : Vector Node 511) : Nat → Vector Handle 256 → Nat → Vector Handle 256
  | 0, hp, _ => hp
  | fuel + 1, hp, i =>
    if i = 0 then hp
    else if less t (heapAt hp i) (heapAt hp ((i - 1) / 2)) then
      siftUp t fuel (heapSwap hp i ((i - 1) / 2)) ((i - 1) / 2)
    else hp

/-- `heap_insert(h)` (R122). -/
def State.heapInsert (s : State) (h : Handle) : State :=
  { s with
    heap := siftUp s.node s.heapn.toNat (tableSet s.heap s.heapn.toNat h) s.heapn.toNat
    heapn := s.heapn + 1 }

/-- The position of the least of `HEAP[i]` and its children (R123): the second comparison is against the
winner of the first. -/
def leastChild (t : Vector Node 511) (n : Nat) (hp : Vector Handle 256) (i : Nat) : Nat :=
  let m := if 2 * i + 1 < n && less t (heapAt hp (2 * i + 1)) (heapAt hp i) then 2 * i + 1 else i
  if 2 * i + 2 < n && less t (heapAt hp (2 * i + 2)) (heapAt hp m) then 2 * i + 2 else m

/-- The loop of `heap_extract_min` (R123) at position `i` of a heap of `n` handles, for at most `fuel`
rounds. A round goes on at a greater position below `n`, so `fuel = n` rounds are enough. -/
def siftDown (t : Vector Node 511) (n : Nat) : Nat → Vector Handle 256 → Nat → Vector Handle 256
  | 0, hp, _ => hp
  | fuel + 1, hp, i =>
    if leastChild t n hp i = i then hp
    else siftDown t n fuel (heapSwap hp i (leastChild t n hp i)) (leastChild t n hp i)

/-- The heap table after `heap_extract_min` on `n + 1` handles (R123): the last handle moves to the top and
sinks, the vacated position holds NIL. -/
def heapWithoutMin (t : Vector Node 511) (n : Nat) (hp : Vector Handle 256) : Vector Handle 256 :=
  if n = 0 then tableSet hp n NIL
  else siftDown t n n (tableSet (tableSet hp n NIL) 0 (heapAt hp n)) 0

/-- `heap_extract_min()` (R123): the handle and the state after it. -/
def State.heapExtractMin (s : State) : Handle × State :=
  (s.heapAt 0,
    { s with
      heap := heapWithoutMin s.node (s.heapn.toNat - 1) s.heap
      heapn := s.heapn - 1 })

/-! ## The bodies of the build commands -/

/-- Make a node at handle NNODE (R44: nodes are created in handle order). -/
def State.newNode (s : State) (x : Node) : State :=
  { s with node := tableSet s.node s.nnode.toNat x, nnode := s.nnode + 1 }

/-- The leaf of a present symbol (R124). -/
def leafNode (sym : Sym) (count : Word) : Node := ⟨true, sym, count.setWidth 40, NIL, NIL⟩

/-- The parent of two nodes (R125). -/
def parentNode (t : Vector Node 511) (a b : Handle) : Node :=
  ⟨false, 0, (nodeAt t a).w + (nodeAt t b).w, a, b⟩

/-- The wrapper of a lone leaf: the leaf is the left child, the right child is NIL (R126, R127). -/
def wrapperNode (t : Vector Node 511) (r : Handle) : Node := ⟨false, 0, (nodeAt t r).w, r, NIL⟩

/-- One round of TINIT's loop (R124): a leaf and its heap entry, if the symbol has a count. -/
def State.addLeaf (s : State) (sym : Sym) : State :=
  if s.freqAt sym = 0 then s
  else (s.newNode (leafNode sym (s.freqAt sym))).heapInsert s.nnode

/-- The symbols 0, 1, ..., 255 in ascending order (R124). -/
def allSymbols : List Sym := (List.range 256).map (BitVec.ofNat 8)

/-- TINIT before its loop (R124): the arena and the heap empty, the flags of a build begun. -/
def State.clearBuild (s : State) : State :=
  { s with
    node := Vector.replicate 511 Node.empty
    heap := Vector.replicate 256 NIL
    nnode := 0
    heapn := 0
    root := NIL
    treeValid := false
    codeValid := false
    heapLive := true }

/-- The body of TINIT (R124). -/
def State.tinitBody (s : State) : State := allSymbols.foldl State.addLeaf s.clearBuild

/-- The body of TMERGE (R125): the first handle extracted is the left child. -/
def State.tmergeBody (s : State) : State :=
  let a := s.heapExtractMin
  let b := a.2.heapExtractMin
  (b.2.newNode (parentNode b.2.node a.1 b.1)).heapInsert b.2.nnode

/-- ROOT <- r, TREE_VALID <- 1, HEAP_LIVE <- 0 (R126). -/
def State.setTree (s : State) (r : Handle) : State :=
  { s with root := r, treeValid := true, heapLive := false }

/-- The body of TFIN (R126). -/
def State.tfinBody (s : State) : State :=
  let r := s.heapExtractMin
  if (r.2.nodeAt r.1).leaf then (r.2.newNode (wrapperNode r.2.node r.1)).setTree r.2.nnode
  else r.2.setTree r.1

/-- `while HEAPN > 1: perform the body of TMERGE` (R128), for at most `fuel` rounds; each round takes one
off HEAPN, so `fuel = HEAPN` rounds are enough. -/
def State.mergeAll : Nat → State → State
  | 0, s => s
  | fuel + 1, s => if 1 < s.heapn.toNat then State.mergeAll fuel s.tmergeBody else s

/-- The body of TBUILD (R128). -/
def State.tbuildBody (s : State) : State := (State.mergeAll s.tinitBody.heapn.toNat s.tinitBody).tfinBody

/-! ## The code table (R140 to R142) -/

/-- One entry of the traversal's stack: handle, length, bits (R142). -/
structure Visit where
  h : Handle
  len : Nat
  bits : CodeBits
  deriving DecidableEq, Repr

/-- The children of an internal node, pushed so that the left one is visited first; NIL is not pushed. -/
def childVisits (x : Node) (v : Visit) : List Visit :=
  (if x.left = NIL then [] else [⟨x.left, v.len + 1, v.bits <<< 1⟩]) ++
  (if x.right = NIL then [] else [⟨x.right, v.len + 1, v.bits <<< 1 ||| 1⟩])

/-- The entry recorded at a leaf (R141). -/
def codeEntry (v : Visit) : CodeEntry := ⟨true, BitVec.ofNat 8 v.len, v.bits⟩

/-- The reference traversal (R142): pops at most `fuel` entries of the stack. "ends after at most 511 pops". -/
def cgenWalk (t : Vector Node 511) :
    Nat → List Visit → Vector CodeEntry 256 → Vector CodeEntry 256
  | 0, _, code => code
  | _ + 1, [], code => code
  | fuel + 1, v :: stack, code =>
    if (nodeAt t v.h).leaf then
      cgenWalk t fuel stack (tableSet code (nodeAt t v.h).sym.toNat (codeEntry v))
    else cgenWalk t fuel (childVisits (nodeAt t v.h) v ++ stack) code

/-- CODE cleared and filled from the tree (R141). -/
def State.fillCode (s : State) : State :=
  { s with
    code := cgenWalk s.node 511 [⟨s.root, 0, 0⟩] (Vector.replicate 256 CodeEntry.absent)
    codeValid := true }

/-! ## Resets -/

/-- `SRST` (R181): every element at its reset value, except PAY (and the block's parameter and the model's
own fields, which are no state of the block). RESULT is 0, which is also what `done` leaves. ARG, DATA and ERRS are cleared
too (log entry 6). -/
def State.softReset (s : State) : State :=
  { State.reset with
    cfg := s.cfg, pay := s.pay, resets := s.resets, bus := s.bus, responses := s.responses }

/-- Hardware reset (R220, R223): the state of R50 with a fresh draw of PAY (log entries 2 and 5). -/
def State.hardReset (s : State) : State :=
  { State.reset with
    cfg := s.cfg, resets := s.resets + 1, bus := s.bus, responses := s.responses }

end Sys2Proof.Machine
end

