-- ==== Sys2Proof/Machine/CodeTable.lean ====
section
/-! DEFINITION. The code-table generator (rule R141). -/

namespace Sys2Proof.Machine

/-- `CGEN` (R141). The InvalidTreeError branch is a guard that no run reaches (R197). -/
def execCgen (s : State) : Result :=
  if s.treeValid = false then .next (s.raise .sequenceError)
  else if (s.nodeAt s.root).leaf then .next (s.raise .invalidTree)
  else .next s.fillCode.done

end Sys2Proof.Machine
end

