-- ==== Sys2Proof/Machine/Frequency.lean ====
section
/-! DEFINITION. The frequency accumulator (rules R110, R111). -/

namespace Sys2Proof.Machine

/-- `FCLR` (R110). -/
def execFclr (s : State) : Result := .next s.clearFreq.done

/-- `FACC sym` (R111): a full count is an error, it neither wraps nor saturates. -/
def execFacc (sym : Sym) (s : State) : Result :=
  if s.freqAt sym = 0xFFFFFFFF#32 then .next (s.raise .countOverflow)
  else .next (s.setFreq sym (s.freqAt sym + 1)).done

end Sys2Proof.Machine
end

