-- ==== Sys2Proof/Machine/Operands.lean ====
section
/-! DEFINITION. The operands that a command does not carry in its word: the payload bits it reads and
appends (rules R75, R76), the bits of ARG (R21), and the capacity they are checked against (R151, R152). -/

namespace Sys2Proof.Machine

/-- The number of payload bits that fit, 8 * PAY_CAP (R40). -/
def State.capBits (s : State) : Nat := 8 * s.cfg.payCap

/-- `BITCNT + n > 8 * PAY_CAP`, on unbounded naturals (R151). -/
def State.overflows (s : State) (n : Nat) : Bool := decide (s.capBits < s.bitcnt.toNat + n)

/-- `getbit(p)` (R75): payload bit `p` is bit `7 - (p mod 8)` of `PAY[p >> 3]`. -/
def State.getbit (s : State) (p : Nat) : Bool := (s.payByte (p / 8)).getLsbD (7 - p % 8)

/-- `keep` of R76: the `k` most significant bits of a byte. -/
def keepMask (k : Nat) : Byte := ((0xFF00#16 >>> k) &&& 0x00FF#16).setWidth 8

/-- The byte `putbit` writes (R76): the `k` bits already packed, `b` below them, zeros below that. -/
def packByte (old : Byte) (k : Nat) (b : Bool) : Byte :=
  (old &&& keepMask k) ||| (BitVec.ofBool b).setWidth 8 <<< (7 - k)

/-- The byte `putbit` starts from. For k = 0 the byte "is overwritten whole" (R76), so an unspecified byte
is not looked at; `packByte_zero` says that R76's formula gives the same. -/
def State.packBase (s : State) (n : Nat) : Byte := if n % 8 = 0 then 0 else s.payByte (n / 8)

/-- `putbit(b)` (R76). -/
def State.putbit (s : State) (b : Bool) : State :=
  { s.setPayByte (s.bitcnt.toNat / 8) (packByte (s.packBase s.bitcnt.toNat) (s.bitcnt.toNat % 8) b) with
    bitcnt := s.bitcnt + 1 }

/-- `for i in n-1, ..., 0: putbit(f i)` (R151, R152). -/
def State.putBits (f : Nat → Bool) : Nat → State → State
  | 0, s => s
  | n + 1, s => State.putBits f n (s.putbit (f n))

/-- `ARG[i]` (R21). -/
def State.argBit (s : State) (i : Nat) : Bool := s.arg.getLsbD i

/-- `CODE[sym].bits[i]` (R46). -/
def State.codeBit (s : State) (sym : Sym) (i : Nat) : Bool := (s.codeAt sym).bits.getLsbD i

/-- `CODE[sym].len` (R46). -/
def State.codeLen (s : State) (sym : Sym) : Nat := (s.codeAt sym).len.toNat

/-- The loop of `UGET` (R166): `v <- (v << 1) | getbit(p + j)` for j = 0 .. n-1. -/
def State.getBits (s : State) : Nat → Nat → Word → Word
  | _, 0, v => v
  | p, n + 1, v => State.getBits s (p + 1) n (v <<< 1 ||| (BitVec.ofBool (s.getbit p)).setWidth 32)

/-- Where the walk of `USYM` ends (R167). -/
inductive WalkEnd where
  /-- at the leaf `h`, having read the bits below position `p` -/
  | leaf (h : Handle) (p : Nat)
  /-- the bits ran out inside a code, or a NIL child was met -/
  | stuck
  deriving DecidableEq, Repr

/-- The child of `x` that the bit `b` leads to (R167). -/
def Node.child (x : Node) (b : Bool) : Handle := if b then x.right else x.left

/-- The loop of `USYM` (R167) at handle `h` and position `p`, with `rem = BITCNT - p` bits left. -/
def State.walk (s : State) : Nat → Nat → Handle → WalkEnd
  | 0, _, _ => .stuck
  | rem + 1, p, h =>
    let c := (s.nodeAt h).child (s.getbit p)
    if c = NIL then .stuck
    else if (s.nodeAt c).leaf then .leaf c (p + 1)
    else State.walk s rem (p + 1) c

/-- The walk from ROOT at RDPOS (R167). -/
def State.walkFromRoot (s : State) : WalkEnd :=
  s.walk (s.bitcnt.toNat - s.rdpos.toNat) s.rdpos.toNat s.root

end Sys2Proof.Machine
end

