-- ==== Sys2Proof/Machine/Packer.lean ====
section
/-! DEFINITION. The bit packer (rules R150 to R152). -/

namespace Sys2Proof.Machine

/-- `PRST` (R150). PAY is not cleared. -/
def execPrst (s : State) : Result := .next { s with bitcnt := 0, rdpos := 0 }.done

/-- `PPUT n` (R151): the bits ARG[n-1:0], bit n-1 first. -/
def execPput (n : Nat) (s : State) : Result :=
  if s.overflows n then .next (s.raise .payloadOverflow)
  else .next (s.putBits s.argBit n).done

/-- `PSYM sym` (R152): the code of the symbol, first bit first. -/
def execPsym (sym : Sym) (s : State) : Result :=
  if s.codeValid = false then .next (s.raise .sequenceError)
  else if (s.codeAt sym).valid = false then .next (s.raise .noCode)
  else if s.overflows (s.codeLen sym) then .next (s.raise .payloadOverflow)
  else .next (s.putBits (s.codeBit sym) (s.codeLen sym)).done

end Sys2Proof.Machine
end

