-- ==== Sys2Proof/Machine/System.lean ====
section
/-! DEFINITION. The system commands (rules R180, R181). -/

namespace Sys2Proof.Machine

/-- `NOP` (R180). -/
def execNop (s : State) : Result := .next s.done

/-- `SRST` (R181). -/
def execSrst (s : State) : Result := .next s.softReset.done

end Sys2Proof.Machine
end

