-- ==== Sys2Proof/Machine/Flags.lean ====
section
/-! DEFINITION. The derived flags and read-only values (rules R28, R29, R35, R36): functions of the state,
not storage. The three stored flags are written where the commands write them (Ops: `clearBuild`,
`setTree`, `fillCode`, `softReset`). -/

namespace Sys2Proof.Machine

/-- EOS: all significant bits consumed (R28). -/
def State.eos (s : State) : Bool := s.rdpos == s.bitcnt

/-- NSYM: the number of symbols with a count (R35). -/
def State.nsym (s : State) : Nat := allSymbols.countP (fun y => s.freqAt y != 0)

/-- Every FREQ word is 0 (R28 EMPTY, R124). -/
def State.freqEmpty (s : State) : Bool := allSymbols.all (fun y => s.freqAt y == 0)

/-- TOTAL: the sum of all FREQ words (R36). -/
def State.total (s : State) : Nat := (allSymbols.map (fun y => (s.freqAt y).toNat)).sum

/-- ERR: an error is recorded (R28). -/
def State.errFlag (s : State) : Bool := s.errs != 0

/-- One bit at position `i` of a word. -/
def flagBit (b : Bool) (i : Nat) : Word := (BitVec.ofBool b).setWidth 32 <<< i

/-- STATUS (R29). -/
def State.status (s : State) : Word :=
  flagBit s.treeValid 0 ||| flagBit s.codeValid 1 ||| flagBit s.heapLive 2 |||
    flagBit s.eos 3 ||| flagBit s.freqEmpty 4 ||| flagBit s.errFlag 5

/-- TOTAL_LO (R36). -/
def State.totalLo (s : State) : Word := (BitVec.ofNat 40 s.total).extractLsb' 0 32

/-- TOTAL_HI (R36): bits 7:0 are TOTAL[39:32]. -/
def State.totalHi (s : State) : Word := ((BitVec.ofNat 40 s.total).extractLsb' 32 8).setWidth 32

/-- `.used` of a NODE entry: h < NNODE (R44). -/
def State.used (s : State) (h : Nat) : Bool := decide (h < s.nnode.toNat)

end Sys2Proof.Machine
end

