-- ==== Sys2Proof/Machine/Tree.lean ====
section
/-! DEFINITION. The tree builder (rules R124 to R128). -/

namespace Sys2Proof.Machine

/-- `TINIT` (R124). -/
def execTinit (s : State) : Result :=
  if s.freqEmpty then .next (s.raise .invalidInput) else .next s.tinitBody.done

/-- `TMERGE` (R125). -/
def execTmerge (s : State) : Result :=
  if s.heapLive = false ∨ s.heapn.toNat < 2 then .next (s.raise .sequenceError)
  else .next s.tmergeBody.done

/-- `TFIN` (R126). -/
def execTfin (s : State) : Result :=
  if s.heapLive = false ∨ s.heapn.toNat ≠ 1 then .next (s.raise .sequenceError)
  else .next s.tfinBody.done

/-- `TBUILD` (R128). -/
def execTbuild (s : State) : Result :=
  if s.freqEmpty then .next (s.raise .invalidInput) else .next s.tbuildBody.done

end Sys2Proof.Machine
end

