-- ==== Sys2Proof/Machine/Unpacker.lean ====
section
/-! DEFINITION. The bit unpacker and decoder (rules R165 to R167). -/

namespace Sys2Proof.Machine

/-- `URST` (R165). -/
def execUrst (s : State) : Result := .next { s with rdpos := 0 }.done

/-- `UGET n` (R166): the first bit read lands in DATA[n-1]. -/
def execUget (n : Nat) (s : State) : Result :=
  if s.bitcnt.toNat < s.rdpos.toNat + n then .next (s.raise .endOfStream)
  else .next
    { s with data := s.getBits s.rdpos.toNat n 0, rdpos := s.rdpos + BitVec.ofNat 32 n }.done

/-- `USYM` (R167): walk the tree from ROOT along the payload bits until a leaf. -/
def execUsym (s : State) : Result :=
  if s.treeValid = false then .next (s.raise .sequenceError)
  else if s.rdpos = s.bitcnt then .next (s.raise .endOfStream)
  else
    match s.walkFromRoot with
    | .stuck => .next (s.raise .decodeError)
    | .leaf h p =>
      .next { s with data := (s.nodeAt h).sym.setWidth 32, rdpos := BitVec.ofNat 32 p }.done

end Sys2Proof.Machine
end

