-- ==== Sys2Proof/Machine/Dispatch.lean ====
section
/-! DEFINITION. The meaning of each command, one arm per row of the opcode table (rule R93). -/

namespace Sys2Proof.Machine

def exec (i : Instr) (s : State) : Host.Outcome State Fault Refusal :=
  match i with
  -- system
  | .nop => Sys2Proof.Machine.execNop s
  -- frequency accumulator
  | .fclr => Sys2Proof.Machine.execFclr s
  | .facc sym => Sys2Proof.Machine.execFacc sym s
  -- tree builder
  | .tinit => Sys2Proof.Machine.execTinit s
  | .tmerge => Sys2Proof.Machine.execTmerge s
  | .tfin => Sys2Proof.Machine.execTfin s
  | .tbuild => Sys2Proof.Machine.execTbuild s
  -- code-table generator
  | .cgen => Sys2Proof.Machine.execCgen s
  -- packer
  | .prst => Sys2Proof.Machine.execPrst s
  | .pput n => Sys2Proof.Machine.execPput n s
  | .psym sym => Sys2Proof.Machine.execPsym sym s
  -- unpacker
  | .urst => Sys2Proof.Machine.execUrst s
  | .uget n => Sys2Proof.Machine.execUget n s
  | .usym => Sys2Proof.Machine.execUsym s
  -- system
  | .srst => Sys2Proof.Machine.execSrst s

end Sys2Proof.Machine
end

