-- ==== Sys2Proof/Machine/Bus.lean ====
section
/-! DEFINITION. The host bus: the address map (rules R30, R61), the word each address reads as (R64 to R69),
the effect of each write (R67), and the execution of a word written to CMD (R32, R100). -/

namespace Sys2Proof.Machine

/-- The sixteen registers, in address order (R30). -/
inductive Reg where
  | id | cmd | arg | data | result | status | errs | nsym
  | totalLo | totalHi | nnode | root | heapn | bitcnt | rdpos | paycap
  deriving DecidableEq, Repr

/-- The registers at 0x00, 0x04, ..., 0x3C (R30). -/
def regMap : List Reg :=
  [.id, .cmd, .arg, .data, .result, .status, .errs, .nsym,
   .totalLo, .totalHi, .nnode, .root, .heapn, .bitcnt, .rdpos, .paycap]

/-- What stands at a bus address (R61): a register, a word of a window, or four bytes of PAY. -/
inductive Place where
  | reg (r : Reg)
  | freq (i : Nat)
  | heap (i : Nat)
  /-- word `k` (0..3) of entry `h` -/
  | node (h k : Nat)
  /-- word `k` (0..15) of entry `i` -/
  | code (i k : Nat)
  /-- the bytes `a` .. `a + 3` -/
  | pay (a : Nat)
  deriving DecidableEq, Repr

/-- The place at a bus address, none where any access is a BusError: a misaligned address (R71) or one in
no window (R61). -/
def placeOf (payCap : Nat) (addr : Word) : Option Place :=
  let a := addr.toNat
  if a % 4 ≠ 0 then none
  else if a < 0x40 then (regMap[a / 4]?).map .reg
  else if 0x400 ≤ a ∧ a < 0x800 then some (.freq ((a - 0x400) / 4))
  else if 0x800 ≤ a ∧ a < 0xC00 then some (.heap ((a - 0x800) / 4))
  else if 0x2000 ≤ a ∧ a < 0x3FF0 then some (.node ((a - 0x2000) / 16) ((a - 0x2000) % 16 / 4))
  else if 0x4000 ≤ a ∧ a < 0x8000 then some (.code ((a - 0x4000) / 64) ((a - 0x4000) % 64 / 4))
  else if 0x10000 ≤ a ∧ a < 0x10000 + payCap then some (.pay (a - 0x10000))
  else none

/-- What a register reads as (R30). CMD reads 0. -/
def State.readReg (s : State) : Reg → Word
  | .id => 0x48460100
  | .cmd => 0
  | .arg => s.arg
  | .data => s.data
  | .result => s.result.setWidth 32
  | .status => s.status
  | .errs => s.errs
  | .nsym => BitVec.ofNat 32 s.nsym
  | .totalLo => s.totalLo
  | .totalHi => s.totalHi
  | .nnode => s.nnode.setWidth 32
  | .root => s.root.setWidth 32
  | .heapn => s.heapn.setWidth 32
  | .bitcnt => s.bitcnt
  | .rdpos => s.rdpos
  | .paycap => BitVec.ofNat 32 s.cfg.payCap

/-- Word `k` of NODE entry `h`: WLO, WHI, LINK, INFO (R65). -/
def State.readNode (s : State) (h k : Nat) : Word :=
  let x := tableGet s.node Node.empty h
  match k with
  | 0 => x.w.extractLsb' 0 32
  | 1 => (x.w.extractLsb' 32 8).setWidth 32
  | 2 => x.left.setWidth 32 ||| x.right.setWidth 32 <<< 16
  | _ => flagBit x.leaf 0 ||| flagBit (s.used h) 1 ||| x.sym.setWidth 32 <<< 8

/-- Word `k` of CODE entry `i`: CLEN, seven reserved words, CBITS[0..7] (R68). -/
def State.readCode (s : State) (i k : Nat) : Word :=
  let x := tableGet s.code CodeEntry.absent i
  if k = 0 then x.len.setWidth 32 ||| flagBit x.valid 31
  else if k < 8 then 0
  else x.bits.extractLsb' (32 * (k - 8)) 32

/-- The word of four payload bytes, the byte at the lowest address in bits 7:0 (R69). -/
def State.readPay (s : State) (a : Nat) : Word :=
  (s.payByte (a + 3) ++ s.payByte (a + 2) ++ s.payByte (a + 1) ++ s.payByte a).setWidth 32

/-- The word a place reads as (R66). -/
def State.readPlace (s : State) : Place → Word
  | .reg r => s.readReg r
  | .freq i => tableGet s.freq 0 i
  | .heap i => (s.heapAt i).setWidth 32
  | .node h k => s.readNode h k
  | .code i k => s.readCode i k
  | .pay a => s.readPay a

/-- `HostRead(addr)` (R66): a response, and no change of state. -/
def State.hostRead (s : State) (addr : Word) : Response :=
  match placeOf s.cfg.payCap addr with
  | some p => .word (s.readPlace p)
  | none => .busError

/-- The state after the response `r` has been given. -/
def State.respond (s : State) (r : Response) : State := { s with responses := s.responses ++ [r] }

/-- An outcome with a response given in its next state. -/
def answer (r : Response) : Result → Result
  | .next s => .next (s.respond r)
  | .fault f => .fault f
  | .refused f => .refused f

/-- Execute the word written to CMD (R32, R100): the decoded command, or IllegalCommand (R94, R194). -/
def runWord (w : Word) (s : State) : Result :=
  match decode w with
  | .ok i => exec i s
  | .error _ => .next (s.raise .illegalCommand)

/-- The four bytes of a word written to PAY (R67, R69). -/
def State.writePay (s : State) (a : Nat) (v : Word) : State :=
  (((s.setPayByte a (v.extractLsb' 0 8)).setPayByte (a + 1) (v.extractLsb' 8 8)).setPayByte
    (a + 2) (v.extractLsb' 16 8)).setPayByte (a + 3) (v.extractLsb' 24 8)

/-- `HostWrite(addr, v)` (R67). A BusError changes nothing. -/
def hostWrite (addr v : Word) (s : State) : Result :=
  match placeOf s.cfg.payCap addr with
  | some (.reg .cmd) => answer .ok (runWord v s)
  | some (.reg .arg) => .next ({ s with arg := v }.respond .ok)
  | some (.reg .errs) => .next ({ s with errs := s.errs &&& ~~~v }.respond .ok)
  | some (.reg .bitcnt) =>
    if s.capBits < v.toNat then .next (s.respond .busError)
    else .next ({ s with bitcnt := v, rdpos := 0 }.respond .ok)
  | some (.freq i) => .next ({ s with freq := tableSet s.freq i v }.respond .ok)
  | some (.pay a) => .next ((s.writePay a v).respond .ok)
  | some (.reg _) => .next (s.respond .busError)
  | some (.heap _) => .next (s.respond .busError)
  | some (.node _ _) => .next (s.respond .busError)
  | some (.code _ _) => .next (s.respond .busError)
  | none => .next (s.respond .busError)

/-- Serve one input of the host (R19, R70, R220). -/
def serve (x : HostInput) (s : State) : Result :=
  match x with
  | .txn (.read addr) => .next (s.respond (s.hostRead addr))
  | .txn (.write addr v) => hostWrite addr v s
  | .hardReset => .next s.hardReset

/-- The address of CMD (R30). -/
def cmdAddr : Word := 0x04

end Sys2Proof.Machine
end

