-- ==== Sys2Proof/Machine/Step.lean ====
section
/-! DEFINITION. The step of the machine: one transaction (rules R19, R70), and how a command word is put
where the next step executes it. -/

namespace Sys2Proof.Machine

/-- One step (R70): the block takes the host's next input and finishes everything it causes. With no input
it is idle and holds its state (R215). -/
def step (s : State) : Host.Outcome State Fault Refusal :=
  match s.bus with
  | [] => .next s
  | x :: rest => serve x { s with bus := rest }

/-- The state in which the host's next transaction writes the command word to CMD. The block fetches
nothing (R24, R82): a command is the data of that write (log entry 4). -/
def State.withFetchWord (s : State) (nbits w : Nat) : State :=
  { s with bus := .txn (.write cmdAddr (tableWord nbits w)) :: s.bus }

end Sys2Proof.Machine
end

