-- ==== Sys2Proof/Safety.lean ====
section
/-! DEFINITION. What a good state and a good run are, in the terms the statements use: the invariants of
rule R48 (with R34, R45, R130), the paths of the tree and the code table they spell (R140), and runs of
commands that all succeed. -/

namespace Sys2Proof.Machine

/-! ## Errors as the spec's numbers -/

/-- The state after a command that raised the error with number `code` (R193): RESULT and one bit of ERRS,
nothing else. -/
def raised (s : State) (code : Nat) : State :=
  { s with result := BitVec.ofNat 8 code, errs := s.errs ||| 1#32 <<< code }

/-- The result codes a command can leave (R191): 0x01 and 0x04 are never raised (R204). -/
def resultCodes : List (BitVec 8) := [0x00, 0x02, 0x03, 0x05, 0x10, 0x11, 0x12, 0x13, 0x14, 0x15]

/-- The bits of ERRS that can be 1 (R34: bits 0, 1, 4, 6 to 15, 22 to 31 always read 0). -/
def errsMask : Word := 0x003F002C

/-! ## The invariants -/

/-- Registers and PAY: R48 item 1, the reserved bits of ERRS (R34), the values of RESULT (R191), the
canonical form of PAY and its addresses (R61, R47). -/
structure RegInv (s : State) : Prop where
  cfgLegal : s.cfg.legal = true
  rdposLe : s.rdpos.toNat ≤ s.bitcnt.toNat
  bitcntLe : s.bitcnt.toNat ≤ s.capBits
  errsReserved : s.errs &&& ~~~errsMask = 0
  resultLegal : s.result ∈ resultCodes
  payWf : Memory.wf s.pay
  payRange : ∀ c ∈ s.pay, c.1 < s.cfg.payCap

/-- The flags and the registers tied to them: R48 items 4 and 6, the four flag combinations of R195, HEAPN
at most 256 (R39). -/
structure FlagInv (s : State) : Prop where
  heapDead : s.heapLive = false → s.heapn = 0
  heapAlive : s.heapLive = true → 1 ≤ s.heapn.toNat ∧ s.treeValid = false
  heapnLe : s.heapn.toNat ≤ 256
  noTree : s.treeValid = false → s.root = NIL
  codeNeedsTree : s.codeValid = true → s.treeValid = true
  nothingBuilt : s.heapLive = false → s.treeValid = false → s.nnode = 0

/-- `h` is one of the handles in the heap. -/
def InHeap (s : State) (h : Handle) : Prop := ∃ i, i < s.heapn.toNat ∧ s.heapAt i = h

/-- `h` is the handle of a node (R44 `.used`). -/
def IsNode (s : State) (h : Handle) : Prop := h.toNat < s.nnode.toNat

/-- `c` is a child of the internal node `p` (R44). -/
def IsChild (s : State) (p c : Handle) : Prop :=
  IsNode s p ∧ (s.nodeAt p).leaf = false ∧ c ≠ NIL ∧ ((s.nodeAt p).left = c ∨ (s.nodeAt p).right = c)

/-- `h` has no parent yet: it waits in the heap, or it is the root of the finished tree. -/
def IsTop (s : State) (h : Handle) : Prop := InHeap s h ∨ (s.treeValid = true ∧ s.root = h)

/-- The arena and the heap as a forest: R48 items 2, 3, 5, 8 and 9 and rules R44, R45. `leaves` says that
the first `l` handles are the leaves; while a build runs, NNODE + HEAPN = 2 l, because each merge adds one
node and takes one handle off the heap. -/
structure ArenaInv (s : State) : Prop where
  heapSlots : ∀ i, i < s.heapn.toNat → IsNode s (s.heapAt i)
  heapRest : ∀ i, s.heapn.toNat ≤ i → s.heapAt i = NIL
  heapDistinct : ∀ i j, i < s.heapn.toNat → j < s.heapn.toNat → s.heapAt i = s.heapAt j → i = j
  emptyRest : ∀ h, ¬IsNode s h → s.nodeAt h = Node.empty
  leafLinks : ∀ h, IsNode s h → (s.nodeAt h).leaf = true →
    (s.nodeAt h).left = NIL ∧ (s.nodeAt h).right = NIL
  innerLinks : ∀ h, IsNode s h → (s.nodeAt h).leaf = false →
    (s.nodeAt h).sym = 0 ∧ (s.nodeAt h).left < h ∧
      (((s.nodeAt h).right < h ∧ (s.nodeAt h).left ≠ (s.nodeAt h).right) ∨
        ((s.nodeAt h).right = NIL ∧ s.root = h ∧ s.treeValid = true ∧ s.nnode = 2))
  leavesFirst : ∀ g h, g < h → IsNode s h → (s.nodeAt h).leaf = true →
    (s.nodeAt g).leaf = true ∧ (s.nodeAt g).sym < (s.nodeAt h).sym
  oneParent : ∀ p q c, IsChild s p c → IsChild s q c → p = q
  topIffNoParent : ∀ h, IsNode s h → (IsTop s h ↔ ∀ p, ¬IsChild s p h)
  rootIsInner : s.treeValid = true → IsNode s s.root ∧ (s.nodeAt s.root).leaf = false
  leaves : ∃ l, l ≤ 256 ∧ l ≤ s.nnode.toNat ∧ (∀ h, IsNode s h → ((s.nodeAt h).leaf = true ↔ h.toNat < l)) ∧
    (s.heapLive = true → s.nnode.toNat + s.heapn.toNat = 2 * l) ∧
    (s.treeValid = true → (2 ≤ l ∧ s.nnode.toNat = 2 * l - 1) ∨ (l = 1 ∧ s.nnode = 2))

/-- The heap invariant of R45: no handle is less than the one at its parent position. -/
def HeapOrder (s : State) : Prop :=
  ∀ i, 0 < i → i < s.heapn.toNat → less s.node (s.heapAt i) (s.heapAt ((i - 1) / 2)) = false

/-- The weight of a node as a number. -/
def State.weight (s : State) (h : Handle) : Nat := (s.nodeAt h).w.toNat

/-- The handles 0, 1, ..., 510. -/
def allHandles : List Handle := (List.range 511).map (BitVec.ofNat 9)

/-- The sum of the weights of the leaves. -/
def leafWeight (s : State) : Nat :=
  (allHandles.map (fun h => if (s.nodeAt h).leaf then s.weight h else 0)).sum

/-- The sum of the weights of the handles in the heap. -/
def heapWeight (s : State) : Nat := ((List.range s.heapn.toNat).map (fun i => s.weight (s.heapAt i))).sum

/-- Weights (R44, R130): a leaf's is a nonzero 32-bit count, an internal node's is the sum of its
children's, without wrapping, and the weight of the leaves is all in the heap, or in the root. -/
structure WeightInv (s : State) : Prop where
  leafRange : ∀ h, (s.nodeAt h).leaf = true → 0 < s.weight h ∧ s.weight h < 2 ^ 32
  innerSum : ∀ h, IsNode s h → (s.nodeAt h).leaf = false →
    s.weight h = s.weight (s.nodeAt h).left +
      (if (s.nodeAt h).right = NIL then 0 else s.weight (s.nodeAt h).right)
  heapSum : s.heapLive = true → heapWeight s = leafWeight s
  rootSum : s.treeValid = true → s.weight s.root = leafWeight s

/-! ## Paths and codes -/

/-- `Descends t h bs f`: the bits `bs`, first bit first, lead from `h` down to `f`, 0 to the left child and
1 to the right (R140). -/
inductive Descends (t : Vector Node 511) : Handle → List Bool → Handle → Prop where
  | here (h : Handle) : Descends t h [] h
  | down (h f : Handle) (b : Bool) (bs : List Bool) (inner : (nodeAt t h).leaf = false)
      (real : (nodeAt t h).child b ≠ NIL) (rest : Descends t ((nodeAt t h).child b) bs f) :
      Descends t h (b :: bs) f

/-- `bs` is the code of symbol `sym` in the tree of `s` (R140): the path from ROOT to its leaf. -/
def IsCode (s : State) (sym : Sym) (bs : List Bool) : Prop :=
  ∃ f, Descends s.node s.root bs f ∧ (s.nodeAt f).leaf = true ∧ (s.nodeAt f).sym = sym

/-- The bit sequence a CODE entry stores: `bits[len-1], ..., bits[0]` (R46). -/
def CodeEntry.seq (x : CodeEntry) : List Bool :=
  (List.range x.len.toNat).map (fun j => x.bits.getLsbD (x.len.toNat - 1 - j))

/-- CODE is the code table of the tree (R140, R48 item 7), in the stored form of R46. -/
structure CodeMatches (s : State) : Prop where
  validIff : ∀ sym, (s.codeAt sym).valid = true ↔ ∃ bs, IsCode s sym bs
  spells : ∀ sym, (s.codeAt sym).valid = true → IsCode s sym (s.codeAt sym).seq
  nonEmpty : ∀ sym, (s.codeAt sym).valid = true → 1 ≤ s.codeLen sym

/-- The stored form of every CODE entry (R46, R48 item 8). -/
structure CodeForm (s : State) : Prop where
  absent : ∀ sym, (s.codeAt sym).valid = false → s.codeAt sym = CodeEntry.absent
  highZero : ∀ sym, (s.codeAt sym).bits.toNat < 2 ^ s.codeLen sym

/-- The code table part of R48: items 7 and 8. -/
structure CodeInv (s : State) : Prop where
  form : CodeForm s
  isTable : s.codeValid = true → CodeMatches s

/-- Everything R48 says of the registers, flags, arena and heap. -/
structure BuildInv (s : State) : Prop where
  regs : RegInv s
  flags : FlagInv s
  arena : ArenaInv s
  order : HeapOrder s

/-! ## Runs of commands -/

/-- Run commands one after another, each of which must succeed (RESULT = 0). -/
def runOk : List Instr → State → Option State
  | [], s => some s
  | i :: is, s =>
    match exec i s with
    | .next t => if t.result = 0 then runOk is t else none
    | .fault _ => none
    | .refused _ => none

/-- The bits a pack command appends (R151, R152). -/
def packedBits (s : State) : Instr → List Bool
  | .pput n => (List.range n).map (fun j => s.arg.getLsbD (n - 1 - j))
  | .psym sym => (s.codeAt sym).seq
  | .nop | .fclr | .facc _ | .tinit | .tmerge | .tfin | .tbuild | .cgen | .prst | .urst | .uget _ | .usym
  | .srst => []

/-- The pack commands `PPUT` and `PSYM`, the count legal (R92). -/
def isPack : Instr → Bool
  | .pput n => wellFormedCount n
  | .psym _ => true
  | .nop | .fclr | .facc _ | .tinit | .tmerge | .tfin | .tbuild | .cgen | .prst | .urst | .uget _ | .usym
  | .srst => false

/-- The bits a transaction appends to the payload: those of a pack command that succeeds, else none (R153, R193). -/
def appended (s : State) : Transaction → List Bool
  | .read _ => []
  | .write addr w =>
    if addr = cmdAddr then
      match decode w with
      | .ok i =>
        match exec i s with
        | .next t => if t.result = 0 then packedBits s i else []
        | .fault _ => []
        | .refused _ => []
      | .error _ => []
    else []

/-- The commands that move BITCNT without packing (R150, R181). -/
def restartsPayload : Instr → Bool
  | .prst | .srst => true
  | .nop | .fclr | .facc _ | .tinit | .tmerge | .tfin | .tbuild | .cgen | .pput _ | .psym _ | .urst | .uget _
  | .usym => false

/-- What the pack law of R153 excludes from a run: a host write to BITCNT or to PAY, and a new start. -/
def disturbsPayload (payCap : Nat) : Transaction → Bool
  | .read _ => false
  | .write addr w =>
    addr == 0x34 || decide (0x10000 ≤ addr.toNat ∧ addr.toNat < 0x10000 + payCap) ||
      (addr == cmdAddr && match decode w with
        | .ok i => restartsPayload i
        | .error _ => false)

/-- Serve transactions one after another, collecting the bits they append: the bits, and the state at the end. -/
def session : List Transaction → State → List Bool × State
  | [], s => ([], s)
  | x :: xs, s =>
    match serve (.txn x) s with
    | .next t => (appended s x ++ (session xs t).1, (session xs t).2)
    | .fault _ => ([], s)
    | .refused _ => ([], s)

/-- Issue `UGET n` for each `n` of a list, each succeeding, and collect the bits `DATA[n-1]`, ..., `DATA[0]`
(R166, R169). -/
def readBits : List Nat → State → Option (List Bool × State)
  | [], s => some ([], s)
  | n :: ns, s =>
    match runOk [.uget n] s with
    | some t =>
      (readBits ns t).map (fun r => ((List.range n).map (fun j => t.data.getLsbD (n - 1 - j)) ++ r.1, r.2))
    | none => none

/-- Issue `USYM` `m` times, each succeeding, and collect the symbols left in DATA (R167, R227). -/
def decodeSymbols : Nat → State → Option (List Sym × State)
  | 0, s => some ([], s)
  | m + 1, s =>
    match runOk [.usym] s with
    | some t => (decodeSymbols m t).map (fun r => (t.data.setWidth 8 :: r.1, r.2))
    | none => none

/-- The payload bits `p`, ..., `p + n - 1` (R47). -/
def State.payloadBits (s : State) (p n : Nat) : List Bool := (List.range n).map (fun j => s.getbit (p + j))

end Sys2Proof.Machine
end

