-- ==== Sys2Proof/Certificates/Slice0/Obligations.lean ====
section
/-! DEFINITION. The statements for the provers. Each docstring names the rule of the spec it formalises.
`exec` is the meaning of one command, `step` one bus transaction. Numbers (result codes, addresses, bit
positions) are written out as the spec writes them. A record `{ s with ... }` says that every element of
the state that is not named keeps its value: that is the frame. -/

open Sys2Proof Sys2Proof.Machine

/-! ## Encoding -/

/-- R91 to R93, R100: decoding an encoded well-formed command gives it back, for every operand value. -/
def Obligations.DecodeOfEncodeIsIdentity : Prop :=
  ∀ i : Instr, i.wellFormed = true → decode (encode i) = .ok i

/-- R92, R93, R94: a word that decodes is the one word of a well-formed command. -/
def Obligations.DecodedWordReencodes : Prop :=
  ∀ (w : Word) (i : Instr), decode w = .ok i → i.wellFormed = true ∧ encode i = w

/-- R100: decoding `w` runs the row that `w` matches, with `sym = w[7:0]` and `n = w[12:8] + 1`; no two rows
match the same word; and where no row matches, the command is an illegal one. -/
def Obligations.DecodeFollowsTheOpcodeMap : Prop :=
  (∀ (w : Word) (r q : OpRow), r ∈ opTable → q ∈ opTable →
    w &&& r.mask = r.pattern → w &&& q.mask = q.pattern → r = q) ∧
  (∀ r ∈ opTable, r.mask.extractLsb' 24 8 = 0xFF#8) ∧
  (∀ (w : Word) (r : OpRow), r ∈ opTable → w &&& r.mask = r.pattern →
    decode w = .ok (assemble r.op w) ∧ (∀ s, runWord w s = exec (assemble r.op w) s) ∧
    (r.op = .facc → assemble r.op w = .facc (w.extractLsb' 0 8)) ∧
    (r.op = .psym → assemble r.op w = .psym (w.extractLsb' 0 8)) ∧
    (r.op = .pput → assemble r.op w = .pput ((w.extractLsb' 8 5).toNat + 1)) ∧
    (r.op = .uget → assemble r.op w = .uget ((w.extractLsb' 8 5).toNat + 1))) ∧
  (∀ (w : Word) (s : State), (∀ r ∈ opTable, w &&& r.mask ≠ r.pattern) →
    runWord w s = .next (raised s 0x10))

/-- R97: the worked encodings, word by word. -/
def Obligations.WorkedEncodingsDecode : Prop :=
  decode 0x00000000 = .ok .nop ∧ decode 0x10000000 = .ok .fclr ∧
  decode 0x11000061 = .ok (.facc 0x61) ∧ decode 0x110000FF = .ok (.facc 0xFF) ∧
  decode 0x20000000 = .ok .tinit ∧ decode 0x21000000 = .ok .tmerge ∧
  decode 0x22000000 = .ok .tfin ∧ decode 0x23000000 = .ok .tbuild ∧
  decode 0x30000000 = .ok .cgen ∧ decode 0x40000000 = .ok .prst ∧
  decode 0x41000000 = .ok (.pput 1) ∧ decode 0x41000800 = .ok (.pput 9) ∧
  decode 0x41001F00 = .ok (.pput 32) ∧ decode 0x42000062 = .ok (.psym 0x62) ∧
  decode 0x50000000 = .ok .urst ∧ decode 0x51000200 = .ok (.uget 3) ∧
  decode 0x51001F00 = .ok (.uget 32) ∧ decode 0x52000000 = .ok .usym ∧
  decode 0xFF000000 = .ok .srst

/-- R94: which words are illegal, by their fields: an OPC that no row has, or a 1 in a bit that the row
requires to be 0 (bits 23:13 of any command; bits 12:8 outside PPUT and UGET; bits 7:0 outside FACC and
PSYM). The CMD write of such a word raises IllegalCommand (0x10, ERRS bit 16) and changes nothing else. -/
def Obligations.IllegalWordsRaiseIllegalCommand : Prop :=
  ∀ (w : Word) (s : State) (rest : List HostInput),
    s.bus = .txn (.write 0x04 w) :: rest →
    (w.extractLsb' 24 8 ∉ [0x00#8, 0x10, 0x11, 0x20, 0x21, 0x22, 0x23, 0x30, 0x40, 0x41, 0x42, 0x50, 0x51,
        0x52, 0xFF] ∨
      w.extractLsb' 13 11 ≠ 0 ∨
      (w.extractLsb' 8 5 ≠ 0 ∧ w.extractLsb' 24 8 ∉ [0x41#8, 0x51]) ∨
      (w.extractLsb' 0 8 ≠ 0 ∧ w.extractLsb' 24 8 ∉ [0x11#8, 0x42])) →
    step s = .next { s with
      bus := rest, responses := s.responses ++ [.ok], result := 0x10, errs := s.errs ||| 0x00010000 }

/-! ## Steps and the bus -/

/-- R32, R70, R24: a step whose transaction writes a command word to CMD runs exactly the decoded command, in
the state without that transaction, and then answers OK; `withFetchWord` puts a word there. The queue of the
host's inputs is the model's form of a run, log entry 4. -/
def Obligations.StepRunsTheDecodedCommand : Prop :=
  (∀ (s : State) (w : Word) (i : Instr) (rest : List HostInput),
    s.bus = .txn (.write 0x04 w) :: rest → decode w = .ok i →
    step s = answer .ok (exec i { s with bus := rest })) ∧
  (∀ (s : State) (w : Nat) (i : Instr), w < 2 ^ 32 → decode (BitVec.ofNat 32 w) = .ok i →
    step (s.withFetchWord 32 w) = answer .ok (exec i s))

/-- R16: for every state and every command word exactly one of `done` (RESULT = 0) or `raise` (RESULT the
code of an error, which is not 0, and ERRS with its bit, nothing else) is reached. -/
def Obligations.EveryCommandEndsInDoneOrRaise : Prop :=
  ∀ (w : Word) (s : State), ∃ t, runWord w s = .next t ∧
    (t.result = 0 ∨
      ∃ c ∈ [0x02, 0x03, 0x05, 0x10, 0x11, 0x12, 0x13, 0x14, 0x15], t = raised s c ∧ t.result ≠ 0)

/-- R19, R70, R215: the step is total: it takes one input of the host, and with none it holds the state. The
queue of inputs and the list of responses are the model's form of a run, log entry 4. -/
def Obligations.StepIsTotal : Prop :=
  (∀ s : State, s.bus = [] → step s = .next s) ∧
  (∀ (s : State) (x : HostInput) (rest : List HostInput), s.bus = x :: rest →
    ∃ t, step s = .next t ∧ t.bus = rest ∧ t.cfg = s.cfg ∧
      (x ≠ .hardReset → ∃ r, t.responses = s.responses ++ [r]))

/-- R66 (last sentence), R72: a read changes no state: the step only gives a response. -/
def Obligations.ReadTransactionChangesNothing : Prop :=
  ∀ (s : State) (addr : Word) (rest : List HostInput), s.bus = .txn (.read addr) :: rest →
    ∃ r, step s = .next { s with bus := rest, responses := s.responses ++ [r] }

/-- R73: the complete list of BusError causes; a transaction answered so changes nothing, and every other
write is answered OK and every other read with a word. -/
def Obligations.BusErrorCauses : Prop :=
  ∀ (s : State) (addr v : Word),
    (((addr.toNat % 4 ≠ 0 ∨
        ¬(addr.toNat < 0x40 ∨ (0x400 ≤ addr.toNat ∧ addr.toNat < 0xC00) ∨
          (0x2000 ≤ addr.toNat ∧ addr.toNat < 0x3FF0) ∨ (0x4000 ≤ addr.toNat ∧ addr.toNat < 0x8000) ∨
          (0x10000 ≤ addr.toNat ∧ addr.toNat < 0x10000 + s.cfg.payCap))) →
      s.hostRead addr = .busError ∧ hostWrite addr v s = .next (s.respond .busError)) ∧
    (addr.toNat % 4 = 0 →
      (addr.toNat < 0x40 ∨ (0x400 ≤ addr.toNat ∧ addr.toNat < 0xC00) ∨
          (0x2000 ≤ addr.toNat ∧ addr.toNat < 0x3FF0) ∨ (0x4000 ≤ addr.toNat ∧ addr.toNat < 0x8000) ∨
          (0x10000 ≤ addr.toNat ∧ addr.toNat < 0x10000 + s.cfg.payCap)) →
      (∃ x, s.hostRead addr = .word x) ∧
      ((addr.toNat < 0x40 ∧ addr ∉ [0x04#32, 0x08, 0x18, 0x34]) ∨
          (0x800 ≤ addr.toNat ∧ addr.toNat < 0xC00) ∨ (0x2000 ≤ addr.toNat ∧ addr.toNat < 0x8000) ∨
          (addr = 0x34 ∧ 8 * s.cfg.payCap < v.toNat) →
        hostWrite addr v s = .next (s.respond .busError)) ∧
      (¬((addr.toNat < 0x40 ∧ addr ∉ [0x04#32, 0x08, 0x18, 0x34]) ∨
          (0x800 ≤ addr.toNat ∧ addr.toNat < 0xC00) ∨ (0x2000 ≤ addr.toNat ∧ addr.toNat < 0x8000) ∨
          (addr = 0x34 ∧ 8 * s.cfg.payCap < v.toNat)) →
        ∃ t, hostWrite addr v s = .next t ∧ t.responses = s.responses ++ [.ok])))

/-- R30, R31, R42: what the sixteen registers read as. -/
def Obligations.RegisterMapReads : Prop :=
  ∀ s : State,
    s.hostRead 0x00 = .word 0x48460100 ∧ s.hostRead 0x04 = .word 0 ∧ s.hostRead 0x08 = .word s.arg ∧
    s.hostRead 0x0C = .word s.data ∧ s.hostRead 0x10 = .word (s.result.setWidth 32) ∧
    s.hostRead 0x14 = .word s.status ∧ s.hostRead 0x18 = .word s.errs ∧
    s.hostRead 0x1C = .word (BitVec.ofNat 32 s.nsym) ∧
    s.hostRead 0x20 = .word (BitVec.ofNat 32 s.total) ∧
    s.hostRead 0x24 = .word (BitVec.ofNat 32 (s.total / 2 ^ 32 % 2 ^ 8)) ∧
    s.hostRead 0x28 = .word (s.nnode.setWidth 32) ∧ s.hostRead 0x2C = .word (s.root.setWidth 32) ∧
    s.hostRead 0x30 = .word (s.heapn.setWidth 32) ∧ s.hostRead 0x34 = .word s.bitcnt ∧
    s.hostRead 0x38 = .word s.rdpos ∧ s.hostRead 0x3C = .word (BitVec.ofNat 32 s.cfg.payCap)

/-- R29: each bit of STATUS, which reads at 0x14; bits 31:6 read 0; after reset it reads 0x18. -/
def Obligations.StatusBits : Prop :=
  (∀ s : State, s.hostRead 0x14 = .word s.status) ∧
  (∀ (s : State) (i : Nat),
    (s.status.getLsbD i = true ↔
      (i = 0 ∧ s.treeValid = true) ∨ (i = 1 ∧ s.codeValid = true) ∨ (i = 2 ∧ s.heapLive = true) ∨
      (i = 3 ∧ s.rdpos = s.bitcnt) ∨ (i = 4 ∧ ∀ sym, s.freqAt sym = 0) ∨ (i = 5 ∧ s.errs ≠ 0))) ∧
  State.reset.status = 0x00000018

/-- R35, R36, R114: NSYM and TOTAL are exact: TOTAL fits 40 bits and its two halves make it up. -/
def Obligations.NsymAndTotalAreExact : Prop :=
  ∀ s : State, s.hostRead 0x1C = .word (BitVec.ofNat 32 s.nsym) ∧
    s.nsym = (Finset.univ.filter (fun sym : Sym => s.freqAt sym ≠ 0)).card ∧ s.nsym ≤ 256 ∧
    s.total = ∑ sym : Sym, (s.freqAt sym).toNat ∧ s.total ≤ 2 ^ 40 - 256 ∧
    s.totalLo.toNat + 2 ^ 32 * s.totalHi.toNat = s.total

/-- R63: the FREQ window. A write of any word sets that count, 0 included, and changes no flag and nothing
else; a read gives the count. -/
def Obligations.FreqWindowReadsAndWrites : Prop :=
  ∀ (s : State) (sym : Sym) (v : Word),
    s.hostRead (0x400 + 4 * sym.setWidth 32) = .word (s.freqAt sym) ∧
    ∃ t, hostWrite (0x400 + 4 * sym.setWidth 32) v s = .next t ∧
      t = { s with freq := t.freq, responses := s.responses ++ [.ok] } ∧
      ∀ y, t.freqAt y = if y = sym then v else s.freqAt y

/-- R69, R66, R67 (PAY window), R71: four bytes a word, the lowest address in bits 7:0. A write stores exactly
those four bytes, and a read of the same word then gives the word written. -/
def Obligations.PayWindowIsLittleEndian : Prop :=
  ∀ (s : State) (addr v : Word) (a : Nat), s.cfg.legal = true →
    a % 4 = 0 → a < s.cfg.payCap → addr.toNat = 0x10000 + a →
    s.hostRead addr = .word
      (s.payByte (a + 3) ++ s.payByte (a + 2) ++ s.payByte (a + 1) ++ s.payByte a) ∧
    ∃ t, hostWrite addr v s = .next t ∧
      t = { s with pay := t.pay, responses := s.responses ++ [.ok] } ∧
      t.payByte a = v.extractLsb' 0 8 ∧ t.payByte (a + 1) = v.extractLsb' 8 8 ∧
      t.payByte (a + 2) = v.extractLsb' 16 8 ∧ t.payByte (a + 3) = v.extractLsb' 24 8 ∧
      (∀ b, b < a ∨ a + 4 ≤ b → t.payByte b = s.payByte b) ∧
      t.hostRead addr = .word v

/-- R64, R65, R68: the words of the HEAP, NODE and CODE windows, bit by bit. -/
def Obligations.WindowWordLayouts : Prop :=
  (∀ (s : State) (addr : Word) (i : Nat), i < 256 → addr.toNat = 0x800 + 4 * i →
    s.hostRead addr = .word ((s.heapAt i).setWidth 32)) ∧
  (∀ (s : State) (addr : Word) (h : Handle), h ≠ NIL → addr.toNat = 0x2000 + 16 * h.toNat →
    s.hostRead addr = .word ((s.nodeAt h).w.extractLsb' 0 32) ∧
    s.hostRead (addr + 4) = .word (0#24 ++ (s.nodeAt h).w.extractLsb' 32 8) ∧
    s.hostRead (addr + 8) = .word (0#7 ++ (s.nodeAt h).right ++ 0#7 ++ (s.nodeAt h).left) ∧
    s.hostRead (addr + 12) = .word (0#16 ++ (s.nodeAt h).sym ++ 0#6 ++
      BitVec.ofBool (decide (h.toNat < s.nnode.toNat)) ++ BitVec.ofBool (s.nodeAt h).leaf)) ∧
  (∀ (s : State) (addr : Word) (sym : Sym), addr.toNat = 0x4000 + 64 * sym.toNat →
    s.hostRead addr = .word (BitVec.ofBool (s.codeAt sym).valid ++ 0#23 ++ (s.codeAt sym).len) ∧
    (∀ k : Nat, 1 ≤ k → k < 8 → s.hostRead (addr + BitVec.ofNat 32 (4 * k)) = .word 0) ∧
    (∀ k : Nat, k < 8 → s.hostRead (addr + BitVec.ofNat 32 (0x20 + 4 * k)) =
      .word ((s.codeAt sym).bits.extractLsb' (32 * k) 32)))

/-- R34: ERRS is sticky. An error sets exactly its bit, no command but SRST clears a bit, a host write of `v`
clears exactly the bits that are 1 in `v`, SRST and hardware reset clear all, and the bits of no raisable
code stay 0. -/
def Obligations.ErrsIsSticky : Prop :=
  (∀ (w : Word) (s t : State), runWord w s = .next t → decode w ≠ .ok .srst →
    (∀ b, s.errs.getLsbD b = true → t.errs.getLsbD b = true) ∧
    (∀ b, t.errs.getLsbD b = true → s.errs.getLsbD b = true ∨ (b = t.result.toNat ∧ t.result ≠ 0)) ∧
    (t.result ≠ 0 → t.errs.getLsbD t.result.toNat = true)) ∧
  (∀ (s : State) (v : Word), ∃ t, hostWrite 0x18 v s = .next t ∧
    t = { s with errs := t.errs, responses := s.responses ++ [.ok] } ∧
    ∀ b, t.errs.getLsbD b = (s.errs.getLsbD b && !v.getLsbD b)) ∧
  (∀ s : State, ∃ t, exec .srst s = .next t ∧ t.errs = 0) ∧
  (∀ s : State, s.hardReset.errs = 0) ∧
  (∀ s t : State, step s = .next t → s.errs &&& 0xFFC0FFD3 = 0 → t.errs &&& 0xFFC0FFD3 = 0)

/-- R21, R40, R41, R67, R72 (host writes to ARG and BITCNT): a write to ARG stores the word and does nothing else;
a legal value written to BITCNT sets it and rewinds the unpacker; a greater one is a BusError and changes
nothing. -/
def Obligations.BitcntWriteRewinds : Prop :=
  ∀ (s : State) (v : Word),
    hostWrite 0x08 v s = .next { s with arg := v, responses := s.responses ++ [.ok] } ∧
    (v.toNat ≤ 8 * s.cfg.payCap → hostWrite 0x34 v s =
      .next { s with bitcnt := v, rdpos := 0, responses := s.responses ++ [.ok] }) ∧
    (8 * s.cfg.payCap < v.toNat → hostWrite 0x34 v s =
      .next { s with responses := s.responses ++ [.busError] })

/-- R33, R32: only a write to CMD changes RESULT (and hardware reset, which clears it); every CMD write is
answered OK whatever the command's result. -/
def Obligations.OnlyCommandsWriteResult : Prop :=
  ∀ (s t : State) (x : HostInput) (rest : List HostInput), s.bus = x :: rest → step s = .next t →
    ((∀ w, x ≠ .txn (.write 0x04 w)) → x ≠ .hardReset → t.result = s.result) ∧
    (∀ w, x = .txn (.write 0x04 w) → t.responses = s.responses ++ [.ok] ∧
      ∃ u, runWord w { s with bus := rest } = .next u ∧ t.result = u.result)

/-! ## Errors, success and sequencing -/

/-- R193: a command that raises an error changes RESULT and one bit of ERRS and nothing else, and the CMD
write that carried it is answered OK. -/
def Obligations.FailedCommandChangesOnlyResultAndErrs : Prop :=
  ∀ (w : Word) (s t : State), runWord w s = .next t → t.result ≠ 0 →
    t = { s with result := t.result, errs := s.errs ||| 1#32 <<< t.result.toNat } ∧
    hostWrite 0x04 w s = .next { t with responses := s.responses ++ [.ok] }

/-- R192: a command that succeeds leaves ERRS as it was (SRST apart, which clears it by R181), and no command
touches the parameter, the host's queue or the responses. -/
def Obligations.SuccessKeepsErrs : Prop :=
  ∀ (i : Instr) (s t : State), exec i s = .next t →
    (t.result = 0 → i ≠ .srst → t.errs = s.errs) ∧
    t.cfg = s.cfg ∧ t.bus = s.bus ∧ t.responses = s.responses ∧ t.resets = s.resets

/-- R191, R204: which codes each command can leave in RESULT. No command leaves 0x01 or 0x04. -/
def Obligations.ResultCodeTable : Prop :=
  ∀ (w : Word) (s t : State), runWord w s = .next t →
    (t.result = 0x10 ↔ ∀ i, decode w ≠ .ok i) ∧
    (∀ i, decode w = .ok i → t.result ∈ match i with
      | .nop | .fclr | .prst | .urst | .srst => [0x00#8]
      | .facc _ => [0x00, 0x12]
      | .tinit | .tbuild => [0x00, 0x02]
      | .tmerge | .tfin => [0x00, 0x11]
      | .cgen => [0x00, 0x11, 0x03]
      | .pput _ => [0x00, 0x14]
      | .psym _ => [0x00, 0x11, 0x13, 0x14]
      | .uget _ => [0x00, 0x15]
      | .usym => [0x00, 0x11, 0x15, 0x05])

/-- R195: the prerequisites, and the transitions of the three flags. -/
def Obligations.SequencingOfCommands : Prop :=
  (∀ (i : Instr) (s t : State), exec i s = .next t →
    (t.result = 0x11 ↔ match i with
      | .tmerge => ¬(s.heapLive = true ∧ 2 ≤ s.heapn.toNat)
      | .tfin => ¬(s.heapLive = true ∧ s.heapn.toNat = 1)
      | .cgen | .usym => s.treeValid = false
      | .psym _ => s.codeValid = false
      | .nop | .fclr | .facc _ | .tinit | .tbuild | .prst | .pput _ | .urst | .uget _ | .srst => False)) ∧
  (∀ (i : Instr) (s t : State), exec i s = .next t → t.result = 0 →
    match i with
    | .srst => (t.treeValid, t.codeValid, t.heapLive) = (false, false, false)
    | .tinit => (t.treeValid, t.codeValid, t.heapLive) = (false, false, true)
    | .tfin => (t.treeValid, t.codeValid, t.heapLive) = (true, s.codeValid, false)
    | .tbuild => (t.treeValid, t.codeValid, t.heapLive) = (true, false, false)
    | .cgen => (t.treeValid, t.codeValid, t.heapLive) = (true, true, s.heapLive)
    | .nop | .fclr | .facc _ | .tmerge | .prst | .pput _ | .psym _ | .urst | .uget _ | .usym =>
      (t.treeValid, t.codeValid, t.heapLive) = (s.treeValid, s.codeValid, s.heapLive)) ∧
  (∀ s : State, (s.hardReset.treeValid, s.hardReset.codeValid, s.hardReset.heapLive) = (false, false, false)) ∧
  (∀ s t : State, step s = .next t →
    (s.treeValid, s.codeValid, s.heapLive) ∈
      [(false, false, false), (false, false, true), (true, false, false), (true, true, false)] →
    (t.treeValid, t.codeValid, t.heapLive) ∈
      [(false, false, false), (false, false, true), (true, false, false), (true, true, false)])

/-- R206, R152, R167, R141: the order in which the conditions of PSYM, USYM and CGEN are tested. -/
def Obligations.ErrorPriority : Prop :=
  (∀ (s : State) (sym : Sym),
    (s.codeValid = false → exec (.psym sym) s = .next (raised s 0x11)) ∧
    (s.codeValid = true → (s.codeAt sym).valid = false → exec (.psym sym) s = .next (raised s 0x13)) ∧
    (s.codeValid = true → (s.codeAt sym).valid = true →
      8 * s.cfg.payCap < s.bitcnt.toNat + (s.codeAt sym).len.toNat →
      exec (.psym sym) s = .next (raised s 0x14))) ∧
  (∀ s : State,
    (s.treeValid = false → exec .usym s = .next (raised s 0x11)) ∧
    (s.treeValid = true → s.rdpos = s.bitcnt → exec .usym s = .next (raised s 0x15))) ∧
  (∀ s : State,
    (s.treeValid = false → exec .cgen s = .next (raised s 0x11)) ∧
    (s.treeValid = true → (s.nodeAt s.root).leaf = true → exec .cgen s = .next (raised s 0x03)))

/-! ## System and reset -/

/-- R180, R150, R165: NOP, PRST and URST: their words; they complete in every state, and write only what the
rule names. -/
def Obligations.NopAndRewindsComplete : Prop :=
  decode 0x00000000 = .ok .nop ∧ decode 0x40000000 = .ok .prst ∧ decode 0x50000000 = .ok .urst ∧
  ∀ s : State,
    exec .nop s = .next { s with result := 0 } ∧
    exec .prst s = .next { s with bitcnt := 0, rdpos := 0, result := 0 } ∧
    exec .urst s = .next { s with rdpos := 0, result := 0 }

/-- R181: SRST completes in every state: every element at its reset value (R50), every byte of PAY and the
parameter kept. -/
def Obligations.SoftResetKeepsOnlyPay : Prop :=
  decode 0xFF000000 = .ok .srst ∧ ∀ s : State, ∃ t, exec .srst s = .next t ∧
    t = { State.reset with
      cfg := s.cfg, pay := s.pay, resets := s.resets, bus := s.bus, responses := s.responses } ∧
    (∀ a, t.payByte a = s.payByte a) ∧
    (∀ sym, t.freqAt sym = 0 ∧ (t.codeAt sym).valid = false ∧ (t.codeAt sym).len = 0 ∧ (t.codeAt sym).bits = 0) ∧
    (∀ h, (t.nodeAt h).leaf = false ∧ (t.nodeAt h).w = 0 ∧ (t.nodeAt h).left = NIL ∧ (t.nodeAt h).right = NIL) ∧
    (∀ i, t.heapAt i = NIL) ∧ t.errs = 0 ∧ t.result = 0 ∧ t.status = 0x18 ∧ t.root = 0x1FF

/-- R220, R223, R50: the hardware reset input, whenever the host uses it, gives the state of R50 with every byte
of PAY a fresh unspecified value. That reset is one input of the host is the model's form, log entry 5; the
counter of draws is log entry 2. -/
def Obligations.HardwareResetGivesTheResetState : Prop :=
  ∀ (s : State) (rest : List HostInput), s.bus = .hardReset :: rest →
    ∃ t, step s = .next t ∧
      t = { State.reset with cfg := s.cfg, resets := s.resets + 1, bus := rest, responses := s.responses } ∧
      (∀ a, t.payByte a = Config.resetPayByte (s.resets + 1) a) ∧ t.status = 0x18

/-- R50: the values after reset, and SRST gives them too, PAY apart. That a byte of PAY is a free value of the
number of resets and the address, for every number, is the model's form of "unspecified", log entry 2; that
PAY_CAP is a field of State is log entry 1. -/
def Obligations.ResetValues : Prop :=
  let s := State.reset
  s.arg = 0 ∧ s.data = 0 ∧ s.result = 0 ∧ s.errs = 0 ∧ s.treeValid = false ∧ s.codeValid = false ∧
  s.heapLive = false ∧ s.root = 0x1FF ∧ s.nnode = 0 ∧ s.heapn = 0 ∧ s.bitcnt = 0 ∧ s.rdpos = 0 ∧
  (∀ sym, s.freqAt sym = 0) ∧ (∀ h, s.nodeAt h = ⟨false, 0, 0, NIL, NIL⟩) ∧ (∀ i, s.heapAt i = 0x1FF) ∧
  (∀ sym, s.codeAt sym = ⟨false, 0, 0⟩) ∧
  (∀ k a, { s with resets := k }.payByte a = Config.resetPayByte k a) ∧
  s.hostRead 0x00 = .word 0x48460100 ∧ s.hostRead 0x3C = .word (BitVec.ofNat 32 s.cfg.payCap) ∧
  s.nsym = 0 ∧ s.total = 0 ∧ s.status = 0x00000018 ∧
  ∀ u : State, exec .srst u = .next { s with
    cfg := u.cfg, pay := u.pay, resets := u.resets, bus := u.bus, responses := u.responses }

/-! ## Frequency accumulator -/

/-- R110: FCLR completes in every state, clears every count and nothing else. -/
def Obligations.FclrClearsEveryCount : Prop :=
  decode 0x10000000 = .ok .fclr ∧ ∀ s : State, ∃ t, exec .fclr s = .next t ∧ t = { s with freq := t.freq, result := 0 } ∧
    (∀ sym, t.freqAt sym = 0) ∧ t.nsym = 0 ∧ t.total = 0 ∧ t.freqEmpty = true

/-- R111: FACC adds one to the count of its symbol and to TOTAL, and to NSYM when the count was 0; at
2^32 - 1 it raises CountOverflow (0x12). -/
def Obligations.FaccCountsOneOccurrence : Prop :=
  ∀ (s : State) (sym : Sym), decode (0x11000000 ||| sym.setWidth 32) = .ok (.facc sym) ∧
    (s.freqAt sym ≠ 0xFFFFFFFF → ∃ t, exec (.facc sym) s = .next t ∧
      t = { s with freq := t.freq, result := 0 } ∧
      (∀ y, (t.freqAt y).toNat = (s.freqAt y).toNat + if y = sym then 1 else 0) ∧
      t.total = s.total + 1 ∧ t.nsym = s.nsym + (if s.freqAt sym = 0 then 1 else 0) ∧
      t.freqEmpty = false) ∧
    (s.freqAt sym = 0xFFFFFFFF → exec (.facc sym) s = .next (raised s 0x12))

/-- R113: counting a sequence of symbols from a cleared table: when every FACC succeeds, each count is the
number of occurrences, TOTAL the length, NSYM the number of distinct symbols, in whatever order the symbols
come; and below 2^32 symbols every FACC succeeds. -/
def Obligations.FaccSequenceCountsSymbols : Prop :=
  ∀ (s : State) (xs : List Sym), (∀ y, s.freqAt y = 0) →
    (∀ t, runOk (xs.map .facc) s = some t →
      (∀ y, (t.freqAt y).toNat = xs.count y) ∧ t.total = xs.length ∧ t.nsym = xs.dedup.length ∧
      (t.freqEmpty = true ↔ xs.length = 0) ∧
      ∀ ys, xs.Perm ys → ∃ u, runOk (ys.map .facc) s = some u ∧ u.freq = t.freq) ∧
    (xs.length < 2 ^ 32 → ∃ t, runOk (xs.map .facc) s = some t)

/-! ## Tree builder -/

/-- R121, R120: `less` is the lexicographic order of the keys (weight, handle), a strict total order. -/
def Obligations.LessIsTheKeyOrder : Prop :=
  ∀ (t : Vector Node 511) (a b c : Handle),
    (less t a b = true ↔
      (nodeAt t a).w.toNat < (nodeAt t b).w.toNat ∨
        ((nodeAt t a).w = (nodeAt t b).w ∧ a.toNat < b.toNat)) ∧
    less t a a = false ∧ (less t a b = true → less t b c = true → less t a c = true) ∧
    (a ≠ b → (less t a b = true ∨ less t b a = true))

/-- R122, R131: `heap_insert` keeps the heap invariant and adds exactly the one handle. -/
def Obligations.HeapInsertKeepsOrder : Prop :=
  ∀ (s : State) (h : Handle), HeapOrder s → s.heapn.toNat < 256 →
    HeapOrder (s.heapInsert h) ∧
    s.heapInsert h = { s with heap := (s.heapInsert h).heap, heapn := s.heapn + 1 } ∧
    ((List.range (s.heapn.toNat + 1)).map (s.heapInsert h).heapAt).Perm
      (h :: (List.range s.heapn.toNat).map s.heapAt) ∧
    ∀ i, s.heapn.toNat < i → (s.heapInsert h).heapAt i = s.heapAt i

/-- R123, R131: `heap_extract_min` keeps the heap invariant, returns the handle with the least key, removes
exactly it, and leaves NIL in the vacated position. -/
def Obligations.ExtractMinReturnsTheLeast : Prop :=
  ∀ s : State, HeapOrder s → 1 ≤ s.heapn.toNat → s.heapn.toNat ≤ 256 →
    HeapOrder s.heapExtractMin.2 ∧
    s.heapExtractMin.2 = { s with heap := s.heapExtractMin.2.heap, heapn := s.heapn - 1 } ∧
    (∀ i, i < s.heapn.toNat → less s.node (s.heapAt i) s.heapExtractMin.1 = false) ∧
    ((List.range s.heapn.toNat).map s.heapAt).Perm
      (s.heapExtractMin.1 :: (List.range (s.heapn.toNat - 1)).map s.heapExtractMin.2.heapAt) ∧
    s.heapExtractMin.2.heapAt (s.heapn.toNat - 1) = NIL ∧
    ∀ i, s.heapn.toNat ≤ i → s.heapExtractMin.2.heapAt i = s.heapAt i

/-- R124: TINIT completes whenever some count is not 0: one leaf per present symbol, in ascending symbol order,
every leaf in the heap, everything else empty. -/
def Obligations.TinitMakesOneLeafPerSymbol : Prop :=
  ∀ s : State, (∃ sym, s.freqAt sym ≠ 0) → ∃ t, exec .tinit s = .next t ∧
    t = { s with
      node := t.node, heap := t.heap, nnode := BitVec.ofNat 9 s.nsym, heapn := BitVec.ofNat 9 s.nsym,
      root := 0x1FF, treeValid := false, codeValid := false, heapLive := true, result := 0 } ∧
    (∀ h : Handle, t.nodeAt h =
      match (allSymbols.filter (fun y => s.freqAt y != 0))[h.toNat]? with
      | some sym => ⟨true, sym, (s.freqAt sym).setWidth 40, NIL, NIL⟩
      | none => Node.empty) ∧
    (∀ h, InHeap t h ↔ h.toNat < s.nsym) ∧ (∀ i, s.nsym ≤ i → t.heapAt i = NIL) ∧ HeapOrder t

/-- R196, R124, R128: on an empty table TINIT and TBUILD raise InvalidInputError (0x02) and change nothing
else. -/
def Obligations.EmptyTableIsInvalidInput : Prop :=
  ∀ s : State, (∀ sym, s.freqAt sym = 0) →
    exec .tinit s = .next (raised s 0x02) ∧ exec .tbuild s = .next (raised s 0x02)

/-- R125: TMERGE completes whenever a build is in progress and two handles are left: NNODE up by one, HEAPN
down by one. In a state that keeps the invariants it takes the two least handles out of the heap, makes
their parent, the lesser one on the left, its weight their sum, and puts the parent in the heap. -/
def Obligations.TmergeJoinsTheTwoLeast : Prop :=
  ∀ s : State, s.heapLive = true → 2 ≤ s.heapn.toNat → ∃ t, exec .tmerge s = .next t ∧
    t = { s with
      node := t.node, heap := t.heap, nnode := s.nnode + 1, heapn := s.heapn - 1, result := 0 } ∧
    (BuildInv s → WeightInv s → ∃ a b, InHeap s a ∧ InHeap s b ∧ less s.node a b = true ∧
      (∀ c, InHeap s c → c ≠ a → c ≠ b → less s.node b c = true) ∧
      t.nodeAt s.nnode = ⟨false, 0, BitVec.ofNat 40 (s.weight a + s.weight b), a, b⟩ ∧
      s.weight a + s.weight b < 2 ^ 40 ∧
      (∀ h, h ≠ s.nnode → t.nodeAt h = s.nodeAt h) ∧
      ∀ c, InHeap t c ↔ c = s.nnode ∨ (InHeap s c ∧ c ≠ a ∧ c ≠ b))

/-- R126, R127: TFIN completes when one handle is left: it becomes the root; a lone leaf first gets a wrapper,
with the leaf on the left, NIL on the right and the leaf's weight. -/
def Obligations.TfinMakesTheRoot : Prop :=
  ∀ s : State, s.heapLive = true → s.heapn = 1 → ∃ t, exec .tfin s = .next t ∧
    (∀ i, t.heapAt i = if i = 0 then NIL else s.heapAt i) ∧
    ((s.nodeAt (s.heapAt 0)).leaf = false →
      t = { s with
        heap := t.heap, heapn := 0, root := s.heapAt 0, treeValid := true, heapLive := false, result := 0 }) ∧
    ((s.nodeAt (s.heapAt 0)).leaf = true →
      t = { s with
        heap := t.heap, heapn := 0, node := t.node, nnode := s.nnode + 1, root := s.nnode, treeValid := true,
        heapLive := false, result := 0 } ∧
      (s.nnode ≠ NIL → t.nodeAt s.nnode = ⟨false, 0, (s.nodeAt (s.heapAt 0)).w, s.heapAt 0, NIL⟩) ∧
      ∀ h, h ≠ s.nnode → t.nodeAt h = s.nodeAt h)

/-- R128: TBUILD leaves exactly the state of TINIT, TMERGE while HEAPN > 1, TFIN, all of which succeed: one
merge fewer than there are symbols. -/
def Obligations.TbuildEqualsTheStepwiseBuild : Prop :=
  ∀ s : State, (∃ sym, s.freqAt sym ≠ 0) → ∃ t,
    exec .tbuild s = .next t ∧ t.result = 0 ∧
    runOk ([.tinit] ++ List.replicate (s.nsym - 1) .tmerge ++ [.tfin]) s = some t

/-- R128 (corner cases), R132, R130: the size and the weight of the finished tree, and what TBUILD leaves
unchanged. -/
def Obligations.TbuildShape : Prop :=
  ∀ s : State, (∃ sym, s.freqAt sym ≠ 0) → ∃ t, exec .tbuild s = .next t ∧
    t = { s with
      node := t.node, heap := Vector.replicate 256 NIL, nnode := t.nnode, heapn := 0, root := t.root,
      treeValid := true, codeValid := false, heapLive := false, result := 0 } ∧
    (2 ≤ s.nsym → t.nnode.toNat = 2 * s.nsym - 1 ∧ t.root.toNat = 2 * s.nsym - 2) ∧
    (s.nsym = 1 → t.nnode = 2 ∧ t.root = 1) ∧
    t.weight t.root = s.total

/-- R129: the tree is a function of the 256 FREQ words and of nothing else. -/
def Obligations.TreeDependsOnFrequenciesOnly : Prop :=
  ∀ s t s' t' : State, (∀ sym, s.freqAt sym = t.freqAt sym) → (∃ sym, s.freqAt sym ≠ 0) →
    exec .tbuild s = .next s' → exec .tbuild t = .next t' →
    s'.node = t'.node ∧ s'.nnode = t'.nnode ∧ s'.root = t'.root

/-! ## Code table -/

/-- R141, R140, R142: CGEN completes whenever there is a finished tree: it writes CODE and CODE_VALID only, and
in a state that keeps the invariants CODE is then the code table of the tree. -/
def Obligations.CgenFillsTheCodeTable : Prop :=
  ∀ s : State, s.treeValid = true → (s.nodeAt s.root).leaf = false → ∃ t, exec .cgen s = .next t ∧
    t = { s with code := t.code, codeValid := true, result := 0 } ∧
    (BuildInv s → CodeMatches t ∧ CodeForm t)

/-- R143 items 2, 3 and 4: after CGEN every code is 1 to 255 bits long and no code is a prefix of another. -/
def Obligations.CodesArePrefixFree : Prop :=
  ∀ s t : State, BuildInv s → exec .cgen s = .next t → t.result = 0 →
    ∀ x y, (t.codeAt x).valid = true → (t.codeAt y).valid = true →
      1 ≤ (t.codeAt x).seq.length ∧ (t.codeAt x).seq.length ≤ 255 ∧
      ((t.codeAt x).seq <+: (t.codeAt y).seq → x = y)

/-- R143 item 1: after TBUILD and CGEN exactly the symbols with a count have a code. -/
def Obligations.PresentSymbolsGetCodes : Prop :=
  ∀ s t : State, runOk [.tbuild, .cgen] s = some t →
    ∀ sym, (t.codeAt sym).valid = true ↔ s.freqAt sym ≠ 0

/-- R197, R141: InvalidTreeError is never raised from a state that keeps the invariants. -/
def Obligations.InvalidTreeErrorIsDead : Prop :=
  ∀ s t : State, BuildInv s → exec .cgen s = .next t → t.result ≠ 0x03

/-! ## Packer -/

/-- R76: `putbit` writes one byte, by the rule's formula, and BITCNT; every other byte is unchanged. -/
def Obligations.PutbitWritesOneByte : Prop :=
  ∀ (s : State) (b : Bool), s.bitcnt.toNat < 2 ^ 31 →
    (s.putbit b).bitcnt.toNat = s.bitcnt.toNat + 1 ∧
    s.putbit b = { s with pay := (s.putbit b).pay, bitcnt := s.bitcnt + 1 } ∧
    (s.putbit b).payByte (s.bitcnt.toNat / 8) =
      (s.payByte (s.bitcnt.toNat / 8) &&&
        BitVec.ofNat 8 (0xFF00 / 2 ^ (s.bitcnt.toNat % 8) % 256)) |||
      BitVec.ofNat 8 (b.toNat * 2 ^ (7 - s.bitcnt.toNat % 8)) ∧
    ∀ a, a ≠ s.bitcnt.toNat / 8 → (s.putbit b).payByte a = s.payByte a

/-- R151, R153, R48 item 10: PPUT raises PayloadOverflow (0x14) when its bits do not fit, and completes when they
do: it appends ARG[n-1:0], bit n-1 first; the bits
already packed stay, the last byte is padded with zeros, and every byte outside those the bits fall in is
unchanged. -/
def Obligations.PputAppendsArgBits : Prop :=
  ∀ (s : State) (n : Nat), s.cfg.legal = true → 1 ≤ n → n ≤ 32 →
    decode (0x41000000 ||| BitVec.ofNat 32 (n - 1) <<< 8) = .ok (.pput n) ∧
    (8 * s.cfg.payCap < s.bitcnt.toNat + n → exec (.pput n) s = .next (raised s 0x14)) ∧
    (s.bitcnt.toNat + n ≤ 8 * s.cfg.payCap → ∃ t, exec (.pput n) s = .next t ∧
      t = { s with pay := t.pay, bitcnt := t.bitcnt, result := 0 } ∧
      t.bitcnt.toNat = s.bitcnt.toNat + n ∧ (s.rdpos.toNat ≤ s.bitcnt.toNat → t.eos = false) ∧
      (∀ j, j < n → t.getbit (s.bitcnt.toNat + j) = s.arg.getLsbD (n - 1 - j)) ∧
      (∀ p, p < s.bitcnt.toNat → t.getbit p = s.getbit p) ∧
      (∀ p, t.bitcnt.toNat ≤ p → p < 8 * ((t.bitcnt.toNat + 7) / 8) → t.getbit p = false) ∧
      ∀ a, a < s.bitcnt.toNat / 8 ∨ (t.bitcnt.toNat + 7) / 8 ≤ a → t.payByte a = s.payByte a)

/-- R152, R153, R48 item 10: PSYM completes when there is a valid code that fits: it appends the code, first bit
first; the bits already packed stay, the last byte is padded with zeros, and every byte outside those the
bits fall in is unchanged. -/
def Obligations.PsymAppendsTheCode : Prop :=
  ∀ (s : State) (sym : Sym), s.cfg.legal = true → s.codeValid = true → (s.codeAt sym).valid = true →
    1 ≤ s.codeLen sym → s.bitcnt.toNat + s.codeLen sym ≤ 8 * s.cfg.payCap →
    ∃ t, exec (.psym sym) s = .next t ∧
      t = { s with pay := t.pay, bitcnt := t.bitcnt, result := 0 } ∧
      t.bitcnt.toNat = s.bitcnt.toNat + s.codeLen sym ∧
      t.payloadBits s.bitcnt.toNat (s.codeLen sym) = (s.codeAt sym).seq ∧
      (∀ p, p < s.bitcnt.toNat → t.getbit p = s.getbit p) ∧
      (∀ p, t.bitcnt.toNat ≤ p → p < 8 * ((t.bitcnt.toNat + 7) / 8) → t.getbit p = false) ∧
      ∀ a, a < s.bitcnt.toNat / 8 ∨ (t.bitcnt.toNat + 7) / 8 ≤ a → t.payByte a = s.payByte a

/-- R153, R48 item 10: in a run of any transactions but host writes to PAY or BITCNT and new starts (ARG may be
written, commands may fail), the bits that the successful pack commands append, in order, make up the payload from
where BITCNT stood (0 after PRST, the case of R153): BITCNT grows by their number, the bits before them stay, the
last byte is padded with zeros, and the bytes outside keep what they held. Pack commands alone change only PAY,
BITCNT and RESULT. -/
def Obligations.PackingConcatenatesInOrder : Prop :=
  (∀ (s : State) (xs : List Transaction), s.cfg.legal = true →
    (∀ x ∈ xs, disturbsPayload s.cfg.payCap x = false) →
    let bits := (session xs s).1
    let t := (session xs s).2
    t.bitcnt.toNat = s.bitcnt.toNat + bits.length ∧
    t.payloadBits s.bitcnt.toNat bits.length = bits ∧
    (∀ p, p < s.bitcnt.toNat → t.getbit p = s.getbit p) ∧
    (bits ≠ [] → ∀ p, t.bitcnt.toNat ≤ p → p < 8 * ((t.bitcnt.toNat + 7) / 8) → t.getbit p = false) ∧
    (∀ a, a < s.bitcnt.toNat / 8 ∨ (t.bitcnt.toNat + 7) / 8 ≤ a → t.payByte a = s.payByte a)) ∧
  (∀ (s t : State) (is : List Instr), (∀ i ∈ is, isPack i = true) → runOk is s = some t →
    t = { s with pay := t.pay, bitcnt := t.bitcnt, result := t.result })

/-! ## Unpacker -/

/-- R166, R75: UGET raises EndOfStream (0x15) when fewer than n significant bits are left, and completes when
they are: the first bit read lands in DATA[n-1], the bits of DATA above it are 0, RDPOS moves past them, and
nothing else changes. -/
def Obligations.UgetReadsTheNextBits : Prop :=
  ∀ (s : State) (n : Nat), 1 ≤ n → n ≤ 32 →
    decode (0x51000000 ||| BitVec.ofNat 32 (n - 1) <<< 8) = .ok (.uget n) ∧
    (s.bitcnt.toNat < s.rdpos.toNat + n → exec (.uget n) s = .next (raised s 0x15)) ∧
    (s.rdpos.toNat + n ≤ s.bitcnt.toNat →
      ∃ t, exec (.uget n) s = .next t ∧ t = { s with data := t.data, rdpos := t.rdpos, result := 0 } ∧
        t.rdpos.toNat = s.rdpos.toNat + n ∧
        (∀ j, j < n → t.data.getLsbD (n - 1 - j) = s.getbit (s.rdpos.toNat + j)) ∧
        (∀ i, n ≤ i → t.data.getLsbD i = false) ∧
        (t.eos = true ↔ s.rdpos.toNat + n = s.bitcnt.toNat))

/-- R167, R168: USYM completes when the next payload bits spell the code of a symbol: DATA is the symbol, RDPOS
moves past the code, and nothing else changes. -/
def Obligations.UsymDecodesOneSymbol : Prop :=
  ∀ (s : State) (sym : Sym) (bs : List Bool), s.treeValid = true → IsCode s sym bs → bs ≠ [] →
    s.rdpos.toNat + bs.length ≤ s.bitcnt.toNat →
    s.payloadBits s.rdpos.toNat bs.length = bs →
    exec .usym s = .next
      { s with
        data := sym.setWidth 32, rdpos := s.rdpos + BitVec.ofNat 32 bs.length, result := 0 }

/-- R198, R167: where the significant bits left over begin with no code (they run out inside a code, or a 1 is met
at a wrapper), USYM raises DecodeError (0x05), and RDPOS and DATA stay. ROOT is an internal node by R38. The
statement also covers RDPOS above BITCNT, which no run reaches (R41): that USYM then raises DecodeError is the
model's choice, log entry 3. -/
def Obligations.UsymRaisesDecodeError : Prop :=
  ∀ s : State, s.treeValid = true → (s.nodeAt s.root).leaf = false → s.rdpos ≠ s.bitcnt →
    (∀ sym bs, IsCode s sym bs → bs ≠ [] → s.rdpos.toNat + bs.length ≤ s.bitcnt.toNat →
      s.payloadBits s.rdpos.toNat bs.length ≠ bs) →
    exec .usym s = .next (raised s 0x05)

/-- R169 (a): after a packing run as in R153, from an empty payload, and URST, the commands UGET n_1, UGET n_2, ...
whose counts sum to at most the number of bits packed all succeed and return those bits in order, n_j at a time;
and a UGET n right behind a PPUT n, wherever the payload stands, returns the n bits of ARG. -/
def Obligations.UnpackInvertsPack : Prop :=
  (∀ (s : State) (xs : List Transaction) (ns : List Nat), s.cfg.legal = true → s.bitcnt = 0 →
    (∀ x ∈ xs, disturbsPayload s.cfg.payCap x = false) → (∀ n ∈ ns, 1 ≤ n ∧ n ≤ 32) →
    ns.sum ≤ (session xs s).1.length →
    ∃ u v, exec .urst (session xs s).2 = .next u ∧
      readBits ns u = some ((session xs s).1.take ns.sum, v) ∧
      v.rdpos.toNat = ns.sum ∧ (v.eos = true ↔ ns.sum = (session xs s).1.length)) ∧
  (∀ (s t : State) (n : Nat), s.cfg.legal = true → 1 ≤ n → n ≤ 32 → s.rdpos = s.bitcnt →
    runOk [.pput n, .uget n] s = some t →
    t.data.toNat = s.arg.toNat % 2 ^ n ∧ t.rdpos = t.bitcnt)

/-- R169 (b): the symbols packed one after another by PSYM come back from USYM, in order, and then EOS = 1. -/
def Obligations.SymbolRoundTrip : Prop :=
  ∀ (s t : State) (xs : List Sym), BuildInv s → CodeInv s → s.rdpos = s.bitcnt →
    runOk (xs.map .psym) s = some t →
    ∃ u, decodeSymbols xs.length t = some (xs, u) ∧ u.eos = true

/-! ## Invariants -/

/-- R48: the invariants hold in the state after reset. -/
def Obligations.InvariantsHoldAtReset : Prop :=
  BuildInv State.reset ∧ WeightInv State.reset ∧ CodeInv State.reset

/-- R48 item 1, R34, R191, R47: every step keeps the positions in range, the reserved bits of ERRS at 0, RESULT
a code of the table, and PAY in its canonical form (log entry 2) and inside its capacity. -/
def Obligations.StepKeepsRegisterInvariant : Prop :=
  ∀ s t : State, RegInv s → step s = .next t → RegInv t

/-- R48 items 4 and 6, R195, R38, R39: every step keeps the invariant of the flags, ROOT and HEAPN. -/
def Obligations.StepKeepsFlagInvariant : Prop :=
  ∀ s t : State, FlagInv s → step s = .next t → FlagInv t

/-- R48 items 2, 3, 5, 8, 9, R44, R45, R131: every step keeps the arena a forest whose parentless nodes are the
handles in the heap or the root, and the heap in its order. -/
def Obligations.StepKeepsForestAndHeap : Prop :=
  ∀ s t : State, BuildInv s → step s = .next t → ArenaInv t ∧ HeapOrder t

/-- R130, R132, R44: every step keeps the weights exact: no weight addition wraps. -/
def Obligations.StepKeepsWeights : Prop :=
  ∀ s t : State, BuildInv s → WeightInv s → step s = .next t → WeightInv t

/-- R48 items 7 and 8, R26, R46: every step keeps CODE the code table of the tree while CODE_VALID = 1. -/
def Obligations.StepKeepsCodeTable : Prop :=
  ∀ s t : State, BuildInv s → CodeInv s → step s = .next t → CodeInv t
end

