-- ==== Sys2Proof/Laws/Memory.lean ====
section
/-! SUPPORT. The bytes of PAY: read after write, and every operation on the list of written bytes keeps its
canonical form (addresses strictly rising). -/

namespace Sys2Proof.Machine

theorem lookup_write (m : List Host.Cell) (a b : Nat) (v : Byte) :
    Memory.lookup (Memory.write m a v) b = if b = a then some v else Memory.lookup m b := by
  induction m with
  | nil => simp [Memory.write, Memory.lookup]
  | cons c m ih =>
    obtain ⟨k, w⟩ := c
    unfold Memory.write
    split
    · simp [Memory.lookup]
    · split
      · next h => subst h; simp only [Memory.lookup]; split <;> simp_all
      · next h1 h2 =>
        simp only [Memory.lookup, ih]
        by_cases hb : b = k
        · subst hb; simp [Ne.symm h2]
        · simp [hb]

theorem mem_write {m : List Host.Cell} {a : Nat} {v : Byte} {c : Host.Cell}
    (h : c ∈ Memory.write m a v) : c = (a, v) ∨ c ∈ m := by
  induction m with
  | nil => simpa [Memory.write] using h
  | cons d m ih =>
    obtain ⟨k, w⟩ := d
    unfold Memory.write at h
    split at h
    · simpa using h
    · split at h
      · rcases List.mem_cons.mp h with h | h
        · exact .inl h
        · exact .inr (List.mem_cons_of_mem _ h)
      · rcases List.mem_cons.mp h with h | h
        · exact .inr (by simp [h])
        · rcases ih h with h | h
          · exact .inl h
          · exact .inr (List.mem_cons_of_mem _ h)

/-- A write keeps the canonical form. -/
theorem wf_write {m : List Host.Cell} (a : Nat) (v : Byte) (h : Memory.wf m) : Memory.wf (Memory.write m a v) := by
  induction m with
  | nil => simp [Memory.write, Memory.wf]
  | cons d m ih =>
    obtain ⟨k, w⟩ := d
    unfold Memory.wf at h
    rw [List.pairwise_cons] at h
    unfold Memory.write
    split
    · next hlt =>
      refine List.pairwise_cons.mpr ⟨?_, List.pairwise_cons.mpr h⟩
      intro c hc
      rcases List.mem_cons.mp hc with hc | hc
      · simpa [hc] using hlt
      · exact lt_trans hlt (h.1 c hc)
    · split
      · next heq => subst heq; exact List.pairwise_cons.mpr h
      · next h1 h2 =>
        refine List.pairwise_cons.mpr ⟨?_, ih h.2⟩
        intro c hc
        rcases mem_write hc with hc | hc
        · subst hc; simp; omega
        · exact h.1 c hc

theorem wf_nil : Memory.wf [] := List.Pairwise.nil

/-- Read after write (R74). -/
@[simp] theorem payByte_setPayByte (s : State) (a b : Nat) (v : Byte) :
    (s.setPayByte a v).payByte b = if b = a then v else s.payByte b := by
  unfold State.payByte State.setPayByte
  simp only [lookup_write]
  split <;> simp [State.unwrittenByte]

theorem setPayByte_wf (s : State) (a : Nat) (v : Byte) (h : Memory.wf s.pay) :
    Memory.wf (s.setPayByte a v).pay := wf_write a v h

/-- Only the addresses written are new in the list. -/
theorem mem_setPayByte {s : State} {a : Nat} {v : Byte} {c : Host.Cell}
    (h : c ∈ (s.setPayByte a v).pay) : c.1 = a ∨ c ∈ s.pay := by
  rcases mem_write h with h | h
  · exact .inl (by simp [h])
  · exact .inr h

theorem writePay_wf (s : State) (a : Nat) (v : Word) (h : Memory.wf s.pay) : Memory.wf (s.writePay a v).pay := by
  unfold State.writePay
  exact setPayByte_wf _ _ _ (setPayByte_wf _ _ _ (setPayByte_wf _ _ _ (setPayByte_wf _ _ _ h)))

theorem putbit_wf (s : State) (b : Bool) (h : Memory.wf s.pay) : Memory.wf (s.putbit b).pay :=
  setPayByte_wf s _ _ h

theorem putBits_wf (f : Nat → Bool) (n : Nat) (s : State) (h : Memory.wf s.pay) :
    Memory.wf (s.putBits f n).pay := by
  induction n generalizing s with
  | zero => exact h
  | succ n ih => exact ih _ (putbit_wf s _ h)

/-- What a bus write to the PAY window stores (R67, R69). -/
theorem payByte_writePay (s : State) (a b : Nat) (v : Word) :
    (s.writePay a v).payByte b =
      if b = a + 3 then v.extractLsb' 24 8
      else if b = a + 2 then v.extractLsb' 16 8
      else if b = a + 1 then v.extractLsb' 8 8
      else if b = a then v.extractLsb' 0 8
      else s.payByte b := by
  simp [State.writePay]

end Sys2Proof.Machine
end

