-- ==== Sys2Proof/Laws/State.lean ====
section
/-! SUPPORT. One lemma per field per update of the state, true by unfolding one record update, so that no
later proof unfolds it. Where an update computes a field by an operation of its own, that operation's lemma
is in the other files of Laws. -/

namespace Sys2Proof.Machine

variable (s : State)

/-! ### `done` -/

@[simp] theorem done_cfg : s.done.cfg = s.cfg := rfl
@[simp] theorem done_arg : s.done.arg = s.arg := rfl
@[simp] theorem done_data : s.done.data = s.data := rfl
@[simp] theorem done_result : s.done.result = 0 := rfl
@[simp] theorem done_errs : s.done.errs = s.errs := rfl
@[simp] theorem done_treeValid : s.done.treeValid = s.treeValid := rfl
@[simp] theorem done_codeValid : s.done.codeValid = s.codeValid := rfl
@[simp] theorem done_heapLive : s.done.heapLive = s.heapLive := rfl
@[simp] theorem done_root : s.done.root = s.root := rfl
@[simp] theorem done_nnode : s.done.nnode = s.nnode := rfl
@[simp] theorem done_heapn : s.done.heapn = s.heapn := rfl
@[simp] theorem done_bitcnt : s.done.bitcnt = s.bitcnt := rfl
@[simp] theorem done_rdpos : s.done.rdpos = s.rdpos := rfl
@[simp] theorem done_freq : s.done.freq = s.freq := rfl
@[simp] theorem done_node : s.done.node = s.node := rfl
@[simp] theorem done_heap : s.done.heap = s.heap := rfl
@[simp] theorem done_code : s.done.code = s.code := rfl
@[simp] theorem done_pay : s.done.pay = s.pay := rfl
@[simp] theorem done_resets : s.done.resets = s.resets := rfl
@[simp] theorem done_bus : s.done.bus = s.bus := rfl
@[simp] theorem done_responses : s.done.responses = s.responses := rfl

/-! ### `raise` -/

@[simp] theorem raise_cfg (e : CmdError) : (s.raise e).cfg = s.cfg := rfl
@[simp] theorem raise_arg (e : CmdError) : (s.raise e).arg = s.arg := rfl
@[simp] theorem raise_data (e : CmdError) : (s.raise e).data = s.data := rfl
@[simp] theorem raise_result (e : CmdError) : (s.raise e).result = e.code := rfl
@[simp] theorem raise_errs (e : CmdError) : (s.raise e).errs = s.errs ||| e.bit := rfl
@[simp] theorem raise_treeValid (e : CmdError) : (s.raise e).treeValid = s.treeValid := rfl
@[simp] theorem raise_codeValid (e : CmdError) : (s.raise e).codeValid = s.codeValid := rfl
@[simp] theorem raise_heapLive (e : CmdError) : (s.raise e).heapLive = s.heapLive := rfl
@[simp] theorem raise_root (e : CmdError) : (s.raise e).root = s.root := rfl
@[simp] theorem raise_nnode (e : CmdError) : (s.raise e).nnode = s.nnode := rfl
@[simp] theorem raise_heapn (e : CmdError) : (s.raise e).heapn = s.heapn := rfl
@[simp] theorem raise_bitcnt (e : CmdError) : (s.raise e).bitcnt = s.bitcnt := rfl
@[simp] theorem raise_rdpos (e : CmdError) : (s.raise e).rdpos = s.rdpos := rfl
@[simp] theorem raise_freq (e : CmdError) : (s.raise e).freq = s.freq := rfl
@[simp] theorem raise_node (e : CmdError) : (s.raise e).node = s.node := rfl
@[simp] theorem raise_heap (e : CmdError) : (s.raise e).heap = s.heap := rfl
@[simp] theorem raise_code (e : CmdError) : (s.raise e).code = s.code := rfl
@[simp] theorem raise_pay (e : CmdError) : (s.raise e).pay = s.pay := rfl
@[simp] theorem raise_resets (e : CmdError) : (s.raise e).resets = s.resets := rfl
@[simp] theorem raise_bus (e : CmdError) : (s.raise e).bus = s.bus := rfl
@[simp] theorem raise_responses (e : CmdError) : (s.raise e).responses = s.responses := rfl

/-! ### `raised` -/

@[simp] theorem raised_cfg (c : Nat) : (raised s c).cfg = s.cfg := rfl
@[simp] theorem raised_arg (c : Nat) : (raised s c).arg = s.arg := rfl
@[simp] theorem raised_data (c : Nat) : (raised s c).data = s.data := rfl
@[simp] theorem raised_result (c : Nat) : (raised s c).result = BitVec.ofNat 8 c := rfl
@[simp] theorem raised_errs (c : Nat) : (raised s c).errs = s.errs ||| 1#32 <<< c := rfl
@[simp] theorem raised_treeValid (c : Nat) : (raised s c).treeValid = s.treeValid := rfl
@[simp] theorem raised_codeValid (c : Nat) : (raised s c).codeValid = s.codeValid := rfl
@[simp] theorem raised_heapLive (c : Nat) : (raised s c).heapLive = s.heapLive := rfl
@[simp] theorem raised_root (c : Nat) : (raised s c).root = s.root := rfl
@[simp] theorem raised_nnode (c : Nat) : (raised s c).nnode = s.nnode := rfl
@[simp] theorem raised_heapn (c : Nat) : (raised s c).heapn = s.heapn := rfl
@[simp] theorem raised_bitcnt (c : Nat) : (raised s c).bitcnt = s.bitcnt := rfl
@[simp] theorem raised_rdpos (c : Nat) : (raised s c).rdpos = s.rdpos := rfl
@[simp] theorem raised_freq (c : Nat) : (raised s c).freq = s.freq := rfl
@[simp] theorem raised_node (c : Nat) : (raised s c).node = s.node := rfl
@[simp] theorem raised_heap (c : Nat) : (raised s c).heap = s.heap := rfl
@[simp] theorem raised_code (c : Nat) : (raised s c).code = s.code := rfl
@[simp] theorem raised_pay (c : Nat) : (raised s c).pay = s.pay := rfl
@[simp] theorem raised_resets (c : Nat) : (raised s c).resets = s.resets := rfl
@[simp] theorem raised_bus (c : Nat) : (raised s c).bus = s.bus := rfl
@[simp] theorem raised_responses (c : Nat) : (raised s c).responses = s.responses := rfl

/-! ### `setFreq` -/

@[simp] theorem setFreq_cfg (y : Sym) (v : Word) : (s.setFreq y v).cfg = s.cfg := rfl
@[simp] theorem setFreq_arg (y : Sym) (v : Word) : (s.setFreq y v).arg = s.arg := rfl
@[simp] theorem setFreq_data (y : Sym) (v : Word) : (s.setFreq y v).data = s.data := rfl
@[simp] theorem setFreq_result (y : Sym) (v : Word) : (s.setFreq y v).result = s.result := rfl
@[simp] theorem setFreq_errs (y : Sym) (v : Word) : (s.setFreq y v).errs = s.errs := rfl
@[simp] theorem setFreq_treeValid (y : Sym) (v : Word) : (s.setFreq y v).treeValid = s.treeValid := rfl
@[simp] theorem setFreq_codeValid (y : Sym) (v : Word) : (s.setFreq y v).codeValid = s.codeValid := rfl
@[simp] theorem setFreq_heapLive (y : Sym) (v : Word) : (s.setFreq y v).heapLive = s.heapLive := rfl
@[simp] theorem setFreq_root (y : Sym) (v : Word) : (s.setFreq y v).root = s.root := rfl
@[simp] theorem setFreq_nnode (y : Sym) (v : Word) : (s.setFreq y v).nnode = s.nnode := rfl
@[simp] theorem setFreq_heapn (y : Sym) (v : Word) : (s.setFreq y v).heapn = s.heapn := rfl
@[simp] theorem setFreq_bitcnt (y : Sym) (v : Word) : (s.setFreq y v).bitcnt = s.bitcnt := rfl
@[simp] theorem setFreq_rdpos (y : Sym) (v : Word) : (s.setFreq y v).rdpos = s.rdpos := rfl
@[simp] theorem setFreq_freq (y : Sym) (v : Word) : (s.setFreq y v).freq = tableSet s.freq y.toNat v := rfl
@[simp] theorem setFreq_node (y : Sym) (v : Word) : (s.setFreq y v).node = s.node := rfl
@[simp] theorem setFreq_heap (y : Sym) (v : Word) : (s.setFreq y v).heap = s.heap := rfl
@[simp] theorem setFreq_code (y : Sym) (v : Word) : (s.setFreq y v).code = s.code := rfl
@[simp] theorem setFreq_pay (y : Sym) (v : Word) : (s.setFreq y v).pay = s.pay := rfl
@[simp] theorem setFreq_resets (y : Sym) (v : Word) : (s.setFreq y v).resets = s.resets := rfl
@[simp] theorem setFreq_bus (y : Sym) (v : Word) : (s.setFreq y v).bus = s.bus := rfl
@[simp] theorem setFreq_responses (y : Sym) (v : Word) : (s.setFreq y v).responses = s.responses := rfl

/-! ### `clearFreq` -/

@[simp] theorem clearFreq_cfg : s.clearFreq.cfg = s.cfg := rfl
@[simp] theorem clearFreq_arg : s.clearFreq.arg = s.arg := rfl
@[simp] theorem clearFreq_data : s.clearFreq.data = s.data := rfl
@[simp] theorem clearFreq_result : s.clearFreq.result = s.result := rfl
@[simp] theorem clearFreq_errs : s.clearFreq.errs = s.errs := rfl
@[simp] theorem clearFreq_treeValid : s.clearFreq.treeValid = s.treeValid := rfl
@[simp] theorem clearFreq_codeValid : s.clearFreq.codeValid = s.codeValid := rfl
@[simp] theorem clearFreq_heapLive : s.clearFreq.heapLive = s.heapLive := rfl
@[simp] theorem clearFreq_root : s.clearFreq.root = s.root := rfl
@[simp] theorem clearFreq_nnode : s.clearFreq.nnode = s.nnode := rfl
@[simp] theorem clearFreq_heapn : s.clearFreq.heapn = s.heapn := rfl
@[simp] theorem clearFreq_bitcnt : s.clearFreq.bitcnt = s.bitcnt := rfl
@[simp] theorem clearFreq_rdpos : s.clearFreq.rdpos = s.rdpos := rfl
@[simp] theorem clearFreq_freq : s.clearFreq.freq = Vector.replicate 256 0 := rfl
@[simp] theorem clearFreq_node : s.clearFreq.node = s.node := rfl
@[simp] theorem clearFreq_heap : s.clearFreq.heap = s.heap := rfl
@[simp] theorem clearFreq_code : s.clearFreq.code = s.code := rfl
@[simp] theorem clearFreq_pay : s.clearFreq.pay = s.pay := rfl
@[simp] theorem clearFreq_resets : s.clearFreq.resets = s.resets := rfl
@[simp] theorem clearFreq_bus : s.clearFreq.bus = s.bus := rfl
@[simp] theorem clearFreq_responses : s.clearFreq.responses = s.responses := rfl

/-! ### `setPayByte` -/

@[simp] theorem setPayByte_cfg (a : Nat) (b : Byte) : (s.setPayByte a b).cfg = s.cfg := rfl
@[simp] theorem setPayByte_arg (a : Nat) (b : Byte) : (s.setPayByte a b).arg = s.arg := rfl
@[simp] theorem setPayByte_data (a : Nat) (b : Byte) : (s.setPayByte a b).data = s.data := rfl
@[simp] theorem setPayByte_result (a : Nat) (b : Byte) : (s.setPayByte a b).result = s.result := rfl
@[simp] theorem setPayByte_errs (a : Nat) (b : Byte) : (s.setPayByte a b).errs = s.errs := rfl
@[simp] theorem setPayByte_treeValid (a : Nat) (b : Byte) : (s.setPayByte a b).treeValid = s.treeValid := rfl
@[simp] theorem setPayByte_codeValid (a : Nat) (b : Byte) : (s.setPayByte a b).codeValid = s.codeValid := rfl
@[simp] theorem setPayByte_heapLive (a : Nat) (b : Byte) : (s.setPayByte a b).heapLive = s.heapLive := rfl
@[simp] theorem setPayByte_root (a : Nat) (b : Byte) : (s.setPayByte a b).root = s.root := rfl
@[simp] theorem setPayByte_nnode (a : Nat) (b : Byte) : (s.setPayByte a b).nnode = s.nnode := rfl
@[simp] theorem setPayByte_heapn (a : Nat) (b : Byte) : (s.setPayByte a b).heapn = s.heapn := rfl
@[simp] theorem setPayByte_bitcnt (a : Nat) (b : Byte) : (s.setPayByte a b).bitcnt = s.bitcnt := rfl
@[simp] theorem setPayByte_rdpos (a : Nat) (b : Byte) : (s.setPayByte a b).rdpos = s.rdpos := rfl
@[simp] theorem setPayByte_freq (a : Nat) (b : Byte) : (s.setPayByte a b).freq = s.freq := rfl
@[simp] theorem setPayByte_node (a : Nat) (b : Byte) : (s.setPayByte a b).node = s.node := rfl
@[simp] theorem setPayByte_heap (a : Nat) (b : Byte) : (s.setPayByte a b).heap = s.heap := rfl
@[simp] theorem setPayByte_code (a : Nat) (b : Byte) : (s.setPayByte a b).code = s.code := rfl
@[simp] theorem setPayByte_pay (a : Nat) (b : Byte) : (s.setPayByte a b).pay = Memory.write s.pay a b := rfl
@[simp] theorem setPayByte_resets (a : Nat) (b : Byte) : (s.setPayByte a b).resets = s.resets := rfl
@[simp] theorem setPayByte_bus (a : Nat) (b : Byte) : (s.setPayByte a b).bus = s.bus := rfl
@[simp] theorem setPayByte_responses (a : Nat) (b : Byte) : (s.setPayByte a b).responses = s.responses := rfl

/-! ### `putbit` -/

@[simp] theorem putbit_cfg (b : Bool) : (s.putbit b).cfg = s.cfg := rfl
@[simp] theorem putbit_arg (b : Bool) : (s.putbit b).arg = s.arg := rfl
@[simp] theorem putbit_data (b : Bool) : (s.putbit b).data = s.data := rfl
@[simp] theorem putbit_result (b : Bool) : (s.putbit b).result = s.result := rfl
@[simp] theorem putbit_errs (b : Bool) : (s.putbit b).errs = s.errs := rfl
@[simp] theorem putbit_treeValid (b : Bool) : (s.putbit b).treeValid = s.treeValid := rfl
@[simp] theorem putbit_codeValid (b : Bool) : (s.putbit b).codeValid = s.codeValid := rfl
@[simp] theorem putbit_heapLive (b : Bool) : (s.putbit b).heapLive = s.heapLive := rfl
@[simp] theorem putbit_root (b : Bool) : (s.putbit b).root = s.root := rfl
@[simp] theorem putbit_nnode (b : Bool) : (s.putbit b).nnode = s.nnode := rfl
@[simp] theorem putbit_heapn (b : Bool) : (s.putbit b).heapn = s.heapn := rfl
@[simp] theorem putbit_bitcnt (b : Bool) : (s.putbit b).bitcnt = s.bitcnt + 1 := rfl
@[simp] theorem putbit_rdpos (b : Bool) : (s.putbit b).rdpos = s.rdpos := rfl
@[simp] theorem putbit_freq (b : Bool) : (s.putbit b).freq = s.freq := rfl
@[simp] theorem putbit_node (b : Bool) : (s.putbit b).node = s.node := rfl
@[simp] theorem putbit_heap (b : Bool) : (s.putbit b).heap = s.heap := rfl
@[simp] theorem putbit_code (b : Bool) : (s.putbit b).code = s.code := rfl
@[simp] theorem putbit_resets (b : Bool) : (s.putbit b).resets = s.resets := rfl
@[simp] theorem putbit_bus (b : Bool) : (s.putbit b).bus = s.bus := rfl
@[simp] theorem putbit_responses (b : Bool) : (s.putbit b).responses = s.responses := rfl

/-! ### `writePay` -/

@[simp] theorem writePay_cfg (a : Nat) (v : Word) : (s.writePay a v).cfg = s.cfg := rfl
@[simp] theorem writePay_arg (a : Nat) (v : Word) : (s.writePay a v).arg = s.arg := rfl
@[simp] theorem writePay_data (a : Nat) (v : Word) : (s.writePay a v).data = s.data := rfl
@[simp] theorem writePay_result (a : Nat) (v : Word) : (s.writePay a v).result = s.result := rfl
@[simp] theorem writePay_errs (a : Nat) (v : Word) : (s.writePay a v).errs = s.errs := rfl
@[simp] theorem writePay_treeValid (a : Nat) (v : Word) : (s.writePay a v).treeValid = s.treeValid := rfl
@[simp] theorem writePay_codeValid (a : Nat) (v : Word) : (s.writePay a v).codeValid = s.codeValid := rfl
@[simp] theorem writePay_heapLive (a : Nat) (v : Word) : (s.writePay a v).heapLive = s.heapLive := rfl
@[simp] theorem writePay_root (a : Nat) (v : Word) : (s.writePay a v).root = s.root := rfl
@[simp] theorem writePay_nnode (a : Nat) (v : Word) : (s.writePay a v).nnode = s.nnode := rfl
@[simp] theorem writePay_heapn (a : Nat) (v : Word) : (s.writePay a v).heapn = s.heapn := rfl
@[simp] theorem writePay_bitcnt (a : Nat) (v : Word) : (s.writePay a v).bitcnt = s.bitcnt := rfl
@[simp] theorem writePay_rdpos (a : Nat) (v : Word) : (s.writePay a v).rdpos = s.rdpos := rfl
@[simp] theorem writePay_freq (a : Nat) (v : Word) : (s.writePay a v).freq = s.freq := rfl
@[simp] theorem writePay_node (a : Nat) (v : Word) : (s.writePay a v).node = s.node := rfl
@[simp] theorem writePay_heap (a : Nat) (v : Word) : (s.writePay a v).heap = s.heap := rfl
@[simp] theorem writePay_code (a : Nat) (v : Word) : (s.writePay a v).code = s.code := rfl
@[simp] theorem writePay_resets (a : Nat) (v : Word) : (s.writePay a v).resets = s.resets := rfl
@[simp] theorem writePay_bus (a : Nat) (v : Word) : (s.writePay a v).bus = s.bus := rfl
@[simp] theorem writePay_responses (a : Nat) (v : Word) : (s.writePay a v).responses = s.responses := rfl

/-! ### `newNode` -/

@[simp] theorem newNode_cfg (x : Node) : (s.newNode x).cfg = s.cfg := rfl
@[simp] theorem newNode_arg (x : Node) : (s.newNode x).arg = s.arg := rfl
@[simp] theorem newNode_data (x : Node) : (s.newNode x).data = s.data := rfl
@[simp] theorem newNode_result (x : Node) : (s.newNode x).result = s.result := rfl
@[simp] theorem newNode_errs (x : Node) : (s.newNode x).errs = s.errs := rfl
@[simp] theorem newNode_treeValid (x : Node) : (s.newNode x).treeValid = s.treeValid := rfl
@[simp] theorem newNode_codeValid (x : Node) : (s.newNode x).codeValid = s.codeValid := rfl
@[simp] theorem newNode_heapLive (x : Node) : (s.newNode x).heapLive = s.heapLive := rfl
@[simp] theorem newNode_root (x : Node) : (s.newNode x).root = s.root := rfl
@[simp] theorem newNode_nnode (x : Node) : (s.newNode x).nnode = s.nnode + 1 := rfl
@[simp] theorem newNode_heapn (x : Node) : (s.newNode x).heapn = s.heapn := rfl
@[simp] theorem newNode_bitcnt (x : Node) : (s.newNode x).bitcnt = s.bitcnt := rfl
@[simp] theorem newNode_rdpos (x : Node) : (s.newNode x).rdpos = s.rdpos := rfl
@[simp] theorem newNode_freq (x : Node) : (s.newNode x).freq = s.freq := rfl
@[simp] theorem newNode_node (x : Node) : (s.newNode x).node = tableSet s.node s.nnode.toNat x := rfl
@[simp] theorem newNode_heap (x : Node) : (s.newNode x).heap = s.heap := rfl
@[simp] theorem newNode_code (x : Node) : (s.newNode x).code = s.code := rfl
@[simp] theorem newNode_pay (x : Node) : (s.newNode x).pay = s.pay := rfl
@[simp] theorem newNode_resets (x : Node) : (s.newNode x).resets = s.resets := rfl
@[simp] theorem newNode_bus (x : Node) : (s.newNode x).bus = s.bus := rfl
@[simp] theorem newNode_responses (x : Node) : (s.newNode x).responses = s.responses := rfl

/-! ### `heapInsert` -/

@[simp] theorem heapInsert_cfg (h : Handle) : (s.heapInsert h).cfg = s.cfg := rfl
@[simp] theorem heapInsert_arg (h : Handle) : (s.heapInsert h).arg = s.arg := rfl
@[simp] theorem heapInsert_data (h : Handle) : (s.heapInsert h).data = s.data := rfl
@[simp] theorem heapInsert_result (h : Handle) : (s.heapInsert h).result = s.result := rfl
@[simp] theorem heapInsert_errs (h : Handle) : (s.heapInsert h).errs = s.errs := rfl
@[simp] theorem heapInsert_treeValid (h : Handle) : (s.heapInsert h).treeValid = s.treeValid := rfl
@[simp] theorem heapInsert_codeValid (h : Handle) : (s.heapInsert h).codeValid = s.codeValid := rfl
@[simp] theorem heapInsert_heapLive (h : Handle) : (s.heapInsert h).heapLive = s.heapLive := rfl
@[simp] theorem heapInsert_root (h : Handle) : (s.heapInsert h).root = s.root := rfl
@[simp] theorem heapInsert_nnode (h : Handle) : (s.heapInsert h).nnode = s.nnode := rfl
@[simp] theorem heapInsert_heapn (h : Handle) : (s.heapInsert h).heapn = s.heapn + 1 := rfl
@[simp] theorem heapInsert_bitcnt (h : Handle) : (s.heapInsert h).bitcnt = s.bitcnt := rfl
@[simp] theorem heapInsert_rdpos (h : Handle) : (s.heapInsert h).rdpos = s.rdpos := rfl
@[simp] theorem heapInsert_freq (h : Handle) : (s.heapInsert h).freq = s.freq := rfl
@[simp] theorem heapInsert_node (h : Handle) : (s.heapInsert h).node = s.node := rfl
@[simp] theorem heapInsert_code (h : Handle) : (s.heapInsert h).code = s.code := rfl
@[simp] theorem heapInsert_pay (h : Handle) : (s.heapInsert h).pay = s.pay := rfl
@[simp] theorem heapInsert_resets (h : Handle) : (s.heapInsert h).resets = s.resets := rfl
@[simp] theorem heapInsert_bus (h : Handle) : (s.heapInsert h).bus = s.bus := rfl
@[simp] theorem heapInsert_responses (h : Handle) : (s.heapInsert h).responses = s.responses := rfl

/-! ### `heapExtractMin` -/

@[simp] theorem heapExtractMin_cfg : s.heapExtractMin.2.cfg = s.cfg := rfl
@[simp] theorem heapExtractMin_arg : s.heapExtractMin.2.arg = s.arg := rfl
@[simp] theorem heapExtractMin_data : s.heapExtractMin.2.data = s.data := rfl
@[simp] theorem heapExtractMin_result : s.heapExtractMin.2.result = s.result := rfl
@[simp] theorem heapExtractMin_errs : s.heapExtractMin.2.errs = s.errs := rfl
@[simp] theorem heapExtractMin_treeValid : s.heapExtractMin.2.treeValid = s.treeValid := rfl
@[simp] theorem heapExtractMin_codeValid : s.heapExtractMin.2.codeValid = s.codeValid := rfl
@[simp] theorem heapExtractMin_heapLive : s.heapExtractMin.2.heapLive = s.heapLive := rfl
@[simp] theorem heapExtractMin_root : s.heapExtractMin.2.root = s.root := rfl
@[simp] theorem heapExtractMin_nnode : s.heapExtractMin.2.nnode = s.nnode := rfl
@[simp] theorem heapExtractMin_heapn : s.heapExtractMin.2.heapn = s.heapn - 1 := rfl
@[simp] theorem heapExtractMin_bitcnt : s.heapExtractMin.2.bitcnt = s.bitcnt := rfl
@[simp] theorem heapExtractMin_rdpos : s.heapExtractMin.2.rdpos = s.rdpos := rfl
@[simp] theorem heapExtractMin_freq : s.heapExtractMin.2.freq = s.freq := rfl
@[simp] theorem heapExtractMin_node : s.heapExtractMin.2.node = s.node := rfl
@[simp] theorem heapExtractMin_heap : s.heapExtractMin.2.heap = heapWithoutMin s.node (s.heapn.toNat - 1) s.heap := rfl
@[simp] theorem heapExtractMin_code : s.heapExtractMin.2.code = s.code := rfl
@[simp] theorem heapExtractMin_pay : s.heapExtractMin.2.pay = s.pay := rfl
@[simp] theorem heapExtractMin_resets : s.heapExtractMin.2.resets = s.resets := rfl
@[simp] theorem heapExtractMin_bus : s.heapExtractMin.2.bus = s.bus := rfl
@[simp] theorem heapExtractMin_responses : s.heapExtractMin.2.responses = s.responses := rfl

/-! ### `clearBuild` -/

@[simp] theorem clearBuild_cfg : s.clearBuild.cfg = s.cfg := rfl
@[simp] theorem clearBuild_arg : s.clearBuild.arg = s.arg := rfl
@[simp] theorem clearBuild_data : s.clearBuild.data = s.data := rfl
@[simp] theorem clearBuild_result : s.clearBuild.result = s.result := rfl
@[simp] theorem clearBuild_errs : s.clearBuild.errs = s.errs := rfl
@[simp] theorem clearBuild_treeValid : s.clearBuild.treeValid = false := rfl
@[simp] theorem clearBuild_codeValid : s.clearBuild.codeValid = false := rfl
@[simp] theorem clearBuild_heapLive : s.clearBuild.heapLive = true := rfl
@[simp] theorem clearBuild_root : s.clearBuild.root = NIL := rfl
@[simp] theorem clearBuild_nnode : s.clearBuild.nnode = 0 := rfl
@[simp] theorem clearBuild_heapn : s.clearBuild.heapn = 0 := rfl
@[simp] theorem clearBuild_bitcnt : s.clearBuild.bitcnt = s.bitcnt := rfl
@[simp] theorem clearBuild_rdpos : s.clearBuild.rdpos = s.rdpos := rfl
@[simp] theorem clearBuild_freq : s.clearBuild.freq = s.freq := rfl
@[simp] theorem clearBuild_node : s.clearBuild.node = Vector.replicate 511 Node.empty := rfl
@[simp] theorem clearBuild_heap : s.clearBuild.heap = Vector.replicate 256 NIL := rfl
@[simp] theorem clearBuild_code : s.clearBuild.code = s.code := rfl
@[simp] theorem clearBuild_pay : s.clearBuild.pay = s.pay := rfl
@[simp] theorem clearBuild_resets : s.clearBuild.resets = s.resets := rfl
@[simp] theorem clearBuild_bus : s.clearBuild.bus = s.bus := rfl
@[simp] theorem clearBuild_responses : s.clearBuild.responses = s.responses := rfl

/-! ### `setTree` -/

@[simp] theorem setTree_cfg (r : Handle) : (s.setTree r).cfg = s.cfg := rfl
@[simp] theorem setTree_arg (r : Handle) : (s.setTree r).arg = s.arg := rfl
@[simp] theorem setTree_data (r : Handle) : (s.setTree r).data = s.data := rfl
@[simp] theorem setTree_result (r : Handle) : (s.setTree r).result = s.result := rfl
@[simp] theorem setTree_errs (r : Handle) : (s.setTree r).errs = s.errs := rfl
@[simp] theorem setTree_treeValid (r : Handle) : (s.setTree r).treeValid = true := rfl
@[simp] theorem setTree_codeValid (r : Handle) : (s.setTree r).codeValid = s.codeValid := rfl
@[simp] theorem setTree_heapLive (r : Handle) : (s.setTree r).heapLive = false := rfl
@[simp] theorem setTree_root (r : Handle) : (s.setTree r).root = r := rfl
@[simp] theorem setTree_nnode (r : Handle) : (s.setTree r).nnode = s.nnode := rfl
@[simp] theorem setTree_heapn (r : Handle) : (s.setTree r).heapn = s.heapn := rfl
@[simp] theorem setTree_bitcnt (r : Handle) : (s.setTree r).bitcnt = s.bitcnt := rfl
@[simp] theorem setTree_rdpos (r : Handle) : (s.setTree r).rdpos = s.rdpos := rfl
@[simp] theorem setTree_freq (r : Handle) : (s.setTree r).freq = s.freq := rfl
@[simp] theorem setTree_node (r : Handle) : (s.setTree r).node = s.node := rfl
@[simp] theorem setTree_heap (r : Handle) : (s.setTree r).heap = s.heap := rfl
@[simp] theorem setTree_code (r : Handle) : (s.setTree r).code = s.code := rfl
@[simp] theorem setTree_pay (r : Handle) : (s.setTree r).pay = s.pay := rfl
@[simp] theorem setTree_resets (r : Handle) : (s.setTree r).resets = s.resets := rfl
@[simp] theorem setTree_bus (r : Handle) : (s.setTree r).bus = s.bus := rfl
@[simp] theorem setTree_responses (r : Handle) : (s.setTree r).responses = s.responses := rfl

/-! ### `fillCode` -/

@[simp] theorem fillCode_cfg : s.fillCode.cfg = s.cfg := rfl
@[simp] theorem fillCode_arg : s.fillCode.arg = s.arg := rfl
@[simp] theorem fillCode_data : s.fillCode.data = s.data := rfl
@[simp] theorem fillCode_result : s.fillCode.result = s.result := rfl
@[simp] theorem fillCode_errs : s.fillCode.errs = s.errs := rfl
@[simp] theorem fillCode_treeValid : s.fillCode.treeValid = s.treeValid := rfl
@[simp] theorem fillCode_codeValid : s.fillCode.codeValid = true := rfl
@[simp] theorem fillCode_heapLive : s.fillCode.heapLive = s.heapLive := rfl
@[simp] theorem fillCode_root : s.fillCode.root = s.root := rfl
@[simp] theorem fillCode_nnode : s.fillCode.nnode = s.nnode := rfl
@[simp] theorem fillCode_heapn : s.fillCode.heapn = s.heapn := rfl
@[simp] theorem fillCode_bitcnt : s.fillCode.bitcnt = s.bitcnt := rfl
@[simp] theorem fillCode_rdpos : s.fillCode.rdpos = s.rdpos := rfl
@[simp] theorem fillCode_freq : s.fillCode.freq = s.freq := rfl
@[simp] theorem fillCode_node : s.fillCode.node = s.node := rfl
@[simp] theorem fillCode_heap : s.fillCode.heap = s.heap := rfl
@[simp] theorem fillCode_pay : s.fillCode.pay = s.pay := rfl
@[simp] theorem fillCode_resets : s.fillCode.resets = s.resets := rfl
@[simp] theorem fillCode_bus : s.fillCode.bus = s.bus := rfl
@[simp] theorem fillCode_responses : s.fillCode.responses = s.responses := rfl

/-! ### `softReset` -/

@[simp] theorem softReset_cfg : s.softReset.cfg = s.cfg := rfl
@[simp] theorem softReset_arg : s.softReset.arg = State.reset.arg := rfl
@[simp] theorem softReset_data : s.softReset.data = State.reset.data := rfl
@[simp] theorem softReset_result : s.softReset.result = State.reset.result := rfl
@[simp] theorem softReset_errs : s.softReset.errs = State.reset.errs := rfl
@[simp] theorem softReset_treeValid : s.softReset.treeValid = State.reset.treeValid := rfl
@[simp] theorem softReset_codeValid : s.softReset.codeValid = State.reset.codeValid := rfl
@[simp] theorem softReset_heapLive : s.softReset.heapLive = State.reset.heapLive := rfl
@[simp] theorem softReset_root : s.softReset.root = State.reset.root := rfl
@[simp] theorem softReset_nnode : s.softReset.nnode = State.reset.nnode := rfl
@[simp] theorem softReset_heapn : s.softReset.heapn = State.reset.heapn := rfl
@[simp] theorem softReset_bitcnt : s.softReset.bitcnt = State.reset.bitcnt := rfl
@[simp] theorem softReset_rdpos : s.softReset.rdpos = State.reset.rdpos := rfl
@[simp] theorem softReset_freq : s.softReset.freq = State.reset.freq := rfl
@[simp] theorem softReset_node : s.softReset.node = State.reset.node := rfl
@[simp] theorem softReset_heap : s.softReset.heap = State.reset.heap := rfl
@[simp] theorem softReset_code : s.softReset.code = State.reset.code := rfl
@[simp] theorem softReset_pay : s.softReset.pay = s.pay := rfl
@[simp] theorem softReset_resets : s.softReset.resets = s.resets := rfl
@[simp] theorem softReset_bus : s.softReset.bus = s.bus := rfl
@[simp] theorem softReset_responses : s.softReset.responses = s.responses := rfl

/-! ### `hardReset` -/

@[simp] theorem hardReset_cfg : s.hardReset.cfg = s.cfg := rfl
@[simp] theorem hardReset_arg : s.hardReset.arg = State.reset.arg := rfl
@[simp] theorem hardReset_data : s.hardReset.data = State.reset.data := rfl
@[simp] theorem hardReset_result : s.hardReset.result = State.reset.result := rfl
@[simp] theorem hardReset_errs : s.hardReset.errs = State.reset.errs := rfl
@[simp] theorem hardReset_treeValid : s.hardReset.treeValid = State.reset.treeValid := rfl
@[simp] theorem hardReset_codeValid : s.hardReset.codeValid = State.reset.codeValid := rfl
@[simp] theorem hardReset_heapLive : s.hardReset.heapLive = State.reset.heapLive := rfl
@[simp] theorem hardReset_root : s.hardReset.root = State.reset.root := rfl
@[simp] theorem hardReset_nnode : s.hardReset.nnode = State.reset.nnode := rfl
@[simp] theorem hardReset_heapn : s.hardReset.heapn = State.reset.heapn := rfl
@[simp] theorem hardReset_bitcnt : s.hardReset.bitcnt = State.reset.bitcnt := rfl
@[simp] theorem hardReset_rdpos : s.hardReset.rdpos = State.reset.rdpos := rfl
@[simp] theorem hardReset_freq : s.hardReset.freq = State.reset.freq := rfl
@[simp] theorem hardReset_node : s.hardReset.node = State.reset.node := rfl
@[simp] theorem hardReset_heap : s.hardReset.heap = State.reset.heap := rfl
@[simp] theorem hardReset_code : s.hardReset.code = State.reset.code := rfl
@[simp] theorem hardReset_pay : s.hardReset.pay = State.reset.pay := rfl
@[simp] theorem hardReset_resets : s.hardReset.resets = s.resets + 1 := rfl
@[simp] theorem hardReset_bus : s.hardReset.bus = s.bus := rfl
@[simp] theorem hardReset_responses : s.hardReset.responses = s.responses := rfl

/-! ### `respond` -/

@[simp] theorem respond_cfg (r : Response) : (s.respond r).cfg = s.cfg := rfl
@[simp] theorem respond_arg (r : Response) : (s.respond r).arg = s.arg := rfl
@[simp] theorem respond_data (r : Response) : (s.respond r).data = s.data := rfl
@[simp] theorem respond_result (r : Response) : (s.respond r).result = s.result := rfl
@[simp] theorem respond_errs (r : Response) : (s.respond r).errs = s.errs := rfl
@[simp] theorem respond_treeValid (r : Response) : (s.respond r).treeValid = s.treeValid := rfl
@[simp] theorem respond_codeValid (r : Response) : (s.respond r).codeValid = s.codeValid := rfl
@[simp] theorem respond_heapLive (r : Response) : (s.respond r).heapLive = s.heapLive := rfl
@[simp] theorem respond_root (r : Response) : (s.respond r).root = s.root := rfl
@[simp] theorem respond_nnode (r : Response) : (s.respond r).nnode = s.nnode := rfl
@[simp] theorem respond_heapn (r : Response) : (s.respond r).heapn = s.heapn := rfl
@[simp] theorem respond_bitcnt (r : Response) : (s.respond r).bitcnt = s.bitcnt := rfl
@[simp] theorem respond_rdpos (r : Response) : (s.respond r).rdpos = s.rdpos := rfl
@[simp] theorem respond_freq (r : Response) : (s.respond r).freq = s.freq := rfl
@[simp] theorem respond_node (r : Response) : (s.respond r).node = s.node := rfl
@[simp] theorem respond_heap (r : Response) : (s.respond r).heap = s.heap := rfl
@[simp] theorem respond_code (r : Response) : (s.respond r).code = s.code := rfl
@[simp] theorem respond_pay (r : Response) : (s.respond r).pay = s.pay := rfl
@[simp] theorem respond_resets (r : Response) : (s.respond r).resets = s.resets := rfl
@[simp] theorem respond_bus (r : Response) : (s.respond r).bus = s.bus := rfl
@[simp] theorem respond_responses (r : Response) : (s.respond r).responses = s.responses ++ [r] := rfl

end Sys2Proof.Machine
end

