-- ==== Sys2Proof/Laws/Bits.lean ====
section
/-! SUPPORT. What the bit operations of the packer and the unpacker do: `putbit` and its loop (R76, R151),
`getbit` and its loop (R75, R166), and the walk of USYM (R167). -/

namespace Sys2Proof.Machine

/-! ## One byte -/

theorem keepMask_bit : ∀ k < 8, ∀ i < 8, (keepMask k).getLsbD i = decide (8 ≤ i + k) := by decide

/-- R76 for k = 0: "the byte is overwritten whole": the old byte has no effect. -/
theorem packByte_zero (old : Byte) (b : Bool) : packByte old 0 b = packByte 0 0 b := by
  have h : keepMask 0 = 0 := by decide
  simp [packByte, h]

/-- The bits of the byte that `putbit` writes: above the new bit the old ones, below it zeros. -/
theorem packByte_bit (old : Byte) (b : Bool) {k i : Nat} (hk : k < 8) (hi : i < 8) :
    (packByte old k b).getLsbD i =
      if 8 ≤ i + k then old.getLsbD i else (decide (i + k = 7) && b) := by
  unfold packByte
  rw [BitVec.getLsbD_or, BitVec.getLsbD_and, keepMask_bit k hk i hi]
  simp only [BitVec.getLsbD_shiftLeft, BitVec.getLsbD_setWidth, BitVec.getLsbD_ofBool, hi]
  by_cases h1 : 8 ≤ i + k
  · have h2 : ¬ i < 7 - k := by omega
    have h3 : ¬ i - (7 - k) = 0 := by omega
    simp [h1, h2, h3]
  · by_cases h4 : i + k = 7
    · have h2 : ¬ i < 7 - k := by omega
      have h3 : i - (7 - k) = 0 := by omega
      simp [h4, h2, h3]
    · have h2 : i < 7 - k := by omega
      simp [h1, h2, h4]

/-! ## `putbit` -/

/-- The byte that `putbit` leaves at its address is R76's formula applied to the byte that stood there. -/
theorem payByte_putbit (s : State) (b : Bool) (a : Nat) :
    (s.putbit b).payByte a =
      if a = s.bitcnt.toNat / 8 then packByte (s.payByte a) (s.bitcnt.toNat % 8) b else s.payByte a := by
  have e : (s.putbit b).payByte a =
      (s.setPayByte (s.bitcnt.toNat / 8)
        (packByte (s.packBase s.bitcnt.toNat) (s.bitcnt.toNat % 8) b)).payByte a := rfl
  rw [e, payByte_setPayByte]
  split
  · next h =>
    subst h
    unfold State.packBase
    split
    · next h0 => rw [h0]; exact (packByte_zero _ b).symm
    · rfl
  · rfl

/-- Everything `putbit` does to the payload bits: the new bit stands at position BITCNT, the bits below stay,
the rest of its byte is 0. -/
theorem getbit_putbit (s : State) (b : Bool) (p : Nat) :
    (s.putbit b).getbit p =
      if p = s.bitcnt.toNat then b
      else if p / 8 = s.bitcnt.toNat / 8 ∧ s.bitcnt.toNat < p then false
      else s.getbit p := by
  unfold State.getbit
  rw [payByte_putbit]
  by_cases hd : p / 8 = s.bitcnt.toNat / 8
  · rw [if_pos hd, packByte_bit _ b (by omega) (by omega)]
    by_cases h1 : p = s.bitcnt.toNat
    · subst h1
      rw [if_neg (by omega)]
      have h2 : 7 - s.bitcnt.toNat % 8 + s.bitcnt.toNat % 8 = 7 := by omega
      simp [h2]
    · by_cases h2 : s.bitcnt.toNat < p
      · rw [if_neg (by omega), if_neg h1, if_pos ⟨hd, h2⟩]
        have h3 : ¬ 7 - p % 8 + s.bitcnt.toNat % 8 = 7 := by omega
        simp [h3]
      · rw [if_pos (by omega), if_neg h1, if_neg (by tauto)]
  · rw [if_neg hd, if_neg (by rintro rfl; exact hd rfl), if_neg (by tauto)]

theorem bitcnt_putbit (s : State) (b : Bool) (h : s.bitcnt.toNat < 2 ^ 31) :
    (s.putbit b).bitcnt.toNat = s.bitcnt.toNat + 1 := by
  simp only [putbit_bitcnt, BitVec.toNat_add]
  simp
  omega

/-! ## The loop of the packer -/

/-- The loop writes PAY and BITCNT and nothing else. -/
theorem putBits_frame (f : Nat → Bool) (n : Nat) (s : State) :
    s.putBits f n = { s with pay := (s.putBits f n).pay, bitcnt := (s.putBits f n).bitcnt } := by
  induction n generalizing s with
  | zero => rfl
  | succ n ih =>
    unfold State.putBits
    rw [ih (s.putbit (f n))]
    rfl

/-- BITCNT after the loop. -/
theorem bitcnt_putBits (f : Nat → Bool) (n : Nat) (s : State) (h : s.bitcnt.toNat + n ≤ 2 ^ 31) :
    (s.putBits f n).bitcnt.toNat = s.bitcnt.toNat + n := by
  induction n generalizing s with
  | zero => rfl
  | succ n ih =>
    have h1 := bitcnt_putbit s (f n) (by omega)
    unfold State.putBits
    rw [ih _ (by omega), h1]
    omega

/-- Everything the loop does to the payload bits: `f (n-1), ..., f 0` from position BITCNT on, the bits below
unchanged, zeros up to the end of the last byte it touched, the bits of other bytes unchanged. -/
theorem getbit_putBits (f : Nat → Bool) (n : Nat) (s : State) (h : s.bitcnt.toNat + n ≤ 2 ^ 31) (p : Nat) :
    (s.putBits f n).getbit p =
      if p < s.bitcnt.toNat then s.getbit p
      else if p < s.bitcnt.toNat + n then f (s.bitcnt.toNat + n - 1 - p)
      else if 0 < n ∧ p / 8 = (s.bitcnt.toNat + n - 1) / 8 then false
      else s.getbit p := by
  induction n generalizing s with
  | zero =>
    unfold State.putBits
    split
    · rfl
    · rw [if_neg (by omega), if_neg (by omega)]
  | succ n ih =>
    have h1 := bitcnt_putbit s (f n) (by omega)
    unfold State.putBits
    rw [ih _ (by omega), h1, getbit_putbit]
    by_cases c1 : p < s.bitcnt.toNat
    · rw [if_pos (by omega), if_neg (by omega), if_neg (by omega), if_pos c1]
    · by_cases c2 : p = s.bitcnt.toNat
      · rw [if_pos (by omega), if_pos c2, if_neg c1, if_pos (by omega)]
        congr 1
        omega
      · by_cases c3 : p < s.bitcnt.toNat + (n + 1)
        · rw [if_neg (by omega), if_pos (by omega), if_neg c1, if_pos c3]
          congr 1
          omega
        · rw [if_neg (by omega), if_neg (by omega), if_neg c1, if_neg c3, if_neg c2]
          by_cases c4 : p / 8 = (s.bitcnt.toNat + (n + 1) - 1) / 8
          · rw [if_pos (c := 0 < n + 1 ∧ _) ⟨by omega, c4⟩]
            by_cases c5 : 0 < n
            · rw [if_pos ⟨c5, by omega⟩]
            · rw [if_neg (by omega), if_pos ⟨by omega, by omega⟩]
          · rw [if_neg (by omega), if_neg (by omega), if_neg (by omega)]

/-- The loop leaves every byte alone that it puts no bit in. -/
theorem payByte_putBits (f : Nat → Bool) (n : Nat) (s : State) (h : s.bitcnt.toNat + n ≤ 2 ^ 31) (a : Nat)
    (ha : a < s.bitcnt.toNat / 8 ∨ (s.bitcnt.toNat + n + 7) / 8 ≤ a) :
    (s.putBits f n).payByte a = s.payByte a := by
  induction n generalizing s with
  | zero => rfl
  | succ n ih =>
    have h1 := bitcnt_putbit s (f n) (by omega)
    unfold State.putBits
    rw [ih _ (by omega) (by omega), payByte_putbit, if_neg (by omega)]

/-! ## The loop of the unpacker -/

/-- Everything the loop of UGET does: the bits already in `v` move up by `n`, the bits read stand below them,
the first one read highest. -/
theorem getBits_bit (s : State) (n p : Nat) (v : Word) (i : Nat) :
    (s.getBits p n v).getLsbD i =
      (decide (i < 32) && if i < n then s.getbit (p + (n - 1 - i)) else v.getLsbD (i - n)) := by
  induction n generalizing p v with
  | zero =>
    unfold State.getBits
    by_cases hi : i < 32
    · simp [hi]
    · simp [hi, BitVec.getLsbD_of_ge v i (by omega)]
  | succ n ih =>
    unfold State.getBits
    rw [ih]
    by_cases hi : i < 32
    · simp only [hi, decide_true, Bool.true_and]
      by_cases h1 : i < n
      · rw [if_pos h1, if_pos (by omega)]
        congr 1
        omega
      · rw [if_neg h1, BitVec.getLsbD_or, BitVec.getLsbD_shiftLeft, BitVec.getLsbD_setWidth, BitVec.getLsbD_ofBool]
        by_cases h2 : i = n
        · subst h2
          simp
        · have h3 : ¬ i - n = 0 := by omega
          have h4 : ¬ i < n + 1 := by omega
          have h5 : i - n - 1 = i - (n + 1) := by omega
          have h6 : i - n < 32 := by omega
          have h7 : ¬ i - n < 1 := by omega
          rw [if_neg h4]
          simp [h3, h5, h6, h7]
    · simp [hi]

/-! ## The walk of USYM -/

/-- Where the walk can end: at a leaf reached along the bits read, below the position it names; every handle
it leaves was taken as an internal node. `inner h` is what the caller knows of the start. -/
theorem walk_leaf {s : State} {rem p : Nat} {h f : Handle} {q : Nat} (inner : (s.nodeAt h).leaf = false)
    (e : s.walk rem p h = .leaf f q) :
    ∃ m, 1 ≤ m ∧ m ≤ rem ∧ q = p + m ∧ (s.nodeAt f).leaf = true ∧
      Descends s.node h (s.payloadBits p m) f := by
  induction rem generalizing p h with
  | zero => simp [State.walk] at e
  | succ rem ih =>
    unfold State.walk at e
    simp only at e
    split at e
    · simp at e
    · next hc =>
      have one (q : Nat) : s.payloadBits p (q + 1) = s.getbit p :: s.payloadBits (p + 1) q := by
        simp [State.payloadBits, List.range_succ_eq_map, Function.comp_def, Nat.add_assoc, Nat.add_comm 1]
      split at e
      · next hl =>
        injection e with e1 e2
        subst e1 e2
        refine ⟨1, le_refl _, by omega, rfl, hl, ?_⟩
        rw [one 0]
        exact .down h _ _ _ inner hc (.here _)
      · next hl =>
        obtain ⟨m, h1, h2, h3, h4, h5⟩ := ih (by simpa using hl) e
        refine ⟨m + 1, by omega, by omega, by omega, h4, ?_⟩
        rw [one m]
        exact .down h _ _ _ inner hc h5

/-- Conversely: where the next bits spell a path to a leaf, the walk ends there. -/
theorem walk_of_descends {s : State} {h f : Handle} {bs : List Bool} (d : Descends s.node h bs f)
    (leaf : (s.nodeAt f).leaf = true) (nonempty : bs ≠ []) {rem p : Nat} (fits : bs.length ≤ rem)
    (spelt : s.payloadBits p bs.length = bs) : s.walk rem p h = .leaf f (p + bs.length) := by
  induction d generalizing rem p with
  | here h => exact absurd rfl nonempty
  | down h f b bs inner real rest ih =>
    obtain ⟨rem, rfl⟩ : ∃ r, rem = r + 1 := ⟨rem - 1, by simp at fits; omega⟩
    have one : s.payloadBits p (bs.length + 1) = s.getbit p :: s.payloadBits (p + 1) bs.length := by
      simp [State.payloadBits, List.range_succ_eq_map, Function.comp_def, Nat.add_assoc, Nat.add_comm 1]
    rw [List.length_cons, one] at spelt
    obtain ⟨hb, hbs⟩ := List.cons.inj spelt
    unfold State.walk
    simp only [hb]
    have real' : (s.nodeAt h).child b ≠ NIL := real
    rw [if_neg real']
    cases bs with
    | nil =>
      cases rest
      have leaf' : (s.nodeAt ((s.nodeAt h).child b)).leaf = true := leaf
      rw [if_pos leaf']
      rfl
    | cons c cs =>
      have inner' : (s.nodeAt ((s.nodeAt h).child b)).leaf = false := by
        cases rest; assumption
      rw [if_neg (by simp [inner'])]
      have e := ih leaf (by simp) (rem := rem) (p := p + 1) (by simpa using fits) hbs
      rw [show (s.nodeAt h).child b = (nodeAt s.node h).child b from rfl, e]
      congr 1
      simp only [List.length_cons]
      omega

end Sys2Proof.Machine
end

