-- ==== Sys2Proof/Laws/Table.lean ====
section
/-! SUPPORT. Reading and writing the tables FREQ, NODE, HEAP and CODE: read after write, and the lists
`allSymbols` over which TINIT and the derived values run. -/

namespace Sys2Proof.Machine

variable {α : Type} {n : Nat}

theorem tableGet_of_lt (t : Vector α n) (d : α) {i : Nat} (h : i < n) : tableGet t d i = t[i] := by
  simp [tableGet, h]

theorem tableGet_of_ge (t : Vector α n) (d : α) {i : Nat} (h : n ≤ i) : tableGet t d i = d := by
  simp [tableGet, h]

theorem tableGet_tableSet (t : Vector α n) (d x : α) (i j : Nat) :
    tableGet (tableSet t i x) d j = if i = j ∧ i < n then x else tableGet t d j := by
  unfold tableGet tableSet
  rw [Vector.getElem?_setIfInBounds]
  by_cases hij : i = j
  · subst hij
    by_cases hi : i < n
    · simp [hi]
    · simp [hi]
  · simp [hij]

@[simp] theorem tableGet_tableSet_self (t : Vector α n) (d x : α) {i : Nat} (h : i < n) :
    tableGet (tableSet t i x) d i = x := by simp [tableGet_tableSet, h]

theorem tableGet_tableSet_ne (t : Vector α n) (d x : α) {i j : Nat} (h : i ≠ j) :
    tableGet (tableSet t i x) d j = tableGet t d j := by simp [tableGet_tableSet, h]

@[simp] theorem tableGet_replicate (d : α) (i : Nat) : tableGet (Vector.replicate n d) d i = d := by
  unfold tableGet
  by_cases h : i < n
  · simp [h]
  · simp [h]

/-- Two tables with the same entries are the same table. -/
theorem table_ext {t u : Vector α n} (d : α) (h : ∀ i, i < n → tableGet t d i = tableGet u d i) : t = u := by
  apply Vector.ext
  intro i hi
  simpa [tableGet_of_lt _ d hi] using h i hi

/-! ## The four tables -/

@[simp] theorem freqAt_setFreq (s : State) (x y : Sym) (v : Word) :
    (s.setFreq x v).freqAt y = if y = x then v else s.freqAt y := by
  unfold State.freqAt State.setFreq
  rw [tableGet_tableSet]
  have hx : x.toNat < 256 := x.isLt
  by_cases h : y = x
  · simp [h, hx]
  · have : x.toNat ≠ y.toNat := fun e => h (BitVec.eq_of_toNat_eq e.symm)
    simp [h, this]

@[simp] theorem freqAt_clearFreq (s : State) (y : Sym) : s.clearFreq.freqAt y = 0 := by
  simp [State.freqAt, State.clearFreq]

/-- Two FREQ tables that agree at every symbol are the same table. -/
theorem freq_ext {s t : State} (h : ∀ y, s.freqAt y = t.freqAt y) : s.freq = t.freq := by
  apply table_ext 0
  intro i hi
  have e := h (BitVec.ofNat 8 i)
  have hi' : i % 256 = i := Nat.mod_eq_of_lt hi
  simpa [State.freqAt, hi'] using e

theorem nodeAt_tableSet (t : Vector Node 511) (k : Nat) (x : Node) (h : Handle) :
    nodeAt (tableSet t k x) h = if k = h.toNat ∧ k < 511 then x else nodeAt t h :=
  tableGet_tableSet t _ x k h.toNat

theorem heapAt_tableSet (t : Vector Handle 256) (k : Nat) (x : Handle) (i : Nat) :
    heapAt (tableSet t k x) i = if k = i ∧ k < 256 then x else heapAt t i :=
  tableGet_tableSet t _ x k i

/-- What `heapSwap` does: positions i and j change places, the others stay. -/
theorem heapAt_heapSwap (hp : Vector Handle 256) {i j : Nat} (hi : i < 256) (hj : j < 256) (k : Nat) :
    heapAt (heapSwap hp i j) k = if k = j then heapAt hp i else if k = i then heapAt hp j else heapAt hp k := by
  unfold heapSwap
  rw [heapAt_tableSet, heapAt_tableSet]
  by_cases h1 : k = j
  · simp [h1, hj]
  · by_cases h2 : k = i
    · subst h2; simp [h1, hi, Ne.symm h1]
    · simp [h1, h2, Ne.symm h1, Ne.symm h2]

/-! ## The list of all symbols -/

theorem mem_allSymbols (y : Sym) : y ∈ allSymbols := by
  unfold allSymbols
  rw [List.mem_map]
  exact ⟨y.toNat, List.mem_range.mpr y.isLt, by simp⟩

theorem allSymbols_nodup : allSymbols.Nodup := by
  unfold allSymbols
  rw [List.nodup_map_iff_inj_on List.nodup_range]
  intro a ha b hb e
  have := congrArg BitVec.toNat e
  simp only [List.mem_range] at ha hb
  simpa [Nat.mod_eq_of_lt ha, Nat.mod_eq_of_lt hb] using this

@[simp] theorem allSymbols_length : allSymbols.length = 256 := by simp [allSymbols]

/-- `freqEmpty` says what it should: every count is 0 (R28 EMPTY). -/
theorem freqEmpty_iff (s : State) : s.freqEmpty = true ↔ ∀ y, s.freqAt y = 0 := by
  unfold State.freqEmpty
  rw [List.all_eq_true]
  constructor
  · intro h y; simpa using h y (mem_allSymbols y)
  · intro h y _; simp [h y]

end Sys2Proof.Machine
end

