-- ==== Sys2Proof/Laws/Heap.lean ====
section
/-! SUPPORT. What the heap procedures do to the set of handles in the heap and to the table outside it (rules
R122, R123): they only move handles about. -/

namespace Sys2Proof.Machine

/-- The first `n` positions of a heap table. -/
def slots (hp : Vector Handle 256) (n : Nat) : List Handle := (List.range n).map (heapAt hp)

theorem slots_succ (hp : Vector Handle 256) (n : Nat) : slots hp (n + 1) = slots hp n ++ [heapAt hp n] := by
  simp [slots, List.range_succ]

theorem slots_congr {hp hq : Vector Handle 256} {n : Nat} (h : ∀ i, i < n → heapAt hp i = heapAt hq i) :
    slots hp n = slots hq n := by
  unfold slots
  apply List.map_congr_left
  intro i hi
  exact h i (List.mem_range.mp hi)

/-- A swap of two positions below `n` permutes the first `n` positions. -/
theorem slots_heapSwap (hp : Vector Handle 256) {n i j : Nat} (hn : n ≤ 256) (hi : i < n) (hj : j < n) :
    (slots (heapSwap hp i j) n).Perm (slots hp n) := by
  have e : slots (heapSwap hp i j) n = ((List.range n).map (Equiv.swap i j)).map (heapAt hp) := by
    unfold slots
    rw [List.map_map]
    apply List.map_congr_left
    intro k _
    rw [heapAt_heapSwap hp (by omega) (by omega), Function.comp_apply, Equiv.swap_apply_def]
    by_cases h1 : k = j
    · subst h1
      by_cases h2 : k = i
      · simp [h2]
      · simp [h2]
    · by_cases h2 : k = i
      · rw [if_neg h1, if_pos h2, if_pos h2]
      · simp [h1, h2]
  rw [e]
  apply List.Perm.map
  rw [List.perm_ext_iff_of_nodup (List.nodup_range.map (Equiv.swap i j).injective) List.nodup_range]
  intro a
  simp only [List.mem_map, List.mem_range]
  constructor
  · rintro ⟨k, hk, rfl⟩
    rw [Equiv.swap_apply_def]
    split
    · exact hj
    · split
      · exact hi
      · exact hk
  · intro ha
    refine ⟨Equiv.swap i j a, ?_, Equiv.swap_apply_self i j a⟩
    rw [Equiv.swap_apply_def]
    split
    · exact hj
    · split
      · exact hi
      · exact ha

/-- The loop of `heap_insert` permutes the positions below `n`, for any `n` above its start. -/
theorem slots_siftUp (t : Vector Node 511) (fuel : Nat) (hp : Vector Handle 256) {i n : Nat} (hn : n ≤ 256)
    (hi : i < n) : (slots (siftUp t fuel hp i) n).Perm (slots hp n) := by
  induction fuel generalizing hp i with
  | zero => exact .refl _
  | succ fuel ih =>
    unfold siftUp
    split
    · exact .refl _
    · split
      · exact (ih _ (by omega)).trans (slots_heapSwap hp hn hi (by omega))
      · exact .refl _

/-- It touches no position above its start. -/
theorem heapAt_siftUp_gt (t : Vector Node 511) (fuel : Nat) (hp : Vector Handle 256) {i k : Nat} (hi : i < 256)
    (hk : i < k) : heapAt (siftUp t fuel hp i) k = heapAt hp k := by
  induction fuel generalizing hp i with
  | zero => rfl
  | succ fuel ih =>
    unfold siftUp
    split
    · rfl
    · split
      · rw [ih _ (by omega) (by omega), heapAt_heapSwap hp hi (by omega), if_neg (by omega), if_neg (by omega)]
      · rfl

/-- The winner of a round of `heap_extract_min` is the position itself or one of its children below `n`. -/
theorem leastChild_cases (t : Vector Node 511) (n : Nat) (hp : Vector Handle 256) (i : Nat) :
    leastChild t n hp i = i ∨ (i < leastChild t n hp i ∧ leastChild t n hp i < n) := by
  unfold leastChild
  simp only [Bool.and_eq_true, decide_eq_true_eq]
  split <;> split
  · next h => exact .inr ⟨by omega, h.1⟩
  · next h _ => exact .inr ⟨by omega, h.1⟩
  · next h => exact .inr ⟨by omega, h.1⟩
  · exact .inl rfl

/-- The loop of `heap_extract_min` permutes the first `n` positions. -/
theorem slots_siftDown (t : Vector Node 511) (n fuel : Nat) (hp : Vector Handle 256) {i : Nat} (hn : n ≤ 256)
    (hi : i < n) : (slots (siftDown t n fuel hp i) n).Perm (slots hp n) := by
  induction fuel generalizing hp i with
  | zero => exact .refl _
  | succ fuel ih =>
    unfold siftDown
    split
    · exact .refl _
    · next h =>
      rcases leastChild_cases t n hp i with h' | h'
      · exact absurd h' h
      · exact (ih _ h'.2).trans (slots_heapSwap hp hn hi h'.2)

/-- It touches no position at or above `n`. -/
theorem heapAt_siftDown_ge (t : Vector Node 511) (n fuel : Nat) (hp : Vector Handle 256) {i k : Nat} (hn : n ≤ 256)
    (hi : i < n) (hk : n ≤ k) : heapAt (siftDown t n fuel hp i) k = heapAt hp k := by
  induction fuel generalizing hp i with
  | zero => rfl
  | succ fuel ih =>
    unfold siftDown
    split
    · rfl
    · next h =>
      rcases leastChild_cases t n hp i with h' | h'
      · exact absurd h' h
      · rw [ih _ h'.2, heapAt_heapSwap hp (by omega) (by omega), if_neg (by omega), if_neg (by omega)]

/-! ## The two procedures -/

theorem heapInsert_heap (s : State) (h : Handle) : (s.heapInsert h).heap =
    siftUp s.node s.heapn.toNat (tableSet s.heap s.heapn.toNat h) s.heapn.toNat := rfl

/-- `heap_insert` adds exactly its handle to the handles in the heap. -/
theorem slots_heapInsert (s : State) (h : Handle) (hn : s.heapn.toNat < 256) :
    (slots (s.heapInsert h).heap (s.heapn.toNat + 1)).Perm (h :: slots s.heap s.heapn.toNat) := by
  rw [heapInsert_heap]
  refine (slots_siftUp _ _ _ (by omega) (by omega)).trans ?_
  rw [slots_succ, heapAt_tableSet, if_pos ⟨rfl, hn⟩]
  have e : slots (tableSet s.heap s.heapn.toNat h) s.heapn.toNat = slots s.heap s.heapn.toNat := by
    apply slots_congr
    intro i hi
    rw [heapAt_tableSet, if_neg (by omega)]
  rw [e]
  exact List.perm_append_singleton _ _

/-- `heap_insert` leaves the positions past the new last one alone. -/
theorem heapAt_heapInsert_gt (s : State) (h : Handle) (hn : s.heapn.toNat < 256) {k : Nat} (hk : s.heapn.toNat < k) :
    heapAt (s.heapInsert h).heap k = heapAt s.heap k := by
  rw [heapInsert_heap, heapAt_siftUp_gt _ _ _ hn hk, heapAt_tableSet, if_neg (by omega)]

/-- `heap_extract_min` on `n + 1` handles removes exactly the handle at the top. -/
theorem slots_heapWithoutMin (t : Vector Node 511) (n : Nat) (hp : Vector Handle 256) (hn : n < 256) :
    (slots hp (n + 1)).Perm (heapAt hp 0 :: slots (heapWithoutMin t n hp) n) := by
  unfold heapWithoutMin
  split
  · next h => subst h; simp [slots, List.range_succ]
  · next h =>
    obtain ⟨m, rfl⟩ : ∃ m, n = m + 1 := ⟨n - 1, by omega⟩
    refine .trans ?_ ((slots_siftDown t (m + 1) _ _ (i := 0) (by omega) (by omega)).symm.cons _)
    have split_first (hq : Vector Handle 256) (k : Nat) :
        slots hq (k + 1) = heapAt hq 0 :: (List.range k).map (fun i => heapAt hq (i + 1)) := by
      simp [slots, List.range_succ_eq_map, Function.comp_def]
    rw [split_first _ m, heapAt_tableSet, if_pos ⟨rfl, by omega⟩, slots_succ, split_first hp m]
    have e : (List.range m).map (fun i => heapAt (tableSet (tableSet hp (m + 1) NIL) 0 (heapAt hp (m + 1))) (i + 1))
        = (List.range m).map (fun i => heapAt hp (i + 1)) := by
      apply List.map_congr_left
      intro i hi
      have := List.mem_range.mp hi
      rw [heapAt_tableSet, if_neg (by omega), heapAt_tableSet, if_neg (by omega)]
    rw [e, List.cons_append]
    exact (List.perm_append_singleton _ _).cons _

/-- The vacated position holds NIL (R123). -/
theorem heapAt_heapWithoutMin_last (t : Vector Node 511) (n : Nat) (hp : Vector Handle 256) (hn : n < 256) :
    heapAt (heapWithoutMin t n hp) n = NIL := by
  unfold heapWithoutMin
  split
  · rw [heapAt_tableSet, if_pos ⟨rfl, hn⟩]
  · rw [heapAt_siftDown_ge t n n _ (by omega) (by omega) (le_refl n), heapAt_tableSet, if_neg (by omega),
      heapAt_tableSet, if_pos ⟨rfl, hn⟩]

/-- The positions past it are left alone. -/
theorem heapAt_heapWithoutMin_gt (t : Vector Node 511) (n : Nat) (hp : Vector Handle 256) (hn : n < 256) {k : Nat}
    (hk : n < k) : heapAt (heapWithoutMin t n hp) k = heapAt hp k := by
  unfold heapWithoutMin
  split
  · rw [heapAt_tableSet, if_neg (by omega)]
  · rw [heapAt_siftDown_ge t n n _ (by omega) (by omega) (by omega), heapAt_tableSet, if_neg (by omega),
      heapAt_tableSet, if_neg (by omega)]

/-- `h` is in the heap exactly when it is one of the used positions. -/
theorem inHeap_iff (s : State) (h : Handle) : InHeap s h ↔ h ∈ slots s.heap s.heapn.toNat := by
  unfold InHeap slots
  simp only [List.mem_map, List.mem_range]
  rfl

/-- Making a node writes one entry of the arena. -/
theorem nodeAt_newNode (s : State) (x : Node) (h : Handle) (hn : s.nnode ≠ NIL) :
    (s.newNode x).nodeAt h = if h = s.nnode then x else s.nodeAt h := by
  have hlt : s.nnode.toNat < 511 := by
    have h1 : s.nnode.toNat ≠ 511 := fun e => hn (BitVec.eq_of_toNat_eq (by simpa using e))
    have := s.nnode.isLt
    omega
  unfold State.nodeAt State.newNode
  rw [nodeAt_tableSet]
  by_cases e : h = s.nnode
  · simp [e, hlt]
  · have : s.nnode.toNat ≠ h.toNat := fun c => e (BitVec.eq_of_toNat_eq c.symm)
    simp [e, this]

end Sys2Proof.Machine
end

