-- ==== Sys2Proof/Laws/Build.lean ====
section
/-! SUPPORT. What the bodies of the build commands change (rules R124 to R128), and how NNODE and HEAPN move. -/

namespace Sys2Proof.Machine

/-- `t` differs from `s` in the arena, the heap and their counts only. -/
def SameButForest (s t : State) : Prop :=
  t = { s with node := t.node, heap := t.heap, nnode := t.nnode, heapn := t.heapn }

theorem SameButForest.refl (s : State) : SameButForest s s := rfl

theorem SameButForest.trans {s t u : State} (h : SameButForest s t) (k : SameButForest t u) :
    SameButForest s u := by
  unfold SameButForest at *
  rw [k, h]

theorem addLeaf_frame (s : State) (y : Sym) : SameButForest s (s.addLeaf y) := by
  unfold State.addLeaf
  split
  · exact .refl s
  · rfl

theorem addLeaves_frame (ys : List Sym) (s : State) : SameButForest s (ys.foldl State.addLeaf s) := by
  induction ys generalizing s with
  | nil => exact .refl s
  | cons y ys ih => exact (addLeaf_frame s y).trans (ih _)

theorem tmergeBody_frame (s : State) : SameButForest s s.tmergeBody := rfl

theorem mergeAll_frame (fuel : Nat) (s : State) : SameButForest s (s.mergeAll fuel) := by
  induction fuel generalizing s with
  | zero => exact .refl s
  | succ fuel ih =>
    unfold State.mergeAll
    split
    · exact (tmergeBody_frame s).trans (ih _)
    · exact .refl s

/-- TINIT's body writes the arena, the heap, their counts, ROOT and the flags. -/
theorem tinitBody_frame (s : State) : s.tinitBody =
    { s with
      node := s.tinitBody.node, heap := s.tinitBody.heap, nnode := s.tinitBody.nnode, heapn := s.tinitBody.heapn,
      root := NIL, treeValid := false, codeValid := false, heapLive := true } := by
  have h := addLeaves_frame allSymbols s.clearBuild
  unfold SameButForest at h
  exact h

/-- TFIN's body writes the arena, the heap, their counts, ROOT, TREE_VALID and HEAP_LIVE. -/
theorem tfinBody_frame (s : State) : s.tfinBody =
    { s with
      node := s.tfinBody.node, heap := s.tfinBody.heap, nnode := s.tfinBody.nnode, heapn := s.heapn - 1,
      root := s.tfinBody.root, treeValid := true, heapLive := false } := by
  unfold State.tfinBody
  simp only
  split <;> rfl

/-- TBUILD's body writes what TINIT's and TFIN's write. -/
theorem tbuildBody_frame (s : State) : s.tbuildBody =
    { s with
      node := s.tbuildBody.node, heap := s.tbuildBody.heap, nnode := s.tbuildBody.nnode,
      heapn := s.tbuildBody.heapn, root := s.tbuildBody.root, treeValid := true, codeValid := false,
      heapLive := false } := by
  have h3 := tfinBody_frame (s.tinitBody.mergeAll s.tinitBody.heapn.toNat)
  have h2 := mergeAll_frame s.tinitBody.heapn.toNat s.tinitBody
  unfold SameButForest at h2
  have h1 := tinitBody_frame s
  unfold State.tbuildBody
  generalize s.tinitBody.heapn.toNat = k at *
  generalize s.tinitBody = t1 at *
  generalize State.mergeAll k t1 = t2 at *
  generalize t2.tfinBody = t3 at *
  rw [h3, h2, h1]

/-! ## Counts -/

theorem heapn_addLeaf (s : State) (y : Sym) :
    (s.addLeaf y).heapn = if s.freqAt y = 0 then s.heapn else s.heapn + 1 := by
  unfold State.addLeaf
  split <;> rfl

theorem nnode_addLeaf (s : State) (y : Sym) :
    (s.addLeaf y).nnode = if s.freqAt y = 0 then s.nnode else s.nnode + 1 := by
  unfold State.addLeaf
  split <;> rfl

theorem freqAt_addLeaf (s : State) (x y : Sym) : (s.addLeaf x).freqAt y = s.freqAt y := by
  unfold State.freqAt
  rw [addLeaf_frame s x]

/-- TINIT's loop adds one to NNODE and HEAPN for each present symbol. -/
theorem counts_addLeaves (ys : List Sym) (s : State) :
    (ys.foldl State.addLeaf s).heapn = s.heapn + BitVec.ofNat 9 (ys.countP (fun y => s.freqAt y != 0)) ∧
    (ys.foldl State.addLeaf s).nnode = s.nnode + BitVec.ofNat 9 (ys.countP (fun y => s.freqAt y != 0)) := by
  induction ys generalizing s with
  | nil => simp
  | cons y ys ih =>
    have h := ih (s.addLeaf y)
    simp only [freqAt_addLeaf] at h
    rw [List.foldl_cons, h.1, h.2, heapn_addLeaf, nnode_addLeaf, List.countP_cons]
    by_cases e : s.freqAt y = 0
    · simp [e]
    · have one : BitVec.ofNat 9 (ys.countP (fun y => s.freqAt y != 0) + 1) =
          BitVec.ofNat 9 (ys.countP (fun y => s.freqAt y != 0)) + 1 := by
        rw [BitVec.ofNat_add]; rfl
      simp only [e, if_false, bne_iff_ne, ne_eq, not_false_eq_true, if_true, one]
      constructor <;> ac_rfl

/-- NNODE = HEAPN = NSYM after TINIT's body (R124). -/
theorem counts_tinitBody (s : State) :
    s.tinitBody.heapn = BitVec.ofNat 9 s.nsym ∧ s.tinitBody.nnode = BitVec.ofNat 9 s.nsym := by
  have h := counts_addLeaves allSymbols s.clearBuild
  simp only [clearBuild_heapn, clearBuild_nnode, zero_add] at h
  exact h

theorem nsym_le (s : State) : s.nsym ≤ 256 := by
  unfold State.nsym
  exact (List.countP_le_length).trans (le_of_eq allSymbols_length)

theorem heapn_tinitBody (s : State) : s.tinitBody.heapn.toNat = s.nsym := by
  rw [(counts_tinitBody s).1, BitVec.toNat_ofNat, Nat.mod_eq_of_lt]
  have := nsym_le s
  omega

/-- NSYM is 0 exactly when the table is empty (R28). -/
theorem nsym_eq_zero (s : State) : s.nsym = 0 ↔ s.freqEmpty = true := by
  rw [freqEmpty_iff]
  unfold State.nsym
  rw [List.countP_eq_zero]
  constructor
  · intro h y; simpa using h y (mem_allSymbols y)
  · intro h y _; simp [h y]

theorem heapn_tmergeBody (s : State) : s.tmergeBody.heapn = s.heapn - 1 - 1 + 1 := rfl

theorem nnode_tmergeBody (s : State) : s.tmergeBody.nnode = s.nnode + 1 := rfl

/-- A merge takes one handle off the heap (R125). -/
theorem heapn_tmergeBody_toNat (s : State) (h : 2 ≤ s.heapn.toNat) :
    s.tmergeBody.heapn.toNat = s.heapn.toNat - 1 := by
  rw [heapn_tmergeBody]
  have := s.heapn.isLt
  have one : (1 : BitVec 9).toNat = 1 := rfl
  simp only [BitVec.toNat_add, BitVec.toNat_sub, one]
  omega

/-- The merges of TBUILD end with one handle in the heap (R128). -/
theorem heapn_mergeAll (fuel : Nat) (s : State) (h1 : 1 ≤ s.heapn.toNat) (h2 : s.heapn.toNat ≤ fuel + 1) :
    (s.mergeAll fuel).heapn.toNat = 1 := by
  induction fuel generalizing s with
  | zero => unfold State.mergeAll; omega
  | succ fuel ih =>
    unfold State.mergeAll
    split
    · next h =>
      have e := heapn_tmergeBody_toNat s (by omega)
      exact ih _ (by omega) (by omega)
    · omega

/-- TBUILD leaves the heap empty (R128). -/
theorem heapn_tbuildBody (s : State) (h : s.freqEmpty = false) : s.tbuildBody.heapn = 0 := by
  have pos : s.nsym ≠ 0 := fun e => by simp [(nsym_eq_zero s).mp e] at h
  have one := heapn_mergeAll s.tinitBody.heapn.toNat s.tinitBody (by rw [heapn_tinitBody]; omega) (by omega)
  unfold State.tbuildBody
  rw [tfinBody_frame]
  have e : (s.tinitBody.mergeAll s.tinitBody.heapn.toNat).heapn = 1 := BitVec.eq_of_toNat_eq (by simpa using one)
  simp [e]

end Sys2Proof.Machine
end

