-- ==== Sys2Proof/Laws/Exec.lean ====
section
/-! SUPPORT. What a command can do (rules R192, R193): it raises one of the errors of its rule, with no other
effect, or it has its own effect. -/

namespace Sys2Proof.Machine

/-- The effect of a command that succeeds. -/
def effect : Instr → State → State
  | .nop, s => s.done
  | .fclr, s => s.clearFreq.done
  | .facc sym, s => (s.setFreq sym (s.freqAt sym + 1)).done
  | .tinit, s => s.tinitBody.done
  | .tmerge, s => s.tmergeBody.done
  | .tfin, s => s.tfinBody.done
  | .tbuild, s => s.tbuildBody.done
  | .cgen, s => s.fillCode.done
  | .prst, s => { s with bitcnt := 0, rdpos := 0 }.done
  | .pput n, s => (s.putBits s.argBit n).done
  | .psym sym, s => (s.putBits (s.codeBit sym) (s.codeLen sym)).done
  | .urst, s => { s with rdpos := 0 }.done
  | .uget n, s => { s with data := s.getBits s.rdpos.toNat n 0, rdpos := s.rdpos + BitVec.ofNat 32 n }.done
  | .usym, s =>
    match s.walkFromRoot with
    | .stuck => s
    | .leaf h p => { s with data := (s.nodeAt h).sym.setWidth 32, rdpos := BitVec.ofNat 32 p }.done
  | .srst, s => s.softReset.done

/-- When a command succeeds: the conditions of its rule, on the state and the operands alone. -/
def Succeeds : Instr → State → Prop
  | .nop, _ | .fclr, _ | .prst, _ | .urst, _ | .srst, _ => True
  | .facc sym, s => s.freqAt sym ≠ 0xFFFFFFFF#32
  | .tinit, s | .tbuild, s => s.freqEmpty = false
  | .tmerge, s => s.heapLive = true ∧ 2 ≤ s.heapn.toNat
  | .tfin, s => s.heapLive = true ∧ s.heapn.toNat = 1
  | .cgen, s => s.treeValid = true ∧ (s.nodeAt s.root).leaf = false
  | .pput n, s => s.overflows n = false
  | .psym sym, s => s.codeValid = true ∧ (s.codeAt sym).valid = true ∧ s.overflows (s.codeLen sym) = false
  | .uget n, s => s.rdpos.toNat + n ≤ s.bitcnt.toNat
  | .usym, s => s.treeValid = true ∧ s.rdpos ≠ s.bitcnt ∧ s.walkFromRoot ≠ .stuck

/-- The errors the rule of a command names (R191). -/
def mayRaise : Instr → List CmdError
  | .nop | .fclr | .prst | .urst | .srst => []
  | .facc _ => [.countOverflow]
  | .tinit | .tbuild => [.invalidInput]
  | .tmerge | .tfin => [.sequenceError]
  | .cgen => [.sequenceError, .invalidTree]
  | .pput _ => [.payloadOverflow]
  | .psym _ => [.sequenceError, .noCode, .payloadOverflow]
  | .uget _ => [.endOfStream]
  | .usym => [.sequenceError, .endOfStream, .decodeError]

/-- Once for every command: it succeeds with its effect exactly under its conditions, and else raises one of
its errors. -/
theorem exec_cases (i : Instr) (s : State) :
    (Succeeds i s ∧ exec i s = .next (effect i s)) ∨
    (¬Succeeds i s ∧ ∃ e ∈ mayRaise i, exec i s = .next (s.raise e)) := by
  cases i with
  | nop => exact .inl ⟨trivial, rfl⟩
  | fclr => exact .inl ⟨trivial, rfl⟩
  | prst => exact .inl ⟨trivial, rfl⟩
  | urst => exact .inl ⟨trivial, rfl⟩
  | srst => exact .inl ⟨trivial, rfl⟩
  | facc sym =>
    simp only [exec, execFacc, Succeeds, effect, mayRaise]
    split <;> simp_all
  | tinit =>
    simp only [exec, execTinit, Succeeds, effect, mayRaise]
    split <;> simp_all
  | tbuild =>
    simp only [exec, execTbuild, Succeeds, effect, mayRaise]
    split <;> simp_all
  | tmerge =>
    simp only [exec, execTmerge, Succeeds, effect, mayRaise]
    by_cases h : s.heapLive = false ∨ s.heapn.toNat < 2
    · rw [if_pos h]
      refine .inr ⟨fun c => ?_, _, by simp, rfl⟩
      rcases h with h | h
      · simp [h] at c
      · omega
    · rw [if_neg h]
      rw [not_or] at h
      exact .inl ⟨⟨by simpa using h.1, by omega⟩, rfl⟩
  | tfin =>
    simp only [exec, execTfin, Succeeds, effect, mayRaise]
    by_cases h : s.heapLive = false ∨ s.heapn.toNat ≠ 1
    · rw [if_pos h]
      refine .inr ⟨fun c => ?_, _, by simp, rfl⟩
      rcases h with h | h
      · simp [h] at c
      · exact h c.2
    · rw [if_neg h]
      rw [not_or] at h
      exact .inl ⟨⟨by simpa using h.1, by omega⟩, rfl⟩
  | cgen =>
    simp only [exec, execCgen, Succeeds, effect, mayRaise]
    split
    · simp_all
    · split <;> simp_all
  | pput n =>
    simp only [exec, execPput, Succeeds, effect, mayRaise]
    split <;> simp_all
  | psym sym =>
    simp only [exec, execPsym, Succeeds, effect, mayRaise]
    split
    · simp_all
    · split
      · simp_all
      · split <;> simp_all
  | uget n =>
    simp only [exec, execUget, Succeeds, effect, mayRaise]
    split
    · next h => exact .inr ⟨by omega, _, by simp, rfl⟩
    · next h => exact .inl ⟨by omega, rfl⟩
  | usym =>
    simp only [exec, execUsym, Succeeds, effect, mayRaise]
    split
    · simp_all
    · split
      · simp_all
      · split <;> simp_all

/-- No code is 0, so RESULT tells a failed command from a successful one (R191). -/
theorem code_ne_zero (e : CmdError) : e.code ≠ 0 := by cases e <;> decide

/-- An error as the spec's number: RESULT and one bit of ERRS (R193). -/
theorem raise_eq_raised (s : State) (e : CmdError) : s.raise e = raised s e.code.toNat := by
  unfold State.raise raised CmdError.bit
  simp

end Sys2Proof.Machine
end

