-- ==== Sys2Proof/Laws/Bus.lean ====
section
/-! SUPPORT. The address map both ways (rules R30, R61), and everything a step can do (R66, R67, R220). -/

namespace Sys2Proof.Machine

/-- The address of a register (R30). -/
def regAddr : Reg → Word
  | .id => 0x00 | .cmd => 0x04 | .arg => 0x08 | .data => 0x0C
  | .result => 0x10 | .status => 0x14 | .errs => 0x18 | .nsym => 0x1C
  | .totalLo => 0x20 | .totalHi => 0x24 | .nnode => 0x28 | .root => 0x2C
  | .heapn => 0x30 | .bitcnt => 0x34 | .rdpos => 0x38 | .paycap => 0x3C

@[simp] theorem placeOf_regAddr (c : Nat) (r : Reg) : placeOf c (regAddr r) = some (.reg r) := by
  cases r <;> rfl

/-- A register stands at its own address only. -/
theorem placeOf_reg {c : Nat} {addr : Word} {r : Reg} (h : placeOf c addr = some (.reg r)) : addr = regAddr r := by
  unfold placeOf at h
  simp only at h
  split at h
  · simp at h
  · next h4 =>
    split at h
    · next hlt =>
      apply BitVec.eq_of_toNat_eq
      obtain ⟨k, hk⟩ : ∃ k, addr.toNat = 4 * k := ⟨addr.toNat / 4, by omega⟩
      have hk16 : k < 16 := by omega
      have hdiv : addr.toNat / 4 = k := by omega
      rw [hdiv] at h
      rw [hk]
      interval_cases k <;> simp [regMap] at h <;> subst h <;> rfl
    · repeat' split at h
      all_goals simp at h

/-- Where a place of the PAY window stands. -/
theorem placeOf_pay {c a : Nat} {addr : Word} (h : placeOf c addr = some (.pay a)) :
    addr.toNat = 0x10000 + a ∧ a % 4 = 0 ∧ a < c := by
  unfold placeOf at h
  simp only at h
  split at h
  · simp at h
  · next h4 =>
    split at h
    · simp at h
    · repeat' split at h
      all_goals simp at h
      subst h
      omega

/-- Everything a served input can do to the state `u` it finds (R66, R67, R220). -/
inductive Served (u : State) : HostInput → State → Prop where
  | reset : Served u .hardReset u.hardReset
  | read (addr : Word) : Served u (.txn (.read addr)) (u.respond (u.hostRead addr))
  | refusedWrite (addr v : Word) : Served u (.txn (.write addr v)) (u.respond .busError)
  | command (v : Word) (t : State) (h : runWord v u = .next t) :
      Served u (.txn (.write (regAddr .cmd) v)) (t.respond .ok)
  | writeArg (v : Word) : Served u (.txn (.write (regAddr .arg) v)) ({ u with arg := v }.respond .ok)
  | writeErrs (v : Word) :
      Served u (.txn (.write (regAddr .errs) v)) ({ u with errs := u.errs &&& ~~~v }.respond .ok)
  | writeBitcnt (v : Word) (h : v.toNat ≤ u.capBits) :
      Served u (.txn (.write (regAddr .bitcnt) v)) ({ u with bitcnt := v, rdpos := 0 }.respond .ok)
  | writeFreq (addr v : Word) (i : Nat) (h : placeOf u.cfg.payCap addr = some (.freq i)) :
      Served u (.txn (.write addr v)) ({ u with freq := tableSet u.freq i v }.respond .ok)
  | writePay (addr v : Word) (a : Nat) (h : placeOf u.cfg.payCap addr = some (.pay a)) :
      Served u (.txn (.write addr v)) ((u.writePay a v).respond .ok)

theorem serve_next {x : HostInput} {u t : State} (h : serve x u = .next t) : Served u x t := by
  cases x with
  | hardReset => cases h; exact .reset
  | txn x =>
    cases x with
    | read addr => cases h; exact .read addr
    | write addr v =>
      simp only [serve] at h
      unfold hostWrite at h
      split at h
      · next hp =>
        rw [placeOf_reg hp]
        cases hr : runWord v u with
        | next w => rw [hr] at h; cases h; exact .command v w hr
        | fault f => rw [hr] at h; cases h
        | refused f => rw [hr] at h; cases h
      · next hp => cases h; rw [placeOf_reg hp]; exact .writeArg v
      · next hp => cases h; rw [placeOf_reg hp]; exact .writeErrs v
      · next hp =>
        split at h
        · cases h; exact .refusedWrite addr v
        · next hle => cases h; rw [placeOf_reg hp]; exact .writeBitcnt v (by omega)
      · next i hp => cases h; exact .writeFreq addr v i hp
      · next a hp => cases h; exact .writePay addr v a hp
      all_goals cases h; exact .refusedWrite addr v

/-- Once for every step: it holds an idle block, or serves the first input of the host. -/
theorem step_cases {s t : State} (h : step s = .next t) :
    (s.bus = [] ∧ t = s) ∨ ∃ x rest, s.bus = x :: rest ∧ Served { s with bus := rest } x t := by
  unfold step at h
  split at h
  · next hb => cases h; exact .inl ⟨hb, rfl⟩
  · next x rest hb => exact .inr ⟨x, rest, hb, serve_next h⟩

/-- Once for every word written to CMD (R100, R94): IllegalCommand, or the decoded command's two cases. -/
theorem runWord_cases (w : Word) (s : State) :
    ((∀ i, decode w ≠ .ok i) ∧ runWord w s = .next (s.raise .illegalCommand)) ∨
    ∃ i, decode w = .ok i ∧
      ((Succeeds i s ∧ runWord w s = .next (effect i s)) ∨
        (¬Succeeds i s ∧ ∃ e ∈ mayRaise i, runWord w s = .next (s.raise e))) := by
  unfold runWord
  cases h : decode w with
  | ok i => exact .inr ⟨i, rfl, exec_cases i s⟩
  | error r => exact .inl ⟨by simp, rfl⟩

end Sys2Proof.Machine
end

