-- ==== Sys2Proof/Laws/CodeTable.lean ====
section
/-! SUPPORT. What the traversal of CGEN can write (rules R140, R142): every entry it leaves is the one that stood
there, or spells a path of the tree from a handle on its stack down to a leaf. -/

namespace Sys2Proof.Machine

/-- A visit carried down along the bits `bs` (R142): one more bit of length for each, 0 to the left, 1 to the
right. -/
def Visit.along (v : Visit) (bs : List Bool) : CodeEntry :=
  ⟨true, BitVec.ofNat 8 (v.len + bs.length), bs.foldl (fun c b => if b then c <<< 1 ||| 1 else c <<< 1) v.bits⟩

theorem along_nil (v : Visit) : v.along [] = codeEntry v := rfl

/-- A child pushed by `childVisits` is the child along one bit, and carrying it on is carrying its parent one bit
further. -/
theorem childVisits_along {x : Node} {v u : Visit} (h : u ∈ childVisits x v) :
    ∃ b, x.child b = u.h ∧ u.h ≠ NIL ∧ ∀ bs, u.along bs = v.along (b :: bs) := by
  unfold childVisits at h
  rw [List.mem_append] at h
  rcases h with h | h
  · split at h
    · simp at h
    · next hn =>
      simp only [List.mem_singleton] at h
      subst h
      refine ⟨false, rfl, hn, fun bs => ?_⟩
      simp [Visit.along, Nat.add_assoc, Nat.add_comm 1]
  · split at h
    · simp at h
    · next hn =>
      simp only [List.mem_singleton] at h
      subst h
      refine ⟨true, rfl, hn, fun bs => ?_⟩
      simp [Visit.along, Nat.add_assoc, Nat.add_comm 1]

/-- Everything the traversal can leave at entry `k` (R141, R142). -/
theorem cgenWalk_entry (t : Vector Node 511) (fuel : Nat) (stack : List Visit) (code : Vector CodeEntry 256)
    (k : Nat) :
    tableGet (cgenWalk t fuel stack code) CodeEntry.absent k = tableGet code CodeEntry.absent k ∨
    ∃ v ∈ stack, ∃ bs f, Descends t v.h bs f ∧ (nodeAt t f).leaf = true ∧ (nodeAt t f).sym.toNat = k ∧
      tableGet (cgenWalk t fuel stack code) CodeEntry.absent k = v.along bs := by
  induction fuel generalizing stack code with
  | zero => exact .inl rfl
  | succ fuel ih =>
    cases stack with
    | nil => exact .inl rfl
    | cons v stack =>
      unfold cgenWalk
      split
      · next hl =>
        rcases ih stack (tableSet code (nodeAt t v.h).sym.toNat (codeEntry v)) with h | ⟨u, hu, bs, f, h⟩
        · rw [h, tableGet_tableSet]
          split
          · next hk => exact .inr ⟨v, by simp, [], v.h, .here _, hl, hk.1, rfl⟩
          · exact .inl rfl
        · exact .inr ⟨u, by simp [hu], bs, f, h⟩
      · next hl =>
        rcases ih (childVisits (nodeAt t v.h) v ++ stack) code with h | ⟨u, hu, bs, f, h1, h2, h3, h4⟩
        · exact .inl h
        · rw [List.mem_append] at hu
          rcases hu with hu | hu
          · obtain ⟨b, hb, hn, ha⟩ := childVisits_along hu
            refine .inr ⟨v, by simp, b :: bs, f, ?_, h2, h3, by rw [h4, ha]⟩
            exact .down _ _ _ _ (by simpa using hl) (by rw [hb]; exact hn) (by rw [hb]; exact h1)
          · exact .inr ⟨u, by simp [hu], bs, f, h1, h2, h3, h4⟩

/-- Every entry CGEN leaves valid is the code of its symbol in the tree (R140, R141). -/
theorem codeAt_fillCode (s : State) (sym : Sym) :
    s.fillCode.codeAt sym = CodeEntry.absent ∨
    ∃ bs, IsCode s sym bs ∧ s.fillCode.codeAt sym = (Visit.mk s.root 0 0).along bs := by
  rcases cgenWalk_entry s.node 511 [⟨s.root, 0, 0⟩] (Vector.replicate 256 CodeEntry.absent) sym.toNat with
    h | ⟨v, hv, bs, f, h1, h2, h3, h4⟩
  · rw [tableGet_replicate] at h
    exact .inl h
  · rw [List.mem_singleton] at hv
    subst hv
    exact .inr ⟨bs, ⟨f, h1, h2, BitVec.eq_of_toNat_eq h3⟩, h4⟩

end Sys2Proof.Machine
end

