-- ==== Sys2Proof/Laws/PerInstr.lean ====
section
/-! SUPPORT. Made command by command, for the case split over `Instr`: the encoded word of a well-formed command
matches a row of the opcode table, and that row's operands give the command back (rules R91 to R93). -/

namespace Sys2Proof.Laws.Encoding

/-- The word of `i` matches a row of R93 from which `i` is assembled again. -/
def Statement (i : Instr) : Prop :=
  i.wellFormed = true → ∃ r ∈ opTable, r.matches (encode i) = true ∧ assemble r.op (encode i) = i

/-- A symbol put in the field SYM is read back, and no bit of the row is disturbed (R92). -/
theorem sym_row (base : Word) (h : base.extractLsb' 0 8 = 0) (sym : Sym) :
    withSym base sym &&& 0xFFFFFF00 = base ∧ symField (withSym base sym) = sym := by
  have hb (i : Nat) (hi : i < 8) : base.getLsbD i = false := by
    have := congrArg (fun x => x.getLsbD i) h
    simpa [hi] using this
  have hm : ∀ i < 32, (0xFFFFFF00 : Word).getLsbD i = decide (8 ≤ i) := by decide
  constructor
  · apply BitVec.eq_of_getLsbD_eq
    intro i hi
    rw [BitVec.getLsbD_and, hm i hi]
    unfold withSym
    rw [BitVec.getLsbD_or, BitVec.getLsbD_setWidth]
    by_cases h8 : 8 ≤ i
    · simp [h8]
    · simp [h8, hb i (by omega)]
  · apply BitVec.eq_of_getLsbD_eq
    intro i hi
    unfold symField withSym
    have h32 : i < 32 := by omega
    simp only [BitVec.getLsbD_extractLsb', BitVec.getLsbD_or, BitVec.getLsbD_setWidth, Nat.zero_add, hb i hi]
    simp [hi, h32]

/-- A bit count put in the field NM1 is read back (R92). -/
theorem count_row (base : Word) (h : base.extractLsb' 8 5 = 0) :
    ∀ n, wellFormedCount n = true → nm1Field (withCount base n) = BitVec.ofNat 5 (n - 1) := by
  intro n _
  have hb (i : Nat) (hi : i < 5) : base.getLsbD (8 + i) = false := by
    have := congrArg (fun x => x.getLsbD i) h
    simpa [hi] using this
  apply BitVec.eq_of_getLsbD_eq
  intro i hi
  unfold nm1Field withCount
  have h32 : 8 + i < 32 := by omega
  have h32' : i < 32 := by omega
  simp only [BitVec.getLsbD_extractLsb', BitVec.getLsbD_or, BitVec.getLsbD_shiftLeft, BitVec.getLsbD_setWidth,
    hb i hi]
  simp [hi, h32, h32']

theorem count_assemble (base : Word) (h : base.extractLsb' 8 5 = 0) {n : Nat} (wf : wellFormedCount n = true) :
    countField (withCount base n) = n := by
  unfold countField
  rw [count_row base h n wf]
  simp only [wellFormedCount, Bool.and_eq_true, decide_eq_true_eq] at wf
  rw [BitVec.toNat_ofNat]
  omega

theorem nop : Statement .nop := fun _ => ⟨⟨.nop, 0x00000000, 0xFFFFFFFF⟩, by decide, by decide, rfl⟩
theorem fclr : Statement .fclr := fun _ => ⟨⟨.fclr, 0x10000000, 0xFFFFFFFF⟩, by decide, by decide, rfl⟩
theorem facc (sym : Sym) : Statement (.facc sym) := fun _ =>
  ⟨⟨.facc, 0x11000000, 0xFFFFFF00⟩, by decide, by
    have h := sym_row 0x11000000 (by decide) sym
    exact ⟨by simpa [OpRow.matches, encode] using h.1, by simpa [assemble, encode] using h.2⟩⟩
theorem tinit : Statement .tinit := fun _ => ⟨⟨.tinit, 0x20000000, 0xFFFFFFFF⟩, by decide, by decide, rfl⟩
theorem tmerge : Statement .tmerge := fun _ => ⟨⟨.tmerge, 0x21000000, 0xFFFFFFFF⟩, by decide, by decide, rfl⟩
theorem tfin : Statement .tfin := fun _ => ⟨⟨.tfin, 0x22000000, 0xFFFFFFFF⟩, by decide, by decide, rfl⟩
theorem tbuild : Statement .tbuild := fun _ => ⟨⟨.tbuild, 0x23000000, 0xFFFFFFFF⟩, by decide, by decide, rfl⟩
theorem cgen : Statement .cgen := fun _ => ⟨⟨.cgen, 0x30000000, 0xFFFFFFFF⟩, by decide, by decide, rfl⟩
theorem prst : Statement .prst := fun _ => ⟨⟨.prst, 0x40000000, 0xFFFFFFFF⟩, by decide, by decide, rfl⟩
theorem pput (n : Nat) : Statement (.pput n) := fun wf =>
  ⟨⟨.pput, 0x41000000, 0xFFFFE0FF⟩, by decide, by
    have h := count_assemble 0x41000000 (by decide) (n := n) wf
    refine ⟨?_, by simpa [assemble, encode] using h⟩
    have all : ∀ c : BitVec 5, (0x41000000#32 ||| c.setWidth 32 <<< 8) &&& 0xFFFFE0FF = 0x41000000 := by decide
    simpa [OpRow.matches, encode, withCount] using all (BitVec.ofNat 5 (n - 1))⟩
theorem psym (sym : Sym) : Statement (.psym sym) := fun _ =>
  ⟨⟨.psym, 0x42000000, 0xFFFFFF00⟩, by decide, by
    have h := sym_row 0x42000000 (by decide) sym
    exact ⟨by simpa [OpRow.matches, encode] using h.1, by simpa [assemble, encode] using h.2⟩⟩
theorem urst : Statement .urst := fun _ => ⟨⟨.urst, 0x50000000, 0xFFFFFFFF⟩, by decide, by decide, rfl⟩
theorem uget (n : Nat) : Statement (.uget n) := fun wf =>
  ⟨⟨.uget, 0x51000000, 0xFFFFE0FF⟩, by decide, by
    have h := count_assemble 0x51000000 (by decide) (n := n) wf
    refine ⟨?_, by simpa [assemble, encode] using h⟩
    have all : ∀ c : BitVec 5, (0x51000000#32 ||| c.setWidth 32 <<< 8) &&& 0xFFFFE0FF = 0x51000000 := by decide
    simpa [OpRow.matches, encode, withCount] using all (BitVec.ofNat 5 (n - 1))⟩
theorem usym : Statement .usym := fun _ => ⟨⟨.usym, 0x52000000, 0xFFFFFFFF⟩, by decide, by decide, rfl⟩
theorem srst : Statement .srst := fun _ => ⟨⟨.srst, 0xFF000000, 0xFFFFFFFF⟩, by decide, by decide, rfl⟩

end Sys2Proof.Laws.Encoding
end

