-- ==== Sys2Proof/Tests/Slice0.lean ====
section
/-! SUPPORT. Tests of the model against the spec's own worked examples (files 30, 95 and 96 of spec/, named at
each test), the smoke test of WellFormed, and for each statement with hypotheses a witness that meets them. -/

namespace Sys2Proof.Tests

open Sys2Proof Sys2Proof.Machine

/-! ## WellFormed: each check refuses an ill-formed term -/

theorem test_wellFormed_refuses_pput_zero : (Instr.pput 0).wellFormed = false := by decide
theorem test_wellFormed_refuses_pput_33 : (Instr.pput 33).wellFormed = false := by decide
theorem test_wellFormed_refuses_uget_zero : (Instr.uget 0).wellFormed = false := by decide
theorem test_wellFormed_refuses_uget_33 : (Instr.uget 33).wellFormed = false := by decide
theorem test_wellFormed_accepts_ends : (Instr.pput 1).wellFormed && (Instr.uget 32).wellFormed = true := by decide

/-! ## Decode: the words of R97 and of 95_test_vectors.md section 2, written out -/

/-- R97, one word for every constructor. -/
theorem test_decode_every_command :
    [0x00000000, 0x10000000, 0x11000061, 0x20000000, 0x21000000, 0x22000000, 0x23000000, 0x30000000, 0x40000000,
      0x41000800, 0x42000062, 0x50000000, 0x51000200, 0x52000000, 0xFF000000].map (decodeTableWord 32) =
    [some .nop, some .fclr, some (.facc 0x61), some .tinit, some .tmerge, some .tfin, some .tbuild, some .cgen,
      some .prst, some (.pput 9), some (.psym 0x62), some .urst, some (.uget 3), some .usym, some .srst] := by
  decide

/-- R91: OPC 0x41 = 01000001, Z = 00000000000, NM1 = 11111, SYM = 00000000, bit by bit. -/
theorem test_decode_pput_bits : decode 0b01000001000000000001111100000000 = .ok (.pput 32) := by decide
/-- R91: OPC 0x51 = 01010001, NM1 = 00000. -/
theorem test_decode_uget_bits : decode 0b01010001000000000000000000000000 = .ok (.uget 1) := by decide
/-- R91: OPC 0x42 = 01000010, SYM = 11111111. -/
theorem test_decode_psym_bits : decode 0b01000010000000000000000011111111 = .ok (.psym 0xFF) := by decide

/-- 95_test_vectors.md section 2: the words marked illegal. -/
theorem test_decode_illegal_words :
    [0x00000001, 0x01000000, 0x10000001, 0x11000100, 0x11002000, 0x11800061, 0x12000000, 0x1F000000, 0x20001000,
      0x24000000, 0x31000000, 0x41002000, 0x41000001, 0x41010000, 0x42000162, 0x43000000, 0x51001F01, 0x52000100,
      0x53000000, 0x80000000, 0xFE000000, 0xFF0000FF, 0xFFFFFFFF].all
      (fun w => (decodeTableWord 32 w).isNone) = true := by decide

theorem test_decode_names_the_rejection :
    decode 0x24000000 = .error (.unknownOpcode 0x24) ∧ decode 0x10000001 = .error (.reservedBits 0x10) := by decide

/-- No two rows of R93 overlap: two patterns differ in a bit that both masks cover. -/
theorem test_rows_pairwise_disjoint :
    opTable.Pairwise (fun r q => (r.pattern ^^^ q.pattern) &&& r.mask &&& q.mask ≠ 0) := by decide

/-! ## Small states, from the worked example "aabbbc" (95_test_vectors.md section 1.1 and T1) -/

/-- The state after one CMD write of `w`. -/
def after (w : Word) (s : State) : State :=
  match step { s with bus := [.txn (.write 0x04 w)] } with
  | .next t => t
  | .fault _ => s
  | .refused _ => s

/-- FREQ a = 2, b = 3, c = 1. -/
def counted : State := ((State.reset.setFreq 0x61 2).setFreq 0x62 3).setFreq 0x63 1

def leafA : Node := ⟨true, 0x61, 2, NIL, NIL⟩
def leafB : Node := ⟨true, 0x62, 3, NIL, NIL⟩
def leafC : Node := ⟨true, 0x63, 1, NIL, NIL⟩

/-- The arena holding the nodes of a list from handle 0 on. -/
def arenaOf (xs : List Node) : Vector Node 511 :=
  ⟨((xs ++ List.replicate 511 Node.empty).take 511).toArray, by
    rw [List.size_toArray, List.length_take, List.length_append, List.length_replicate]; omega⟩

/-- The heap table holding the handles of a list from position 0 on. -/
def heapOf (hs : List Handle) : Vector Handle 256 :=
  (hs.zipIdx).foldl (fun t x => tableSet t x.2 x.1) (Vector.replicate 256 NIL)

/-- T1 after TINIT. -/
def begun : State :=
  { counted with
    node := arenaOf [leafA, leafB, leafC], nnode := 3, heap := heapOf [2, 1, 0], heapn := 3, heapLive := true }

/-- T1 after two TMERGE. -/
def merged : State :=
  { counted with
    node := arenaOf [leafA, leafB, leafC, ⟨false, 0, 3, 2, 0⟩, ⟨false, 0, 6, 1, 3⟩], nnode := 5,
    heap := heapOf [4], heapn := 1, heapLive := true }

/-- T1 after TFIN. -/
def built : State :=
  { counted with
    node := arenaOf [leafA, leafB, leafC, ⟨false, 0, 3, 2, 0⟩, ⟨false, 0, 6, 1, 3⟩], nnode := 5,
    root := 4, treeValid := true }

/-- T1 after CGEN: a = "11", b = "0", c = "10". -/
def coded : State :=
  { built with
    code := tableSet (tableSet (tableSet (Vector.replicate 256 CodeEntry.absent) 0x61 ⟨true, 2, 3⟩)
      0x62 ⟨true, 1, 0⟩) 0x63 ⟨true, 2, 2⟩
    codeValid := true }

/-- T2 after TINIT: one leaf, a = 4. -/
def lone : State :=
  { State.reset.setFreq 0x61 4 with
    node := arenaOf [⟨true, 0x61, 4, NIL, NIL⟩], nnode := 1, heap := heapOf [0], heapn := 1, heapLive := true }

/-- The payload of "aabbbc": F1 00, 9 bits, beside the tree T1. -/
def loaded : State := { built with pay := [(0, 0xF1), (1, 0x00), (2, 0x00), (3, 0x00)], bitcnt := 9 }

/-! ## At most two small tests a command -/

/-- 95_test_vectors.md section 3.6 (R180): NOP clears RESULT and not ERRS. -/
theorem test_nop :
    let t := after 0x00000000 { State.reset with result := 0x10, errs := 0x00030004 }
    t.result = 0 ∧ t.errs = 0x00030004 := by decide

/-- F6. -/
theorem test_fclr : let t := after 0x10000000 counted; t.freqAt 0x62 = 0 ∧ t.result = 0 := by decide +kernel

/-- F3: the last increment that fits. -/
theorem test_facc :
    let t := after 0x11000041 (State.reset.setFreq 0x41 0xFFFFFFFE)
    t.freqAt 0x41 = 0xFFFFFFFF ∧ t.result = 0 := by decide +kernel
/-- F4: CountOverflow. -/
theorem test_facc_overflow :
    let t := after 0x11000041 (State.reset.setFreq 0x41 0xFFFFFFFF)
    t.freqAt 0x41 = 0xFFFFFFFF ∧ t.result = 0x12 ∧ t.errs = 0x00040000 := by decide +kernel

/-- T1: leaves in ascending symbol order, the lightest on top of the heap. -/
theorem test_tinit :
    let t := after 0x20000000 counted
    (t.heapAt 0, t.heapAt 1, t.heapAt 2, t.heapAt 3) = (2, 1, 0, NIL) ∧ t.nodeAt 2 = leafC := by decide +kernel

/-- T1: the first merge takes c then a. -/
theorem test_tmerge :
    let t := after 0x21000000 begun
    t.nodeAt 3 = ⟨false, 0, 3, 2, 0⟩ ∧ (t.heapAt 0, t.heapAt 1, t.heapAt 2) = (1, 3, NIL) := by decide +kernel
/-- T1: a third merge has nothing to merge with. -/
theorem test_tmerge_one_left :
    let t := after 0x21000000 merged; t.result = 0x11 ∧ t.errs = 0x00020000 := by decide +kernel

/-- T1. -/
theorem test_tfin : let t := after 0x22000000 merged; t.root = 4 ∧ t.heapAt 0 = NIL := by decide +kernel
/-- T2: the wrapper. -/
theorem test_tfin_wrapper :
    let t := after 0x22000000 lone; t.nodeAt 1 = ⟨false, 0, 4, 0, NIL⟩ ∧ t.root = 1 := by decide +kernel

/-- T4 "abcc": the tie at weight 2 goes to the lower handle. -/
theorem test_tbuild :
    let t := after 0x23000000 (((State.reset.setFreq 0x61 1).setFreq 0x62 1).setFreq 0x63 2)
    t.root = 4 ∧ t.nodeAt 4 = ⟨false, 0, 4, 2, 3⟩ := by decide +kernel

/-- 95_test_vectors.md section 3.3, T1. -/
theorem test_cgen :
    let t := after 0x30000000 built
    t.codeAt 0x61 = ⟨true, 2, 3⟩ ∧ t.codeAt 0x62 = ⟨true, 1, 0⟩ ∧ t.codeAt 0x63 = ⟨true, 2, 2⟩ ∧
      t.codeAt 0x64 = ⟨false, 0, 0⟩ := by decide +kernel
/-- G2: no finished tree. -/
theorem test_cgen_no_tree : (after 0x30000000 begun).result = 0x11 := by decide +kernel

/-- R150, example. -/
theorem test_prst :
    let t := after 0x40000000 { State.reset with bitcnt := 9, rdpos := 4 }
    t.bitcnt = 0 ∧ t.rdpos = 0 := by decide

/-- K3: 32 bits over five bytes. -/
theorem test_pput :
    let t := after 0x41001F00
      { State.reset with arg := 0xDEADBEEF, bitcnt := 10, pay := [(0, 0xF1), (1, 0x40), (2, 0xFF), (3, 0xFF)] }
    t.bitcnt = 42 ∧ (List.range 6).map t.payByte = [0xF1, 0x77, 0xAB, 0x6F, 0xBB, 0xC0] := by decide +kernel
/-- M7: two bits do not fit, none is written. -/
theorem test_pput_overflow :
    let t := after 0x41000100 { State.reset with cfg := ⟨4⟩, bitcnt := 31 }
    t.result = 0x14 ∧ t.bitcnt = 31 ∧ t.pay = [] := by decide +kernel

/-- Y1. -/
theorem test_psym : let t := after 0x42000061 coded; t.bitcnt = 2 ∧ t.payByte 0 = 0xC0 := by decide +kernel
/-- Y3: NoCode. -/
theorem test_psym_no_code : let t := after 0x4200007A coded; t.result = 0x13 ∧ t.bitcnt = 0 := by decide +kernel

/-- R165, example. -/
theorem test_urst : let t := after 0x50000000 { loaded with rdpos := 9 }; t.rdpos = 0 ∧ t.bitcnt = 9 := by decide

/-- V: 32 bits from five bytes, DE AD BE EF C0. -/
theorem test_uget :
    let t := after 0x51001F00
      { State.reset with
        pay := [(0, 0xDE), (1, 0xAD), (2, 0xBE), (3, 0xEF), (4, 0xC0)], bitcnt := 34, rdpos := 2 }
    t.data = 0x7AB6FBBF ∧ t.rdpos = 34 := by decide +kernel
/-- U5: the padding bit is not returned. -/
theorem test_uget_end :
    let t := after 0x51000000 { loaded with rdpos := 9, data := 0x56E }
    t.result = 0x15 ∧ t.data = 0x56E ∧ t.rdpos = 9 := by decide +kernel

/-- U8, the sixth symbol: "10" is c. -/
theorem test_usym :
    let t := after 0x52000000 { loaded with rdpos := 7 }; t.data = 0x63 ∧ t.rdpos = 9 := by decide +kernel
/-- U9: with BITCNT = 8 the same bits run out inside a code. -/
theorem test_usym_cut :
    let t := after 0x52000000 { loaded with bitcnt := 8, rdpos := 7, data := 0x62 }
    t.result = 0x05 ∧ t.data = 0x62 ∧ t.rdpos = 7 ∧ t.errs = 0x20 := by decide +kernel

/-- Section 3.6 (R181): everything cleared, PAY kept. -/
theorem test_srst :
    let t := after 0xFF000000 { loaded with errs := 0x20 }
    t.errs = 0 ∧ t.root = NIL ∧ t.freqAt 0x61 = 0 ∧ t.payByte 0 = 0xF1 := by decide +kernel

/-! ## The bus (section 3.6, R65, R68, R69, R73) -/

/-- The NODE window words of T1. -/
theorem test_node_window :
    [0x2000, 0x2008, 0x200C, 0x2048, 0x204C].map built.hostRead =
      [.word 0x2, .word 0x01FF01FF, .word 0x00006103, .word 0x00030001, .word 0x00000002] := by decide +kernel

/-- The CODE window words of 'a', and PAYW[0] of the payload F1 00. -/
theorem test_code_and_pay_windows :
    [0x5840, 0x5860].map coded.hostRead = [.word 0x80000002, .word 0x00000003] ∧
      loaded.hostRead 0x10000 = .word 0x000000F1 := by decide +kernel

/-- BusError addresses. -/
theorem test_bus_errors :
    [0x00006, 0x10001, 0x00040, 0x003FC, 0x00C00, 0x01FFC, 0x03FF0, 0x08000, 0x0FFFC, 0x20000, 0xFFFFFFFC].all
      (fun a => State.reset.hostRead a == .busError) = true := by decide +kernel

/-! ## Witnesses: states and operands that meet the hypotheses of the statements -/

section Witnesses

theorem forall_below {P : Handle → Prop} (k : Nat) (h : ∀ n, n < k → P (BitVec.ofNat 9 n)) (x : Handle)
    (hx : x.toNat < k) : P x := by
  have := h x.toNat hx
  simpa using this

theorem heapAt_replicate (i : Nat) : heapAt (Vector.replicate 256 NIL) i = NIL := tableGet_replicate _ _

theorem regInv_built : RegInv built :=
  ⟨by decide, by decide, by decide, by decide, by decide, by decide, by decide⟩

theorem flagInv_built : FlagInv built :=
  ⟨by decide, by decide, by decide, by decide, by decide, by decide⟩

theorem getD_padded {α : Type} (xs : List α) (d : α) (m i : Nat) (hx : xs.length ≤ m) :
    (((xs ++ List.replicate m d).take m)[i]?).getD d = xs[i]?.getD d := by
  rw [List.getElem?_take]
  by_cases h1 : i < xs.length
  · rw [if_pos (by omega), List.getElem?_append_left h1]
  · rw [List.getElem?_append_right (by omega), List.getElem?_eq_none (by omega : xs.length ≤ i)]
    split
    · simp [(by omega : i - xs.length < m)]
    · rfl

theorem nodeAt_arenaOf (xs : List Node) (hx : xs.length ≤ 511) (h : Handle) :
    Machine.nodeAt (arenaOf xs) h = xs[h.toNat]?.getD Node.empty := by
  unfold Machine.nodeAt tableGet arenaOf
  rw [Vector.getElem?_mk, List.getElem?_toArray, getD_padded xs _ _ _ hx]

theorem nodeAt_of_arenaOf {s : State} (xs : List Node) (hs : s.node = arenaOf xs) (k : Nat)
    (hk : s.nnode.toNat = k) (hx : xs.length = k) : ∀ h, ¬IsNode s h → s.nodeAt h = Node.empty := by
  intro h hn
  have hlt := s.nnode.isLt
  unfold IsNode at hn
  unfold State.nodeAt
  rw [hs, nodeAt_arenaOf xs (by omega)]
  simp [(by omega : xs.length ≤ h.toNat)]

theorem sum_padded (g : Node → Nat) (hg : g Node.empty = 0) (xs : List Node) (m : Nat) (hx : xs.length ≤ m) :
    ((List.range m).map (fun i => g (xs[i]?.getD Node.empty))).sum = (xs.map g).sum := by
  induction xs generalizing m with
  | nil => simp [hg]
  | cons x xs ih =>
    obtain ⟨m, rfl⟩ : ∃ j, m = j + 1 := ⟨m - 1, by simp at hx; omega⟩
    rw [List.range_succ_eq_map]
    simp only [List.map_cons, List.sum_cons, List.map_map, Function.comp_def, List.getElem?_cons_zero,
      Option.getD_some, List.getElem?_cons_succ]
    rw [ih m (by simp at hx; omega)]

theorem leafWeight_of_arenaOf {s : State} (xs : List Node) (hs : s.node = arenaOf xs) (hx : xs.length ≤ 511) :
    leafWeight s = (xs.map (fun x => if x.leaf then x.w.toNat else 0)).sum := by
  rw [← sum_padded (fun x => if x.leaf then x.w.toNat else 0) rfl xs 511 hx]
  unfold leafWeight allHandles State.weight State.nodeAt
  rw [List.map_map, hs]
  refine congrArg List.sum ?_
  apply List.map_congr_left
  intro i hi
  have hi' : i % 512 = i := Nat.mod_eq_of_lt (by have := List.mem_range.1 hi; omega)
  simp [nodeAt_arenaOf xs hx, hi']

theorem heapRest_of {s : State} (h : ∀ i, i < 256 → s.heapn.toNat ≤ i → s.heapAt i = NIL) :
    ∀ i, s.heapn.toNat ≤ i → s.heapAt i = NIL := by
  intro i hi
  by_cases h256 : i < 256
  · exact h i h256 hi
  · exact tableGet_of_ge _ _ (by omega)

theorem topIff_of {s : State} (k : Nat) (hk : s.nnode.toNat = k)
    (h : ∀ n, n < k →
      (Machine.IsTop s (BitVec.ofNat 9 n) ↔ ∀ m, m < k → ¬IsChild s (BitVec.ofNat 9 m) (BitVec.ofNat 9 n))) :
    ∀ h, IsNode s h → (Machine.IsTop s h ↔ ∀ p, ¬IsChild s p h) := by
  intro x hx
  rw [forall_below (P := fun x => Machine.IsTop s x ↔ ∀ m, m < k → ¬IsChild s (BitVec.ofNat 9 m) x) k h x (hk ▸ hx)]
  refine ⟨fun a p hp => ?_, fun a m _ => a _⟩
  have := a p.toNat (hk ▸ hp.1)
  simp only [BitVec.ofNat_toNat, BitVec.setWidth_eq] at this
  exact this hp

/-- No child of the node at `n` is one of the node at `m`, or one of them is a leaf, or n = m. -/
def noClash (s : State) (n m : Nat) : Bool :=
  let x := s.nodeAt (BitVec.ofNat 9 n)
  let y := s.nodeAt (BitVec.ofNat 9 m)
  n == m || x.leaf || y.leaf || [x.left, x.right].all (fun c => c == NIL || (c != y.left && c != y.right))

theorem oneParent_of {s : State} (k : Nat) (hk : s.nnode.toNat = k)
    (h : ∀ n, n < k → ∀ m, m < k → noClash s n m = true) :
    ∀ p q c, IsChild s p c → IsChild s q c → p = q := by
  intro p q c hp hq
  by_contra hne
  have key := h p.toNat (hk ▸ hp.1) q.toNat (hk ▸ hq.1)
  have hn : p.toNat ≠ q.toNat := fun e => hne (BitVec.eq_of_toNat_eq e)
  simp only [noClash, BitVec.ofNat_toNat, BitVec.setWidth_eq, hp.2.1, hq.2.1, hn, beq_iff_eq, Bool.or_eq_true,
    List.all_cons, List.all_nil, Bool.and_eq_true, bne_iff_ne, false_or, or_false, Bool.false_eq_true] at key
  have hc := hp.2.2.1
  rcases hp.2.2.2 with e | e <;> rcases hq.2.2.2 with e' | e' <;> simp_all

/-- What is left to check of the arena made of a list of nodes, at the handles below its length. -/
structure SmallArena (s : State) (xs : List Node) (k l : Nat) : Prop where
  node : s.node = arenaOf xs
  nnode : s.nnode.toNat = k
  length : xs.length = k
  slots : ∀ i, i < s.heapn.toNat → (s.heapAt i).toNat < k
  rest : ∀ i, i < 256 → s.heapn.toNat ≤ i → s.heapAt i = NIL
  distinct : ∀ i, i < s.heapn.toNat → ∀ j, j < s.heapn.toNat → s.heapAt i = s.heapAt j → i = j
  links : ∀ n, n < k →
    let x := s.nodeAt (BitVec.ofNat 9 n)
    if x.leaf then x.left = NIL ∧ x.right = NIL
    else x.sym = 0 ∧ x.left < BitVec.ofNat 9 n ∧ x.right < BitVec.ofNat 9 n ∧ x.left ≠ x.right
  order : ∀ n, n < l → ∀ g, g < n → (s.nodeAt (BitVec.ofNat 9 g)).sym < (s.nodeAt (BitVec.ofNat 9 n)).sym
  clash : ∀ n, n < k → ∀ m, m < k → noClash s n m = true
  top : ∀ n, n < k →
    (Machine.IsTop s (BitVec.ofNat 9 n) ↔ ∀ m, m < k → ¬IsChild s (BitVec.ofNat 9 m) (BitVec.ofNat 9 n))
  root : s.treeValid = true → s.root.toNat < k ∧ (s.nodeAt s.root).leaf = false
  leaf : ∀ n, n < k → ((s.nodeAt (BitVec.ofNat 9 n)).leaf = true ↔ n < l)
  bound : l ≤ 256 ∧ l ≤ k
  counts : (s.heapLive = true → k + s.heapn.toNat = 2 * l) ∧ (s.treeValid = true → 2 ≤ l ∧ k = 2 * l - 1)

theorem SmallArena.inv {s : State} {xs : List Node} {k l : Nat} (a : SmallArena s xs k l) : ArenaInv s := by
  have hk := a.nnode
  have leaf : ∀ h, IsNode s h → ((s.nodeAt h).leaf = true ↔ h.toNat < l) := by
    intro h hh
    have := a.leaf h.toNat (hk ▸ hh)
    simpa using this
  have links := fun h (hh : IsNode s h) => a.links h.toNat (hk ▸ hh)
  simp only [BitVec.ofNat_toNat, BitVec.setWidth_eq] at links
  refine ⟨fun i hi => ?_, heapRest_of a.rest, fun i j hi hj => a.distinct i hi j hj,
    nodeAt_of_arenaOf xs a.node k hk a.length, fun h hh hl => ?_, fun h hh hl => ?_, fun g h hgh hh hl => ?_,
    oneParent_of k hk a.clash, topIff_of k hk a.top, fun ht => ?_, l, a.bound.1, hk ▸ a.bound.2, leaf,
    hk ▸ a.counts.1, fun ht => ?_⟩
  · show _ < _; rw [hk]; exact a.slots i hi
  · simpa [hl] using links h hh
  · have := links h hh
    simp only [hl, Bool.false_eq_true, if_false] at this
    exact ⟨this.1, this.2.1, .inl this.2.2⟩
  · have hgn : g.toNat < h.toNat := hgh
    have hg : IsNode s g := Nat.lt_trans hgn hh
    have hn := (leaf h hh).1 hl
    refine ⟨(leaf g hg).2 (by omega), ?_⟩
    simpa using a.order h.toNat hn g.toNat hgn
  · exact ⟨by show _ < _; rw [hk]; exact (a.root ht).1, (a.root ht).2⟩
  · exact .inl (hk ▸ a.counts.2 ht)

theorem arena_built : ArenaInv built := SmallArena.inv (xs := [leafA, leafB, leafC, ⟨false, 0, 3, 2, 0⟩,
    ⟨false, 0, 6, 1, 3⟩]) (k := 5) (l := 3)
  ⟨rfl, rfl, rfl, by decide +kernel, by decide +kernel, by decide +kernel, by decide +kernel, by decide +kernel,
    by decide +kernel, by unfold Machine.IsTop InHeap IsChild IsNode; decide +kernel, by decide +kernel,
    by decide +kernel, by decide, by decide⟩

theorem arena_begun : ArenaInv begun := SmallArena.inv (xs := [leafA, leafB, leafC]) (k := 3) (l := 3)
  ⟨rfl, rfl, rfl, by decide +kernel, by decide +kernel, by decide +kernel, by decide +kernel, by decide +kernel,
    by decide +kernel, by unfold Machine.IsTop InHeap IsChild IsNode; decide +kernel, by decide +kernel,
    by decide +kernel, by decide, by decide⟩

theorem order_begun : HeapOrder begun := fun i h0 hi => (by decide +kernel :
  ∀ i, i < 3 → 0 < i → less begun.node (begun.heapAt i) (begun.heapAt ((i - 1) / 2)) = false) i hi h0

theorem order_built : HeapOrder built := fun i _ hi => absurd hi (by show ¬ i < 0; omega)

theorem buildInv_begun : BuildInv begun :=
  ⟨⟨by decide, by decide, by decide, by decide, by decide, by decide, by decide⟩,
    ⟨by decide, by decide, by decide, by decide, by decide, by decide⟩, arena_begun, order_begun⟩

theorem buildInv_built : BuildInv built := ⟨regInv_built, flagInv_built, arena_built, order_built⟩

theorem weightInv_begun : WeightInv begun where
  leafRange := fun h hl => by
    by_cases hn : IsNode begun h
    · exact forall_below (P := fun h => 0 < begun.weight h ∧ begun.weight h < 2 ^ 32) 3 (by decide +kernel) h hn
    · rw [arena_begun.emptyRest h hn] at hl; exact absurd hl (by decide)
  innerSum := fun h hn hl => absurd hl
    (by simp [forall_below (P := fun h => (begun.nodeAt h).leaf = true) 3 (by decide +kernel) h hn])
  heapSum := fun _ => by rw [leafWeight_of_arenaOf _ rfl (by decide)]; decide +kernel
  rootSum := fun h => absurd h (by decide)

theorem weightInv_built : WeightInv built where
  leafRange := fun h hl => by
    by_cases hn : IsNode built h
    · exact forall_below (P := fun h => 0 < built.weight h ∧ built.weight h < 2 ^ 32) 5 (by decide +kernel) h hn
    · rw [arena_built.emptyRest h hn] at hl; exact absurd hl (by decide)
  innerSum := forall_below (P := fun h => (built.nodeAt h).leaf = false → built.weight h =
      built.weight (built.nodeAt h).left +
        (if (built.nodeAt h).right = NIL then 0 else built.weight (built.nodeAt h).right)) 5 (by decide +kernel)
  heapSum := fun h => absurd h (by decide)
  rootSum := fun _ => by rw [leafWeight_of_arenaOf _ rfl (by decide)]; decide +kernel
theorem isCode_two {s : State} {sym : Sym} {f : Handle} {b d : Bool}
    (hr : (s.nodeAt s.root).leaf = false) (hc : (s.nodeAt s.root).child b ≠ NIL)
    (hm : (s.nodeAt ((s.nodeAt s.root).child b)).leaf = false)
    (hd : (s.nodeAt ((s.nodeAt s.root).child b)).child d = f) (hf : f ≠ NIL) (hl : (s.nodeAt f).leaf = true)
    (hs : (s.nodeAt f).sym = sym) : IsCode s sym [b, d] :=
  ⟨f, .down _ _ _ _ hr hc (.down _ _ _ _ hm (hd ▸ hf) (hd ▸ .here _)), hl, hs⟩

theorem isCode_one {s : State} {sym : Sym} {f : Handle} {b : Bool} (hr : (s.nodeAt s.root).leaf = false)
    (hd : (s.nodeAt s.root).child b = f) (hf : f ≠ NIL) (hl : (s.nodeAt f).leaf = true)
    (hs : (s.nodeAt f).sym = sym) : IsCode s sym [b] :=
  ⟨f, .down _ _ _ _ hr (hd ▸ hf) (hd ▸ .here _), hl, hs⟩

theorem codes_of_built : IsCode built 0x61 [true, true] ∧ IsCode built 0x62 [false] ∧
    IsCode built 0x63 [true, false] :=
  ⟨isCode_two (f := 0) (by decide +kernel) (by decide +kernel) (by decide +kernel) (by decide +kernel)
      (by decide) (by decide +kernel) (by decide +kernel),
    isCode_one (f := 1) (by decide +kernel) (by decide +kernel) (by decide) (by decide +kernel) (by decide +kernel),
    isCode_two (f := 2) (by decide +kernel) (by decide +kernel) (by decide +kernel) (by decide +kernel)
      (by decide) (by decide +kernel) (by decide +kernel)⟩

/-- The codes are a matter of NODE and ROOT alone. -/
theorem isCode_congr {s t : State} (hn : s.node = t.node) (hr : s.root = t.root) {sym : Sym} {bs : List Bool}
    (h : IsCode s sym bs) : IsCode t sym bs := by
  unfold IsCode State.nodeAt at *
  rwa [← hn, ← hr]

theorem codeInv_coded : CodeInv coded where
  form := ⟨by decide +kernel, by decide +kernel⟩
  isTable := fun _ => by
    have spells : ∀ sym, (coded.codeAt sym).valid = true → IsCode coded sym (coded.codeAt sym).seq := by
      intro sym h
      have three := (by decide +kernel : ∀ sym, (coded.codeAt sym).valid = true →
        sym = 0x61 ∨ sym = 0x62 ∨ sym = 0x63) sym h
      rcases three with e | e | e <;> subst e
      · rw [(by decide +kernel : (coded.codeAt 0x61).seq = [true, true])]
        exact isCode_congr (s := built) (t := coded) rfl rfl codes_of_built.1
      · rw [(by decide +kernel : (coded.codeAt 0x62).seq = [false])]
        exact isCode_congr (s := built) (t := coded) rfl rfl codes_of_built.2.1
      · rw [(by decide +kernel : (coded.codeAt 0x63).seq = [true, false])]
        exact isCode_congr (s := built) (t := coded) rfl rfl codes_of_built.2.2
    refine ⟨fun sym => ⟨fun h => ⟨_, spells sym h⟩, fun ⟨bs, f, _, hl, hs⟩ => ?_⟩, spells, by decide +kernel⟩
    have e : coded.nodeAt f = built.nodeAt f := congrArg (Machine.nodeAt · f) (rfl : coded.node = built.node)
    rw [e] at hl hs
    have hn : IsNode built f := by
      by_contra hn
      rw [arena_built.emptyRest f hn] at hl
      exact absurd hl (by decide)
    have := forall_below (P := fun f => (built.nodeAt f).leaf = true →
      (coded.codeAt (built.nodeAt f).sym).valid = true) 5 (by decide +kernel) f hn hl
    exact hs ▸ this

theorem buildInv_coded : BuildInv coded :=
  ⟨⟨by decide, by decide, by decide, by decide, by decide, by decide, by decide⟩,
    ⟨by decide, by decide, by decide, by decide, by decide, by decide⟩,
    SmallArena.inv (xs := [leafA, leafB, leafC, ⟨false, 0, 3, 2, 0⟩, ⟨false, 0, 6, 1, 3⟩]) (k := 5) (l := 3)
      ⟨rfl, rfl, rfl, by decide +kernel, by decide +kernel, by decide +kernel, by decide +kernel, by decide +kernel,
        by decide +kernel, by unfold Machine.IsTop InHeap IsChild IsNode; decide +kernel, by decide +kernel,
        by decide +kernel, by decide, by decide⟩,
    fun i _ hi => absurd hi (by show ¬ i < 0; omega)⟩

/-- Every command answers a next state, so a hypothesis `exec i s = .next t` can be met. -/
theorem exec_answers (i : Instr) (s : State) : ∃ t, exec i s = .next t := by
  rcases exec_cases i s with ⟨_, h⟩ | ⟨_, e, _, h⟩
  · exact ⟨_, h⟩
  · exact ⟨_, h⟩

/-- The state before a CMD write of `w`. -/
def asking (w : Word) (s : State) : State := { s with bus := [.txn (.write 0x04 w)] }

/-! Encoding -/

theorem witness_DecodeOfEncodeIsIdentity :
    (Instr.pput 1).wellFormed = true ∧ (Instr.pput 32).wellFormed = true ∧ (Instr.facc 0xFF).wellFormed = true := by
  decide

theorem witness_DecodedWordReencodes :
    decode 0x41000000 = .ok (.pput 1) ∧ decode 0x51001F00 = .ok (.uget 32) ∧ decode 0x420000FF = .ok (.psym 0xFF) := by
  decide

theorem witness_DecodeFollowsTheOpcodeMap :
    ⟨.pput, 0x41000000, 0xFFFFE0FF⟩ ∈ opTable ∧ (0x41001F00 : Word) &&& 0xFFFFE0FF = 0x41000000 ∧
      ∀ r ∈ opTable, (0x24000000 : Word) &&& r.mask ≠ r.pattern := by decide

theorem witness_IllegalWordsRaiseIllegalCommand :
    (asking 0x24000000 State.reset).bus = .txn (.write 0x04 0x24000000) :: [] ∧
    (0x24000000 : Word).extractLsb' 24 8 ∉ [0x00#8, 0x10, 0x11, 0x20, 0x21, 0x22, 0x23, 0x30, 0x40, 0x41, 0x42, 0x50,
      0x51, 0x52, 0xFF] ∧
    (0x41002000 : Word).extractLsb' 13 11 ≠ 0 ∧ (0xFF800000 : Word).extractLsb' 13 11 ≠ 0 ∧
    ((0x52000100 : Word).extractLsb' 8 5 ≠ 0 ∧ (0x52000100 : Word).extractLsb' 24 8 ∉ [0x41#8, 0x51]) ∧
    ((0x10000001 : Word).extractLsb' 0 8 ≠ 0 ∧ (0x10000001 : Word).extractLsb' 24 8 ∉ [0x11#8, 0x42]) := by
  decide

/-! Steps and the bus -/

theorem witness_StepRunsTheDecodedCommand :
    (asking 0x30000000 built).bus = .txn (.write 0x04 0x30000000) :: [] ∧ decode 0x30000000 = .ok .cgen ∧
      0xFF000000 < 2 ^ 32 ∧ decode (BitVec.ofNat 32 0xFF000000) = .ok .srst := by decide

theorem witness_StepIsTotal :
    State.reset.bus = [] ∧ (asking 0 built).bus = .txn (.write 0x04 0) :: [] ∧
      HostInput.txn (.write 0x04 0) ≠ .hardReset := by decide

theorem witness_ReadTransactionChangesNothing :
    { built with bus := [.txn (.read 0x3C)] }.bus = HostInput.txn (.read 0x3C) :: [] := by decide

/-- The clauses of R73 at the ends of the windows: misaligned; outside; read-only; too large a BITCNT; and the
writes answered OK. -/
theorem witness_BusErrorCauses :
    (0x00000006 : Word).toNat % 4 ≠ 0 ∧
    ([0x40, 0x3FC, 0xC00, 0x1FFC, 0x3FF0, 0x3FFC, 0x8000, 0xFFFC, 0x20000] : List Nat).all (fun a =>
      !decide (a < 0x40 ∨ (0x400 ≤ a ∧ a < 0xC00) ∨ (0x2000 ≤ a ∧ a < 0x3FF0) ∨ (0x4000 ≤ a ∧ a < 0x8000) ∨
        (0x10000 ≤ a ∧ a < 0x10000 + State.reset.cfg.payCap))) = true ∧
    ([0x0, 0x3C, 0x400, 0xBFC, 0x2000, 0x3FEC, 0x4000, 0x7FFC, 0x10000, 0x1FFFC] : List Nat).all (fun a =>
      decide (a % 4 = 0 ∧ (a < 0x40 ∨ (0x400 ≤ a ∧ a < 0xC00) ∨ (0x2000 ≤ a ∧ a < 0x3FF0) ∨
        (0x4000 ≤ a ∧ a < 0x8000) ∨ (0x10000 ≤ a ∧ a < 0x10000 + State.reset.cfg.payCap)))) = true ∧
    (0x3C : Word) ∉ [0x04#32, 0x08, 0x18, 0x34] ∧ (0x34 : Word) ∈ [0x04#32, 0x08, 0x18, 0x34] ∧
    8 * State.reset.cfg.payCap < (524289 : Word).toNat ∧ ¬8 * State.reset.cfg.payCap < (524288 : Word).toNat := by
  decide

theorem witness_PayWindowIsLittleEndian :
    State.reset.cfg.legal = true ∧ 0 % 4 = 0 ∧ 0 < State.reset.cfg.payCap ∧ (0x10000 : Word).toNat = 0x10000 + 0 ∧
    65532 % 4 = 0 ∧ 65532 < State.reset.cfg.payCap ∧ (0x1FFFC : Word).toNat = 0x10000 + 65532 := by decide

theorem witness_WindowWordLayouts :
    (0 < 256 ∧ (0x800 : Word).toNat = 0x800 + 4 * 0) ∧ (255 < 256 ∧ (0xBFC : Word).toNat = 0x800 + 4 * 255) ∧
    ((0 : Handle) ≠ NIL ∧ (0x2000 : Word).toNat = 0x2000 + 16 * (0 : Handle).toNat) ∧
    ((510 : Handle) ≠ NIL ∧ (0x3FE0 : Word).toNat = 0x2000 + 16 * (510 : Handle).toNat) ∧
    (0x4000 : Word).toNat = 0x4000 + 64 * (0 : Sym).toNat ∧
    (0x7FC0 : Word).toNat = 0x4000 + 64 * (255 : Sym).toNat := by decide

theorem witness_ErrsIsSticky :
    (∃ t, runWord 0x21000000 built = .next t) ∧ decode 0x21000000 ≠ .ok .srst ∧
      (∃ t, step (asking 0x21000000 built) = .next t) ∧ built.errs &&& 0xFFC0FFD3 = 0 :=
  ⟨exec_answers .tmerge built, by decide, ⟨_, rfl⟩, by decide⟩

/-- The greatest legal value, and the least illegal one. -/
theorem witness_BitcntWriteRewinds :
    (524288 : Word).toNat ≤ 8 * State.reset.cfg.payCap ∧ 8 * State.reset.cfg.payCap < (524289 : Word).toNat := by
  decide

theorem witness_OnlyCommandsWriteResult :
    (∃ t, step { built with bus := [.txn (.write 0x08 7)] } = .next t) ∧
      (∀ w, HostInput.txn (.write 0x08 7) ≠ .txn (.write 0x04 w)) ∧
      (HostInput.txn (.write 0x08 7) ≠ .hardReset) ∧ ∃ t, step (asking 0x24000000 built) = .next t :=
  ⟨⟨_, rfl⟩, by simp,
    by decide, ⟨_, rfl⟩⟩

/-! Errors, success and sequencing -/

theorem witness_FailedCommandChangesOnlyResultAndErrs :
    ∃ t, runWord 0x24000000 built = .next t ∧ t.result ≠ 0 := ⟨_, rfl, by decide⟩

theorem witness_SuccessKeepsErrs :
    ∃ t, exec .urst { built with errs := 0x20 } = .next t ∧ t.result = 0 ∧ Instr.urst ≠ .srst :=
  ⟨_, rfl, by decide, by decide⟩

theorem witness_ResultCodeTable :
    (∃ t, runWord 0x24000000 built = .next t) ∧ (∃ t, runWord 0x30000000 built = .next t) ∧
      decode 0x30000000 = .ok .cgen := ⟨⟨_, rfl⟩, exec_answers .cgen built, by decide⟩

/-- The three clauses, from each side of "two handles are left". -/
theorem witness_SequencingOfCommands :
    (∃ t, exec .tmerge merged = .next t) ∧ ¬(merged.heapLive = true ∧ 2 ≤ merged.heapn.toNat) ∧
    (∃ t, exec .tmerge begun = .next t) ∧ (begun.heapLive = true ∧ 2 ≤ begun.heapn.toNat) ∧
    (∃ t, exec .urst built = .next t ∧ t.result = 0) ∧ (∃ t, step (asking 0x22000000 merged) = .next t) ∧
    (merged.treeValid, merged.codeValid, merged.heapLive) ∈
      [(false, false, false), (false, false, true), (true, false, false), (true, true, false)] :=
  ⟨exec_answers _ _, by decide, exec_answers _ _, by decide, ⟨_, rfl, by decide⟩, ⟨_, rfl⟩, by decide⟩

/-- Each condition of PSYM, USYM and CGEN, with the ones before it not met. -/
theorem witness_ErrorPriority :
    built.codeValid = false ∧
    (coded.codeValid = true ∧ (coded.codeAt 0x7A).valid = false) ∧
    (let s := { coded with bitcnt := 524287 };
      s.codeValid = true ∧ (s.codeAt 0x61).valid = true ∧
        8 * s.cfg.payCap < s.bitcnt.toNat + (s.codeAt 0x61).len.toNat) ∧
    State.reset.treeValid = false ∧ (built.treeValid = true ∧ built.rdpos = built.bitcnt) ∧
    (let s := { built with root := 0 };
      s.treeValid = true ∧ (s.nodeAt s.root).leaf = true) := by decide +kernel

theorem witness_HardwareResetGivesTheResetState :
    { built with bus := [.hardReset] }.bus = HostInput.hardReset :: [] := by decide

/-! Frequency accumulator -/

theorem witness_FaccCountsOneOccurrence :
    (State.reset.setFreq 0x41 0xFFFFFFFE).freqAt 0x41 ≠ 0xFFFFFFFF ∧
      (State.reset.setFreq 0x41 0xFFFFFFFF).freqAt 0x41 = 0xFFFFFFFF := by decide +kernel

theorem witness_FaccSequenceCountsSymbols :
    (∀ y, State.reset.freqAt y = 0) ∧ [0x61#8, 0x62].length < 2 ^ 32 ∧ [0x61#8, 0x62].Perm [0x62, 0x61] ∧
      ∃ t, runOk ([0x61#8, 0x62].map .facc) State.reset = some t :=
  ⟨fun y => tableGet_replicate _ _, by decide, List.Perm.swap _ _ _, Option.isSome_iff_exists.1 (by decide +kernel)⟩

/-! Tree builder -/

theorem witness_LessIsTheKeyOrder :
    less begun.node 2 0 = true ∧ less begun.node 0 1 = true ∧ (0 : Handle) ≠ 1 := by decide +kernel

/-- The same handle at every position: no one is less than another. -/
theorem order_uniform (n : BitVec 9) : HeapOrder { State.reset with heapn := n } := fun i _ _ => by
  show less _ (Machine.heapAt (Vector.replicate 256 NIL) i) (Machine.heapAt (Vector.replicate 256 NIL) _) = false
  rw [heapAt_replicate, heapAt_replicate]
  simp [less]

/-- Three handles in the heap; and the last free place of the heap. -/
theorem witness_HeapInsertKeepsOrder :
    (HeapOrder begun ∧ begun.heapn.toNat < 256) ∧
      HeapOrder { State.reset with heapn := 255 } ∧ (255 : BitVec 9).toNat < 256 :=
  ⟨⟨order_begun, by decide⟩, order_uniform _, by decide⟩

/-- Three handles in the heap; one; and a full heap. -/
theorem witness_ExtractMinReturnsTheLeast :
    (HeapOrder begun ∧ 1 ≤ begun.heapn.toNat ∧ begun.heapn.toNat ≤ 256) ∧
      (HeapOrder { State.reset with heapn := 1 } ∧ 1 ≤ (1 : BitVec 9).toNat) ∧
      HeapOrder { State.reset with heapn := 256 } ∧ (256 : BitVec 9).toNat ≤ 256 :=
  ⟨⟨order_begun, by decide, by decide⟩, ⟨order_uniform _, by decide⟩, order_uniform _, by decide⟩

theorem witness_TinitMakesOneLeafPerSymbol : ∃ sym, counted.freqAt sym ≠ 0 := ⟨0x61, by decide +kernel⟩

theorem witness_EmptyTableIsInvalidInput : ∀ sym, State.reset.freqAt sym = 0 := fun _ => tableGet_replicate _ _

theorem witness_TmergeJoinsTheTwoLeast :
    begun.heapLive = true ∧ 2 ≤ begun.heapn.toNat ∧ BuildInv begun ∧ WeightInv begun :=
  ⟨by decide, by decide, buildInv_begun, weightInv_begun⟩

/-- An internal node left over, and a lone leaf. -/
theorem witness_TfinMakesTheRoot :
    (merged.heapLive = true ∧ merged.heapn = 1 ∧ (merged.nodeAt (merged.heapAt 0)).leaf = false) ∧
    (lone.heapLive = true ∧ lone.heapn = 1 ∧ (lone.nodeAt (lone.heapAt 0)).leaf = true ∧ lone.nnode ≠ NIL) := by
  decide +kernel

theorem witness_TbuildEqualsTheStepwiseBuild : ∃ sym, counted.freqAt sym ≠ 0 := ⟨0x63, by decide +kernel⟩

theorem witness_TbuildShape :
    ((∃ sym, counted.freqAt sym ≠ 0) ∧ 2 ≤ counted.nsym) ∧ (∃ sym, lone.freqAt sym ≠ 0) ∧ lone.nsym = 1 :=
  ⟨⟨⟨0x61, by decide +kernel⟩, by decide +kernel⟩, ⟨0x61, by decide +kernel⟩, by decide +kernel⟩

/-- Two states with the same counts and different trees. -/
theorem witness_TreeDependsOnFrequenciesOnly :
    (∀ sym, counted.freqAt sym = built.freqAt sym) ∧ (∃ sym, counted.freqAt sym ≠ 0) ∧
      (∃ t, exec .tbuild counted = .next t) ∧ ∃ t, exec .tbuild built = .next t :=
  ⟨fun y => congrArg (fun f => tableGet f 0 y.toNat) (rfl : counted.freq = built.freq), ⟨0x61, by decide +kernel⟩,
    exec_answers _ _, exec_answers _ _⟩

/-! Code table -/

theorem witness_CgenFillsTheCodeTable :
    built.treeValid = true ∧ (built.nodeAt built.root).leaf = false ∧ BuildInv built :=
  ⟨by decide, by decide +kernel, buildInv_built⟩

theorem witness_CodesArePrefixFree :
    BuildInv built ∧ ∃ t, exec .cgen built = .next t ∧ t.result = 0 ∧ (t.codeAt 0x61).valid = true :=
  ⟨buildInv_built, built.fillCode.done, by
    have h : Succeeds .cgen built := ⟨by decide, by decide +kernel⟩
    rcases exec_cases .cgen built with ⟨_, e⟩ | ⟨n, _⟩
    · exact e
    · exact absurd h n, rfl, by decide +kernel⟩

theorem witness_PresentSymbolsGetCodes : ∃ t, runOk [.tbuild, .cgen] counted = some t :=
  Option.isSome_iff_exists.1 (by decide +kernel)

theorem witness_InvalidTreeErrorIsDead : BuildInv built ∧ ∃ t, exec .cgen built = .next t :=
  ⟨buildInv_built, exec_answers _ _⟩

/-! Packer -/

theorem witness_PutbitWritesOneByte : ({ State.reset with bitcnt := 0x7FFFFFFF }.bitcnt).toNat < 2 ^ 31 := by decide

/-- One bit at the start, 32 bits that just fit, and 32 bits of which one is too many. -/
theorem witness_PputAppendsArgBits :
    (State.reset.cfg.legal = true ∧ 1 ≤ 1 ∧ 1 ≤ 32 ∧ State.reset.bitcnt.toNat + 1 ≤ 8 * State.reset.cfg.payCap) ∧
    ({ State.reset with bitcnt := 524256 }.bitcnt).toNat + 32 ≤ 8 * State.reset.cfg.payCap ∧
    8 * State.reset.cfg.payCap < ({ State.reset with bitcnt := 524257 }.bitcnt).toNat + 32 := by decide

theorem witness_PsymAppendsTheCode :
    coded.cfg.legal = true ∧ coded.codeValid = true ∧ (coded.codeAt 0x61).valid = true ∧ 1 ≤ coded.codeLen 0x61 ∧
      coded.bitcnt.toNat + coded.codeLen 0x61 ≤ 8 * coded.cfg.payCap := by decide +kernel

/-- PPUT 3 of ARG = 5, a write to ARG, PPUT 2 of ARG = 2, and PSYM 'a', which fails without a code table. -/
def packing : List Transaction :=
  [.write 0x08 5, .write 0x04 0x41000200, .write 0x08 2, .read 0x10, .write 0x04 0x41000100, .write 0x04 0x42000061]

/-- R153: the bits of each PPUT are those of ARG as it stood then. -/
theorem test_session_bits :
    (session packing State.reset).1 = [true, false, true, true, false] ∧
      (session packing State.reset).2.payByte 0 = 0xB0 := by decide +kernel

theorem witness_PackingConcatenatesInOrder :
    (State.reset.cfg.legal = true ∧ (∀ x ∈ packing, disturbsPayload State.reset.cfg.payCap x = false) ∧
      (session packing State.reset).1 ≠ []) ∧
    (∀ i ∈ [.psym 0x61, .psym 0x62, .pput 32], isPack i = true) ∧
      ∃ t, runOk [.psym 0x61, .psym 0x62, .pput 32] coded = some t :=
  ⟨⟨by decide, by decide, by decide +kernel⟩, by decide, Option.isSome_iff_exists.1 (by decide +kernel)⟩

/-! Unpacker -/

theorem witness_UgetReadsTheNextBits :
    1 ≤ 9 ∧ 9 ≤ 32 ∧ loaded.rdpos.toNat + 9 ≤ loaded.bitcnt.toNat ∧
      loaded.bitcnt.toNat < loaded.rdpos.toNat + 10 := by decide

theorem witness_UsymDecodesOneSymbol :
    loaded.treeValid = true ∧ IsCode loaded 0x61 [true, true] ∧ [true, true] ≠ [] ∧
      loaded.rdpos.toNat + [true, true].length ≤ loaded.bitcnt.toNat ∧
      loaded.payloadBits loaded.rdpos.toNat [true, true].length = [true, true] :=
  ⟨by decide, isCode_congr (s := built) (t := loaded) rfl rfl codes_of_built.1, by decide, by decide, by decide +kernel⟩

/-- One significant bit, a 1: no code of the tree (11, 0, 10) is that short and begins with 1. -/
def cut : State := { built with pay := [(0, 0x80)], bitcnt := 1 }

theorem witness_UsymRaisesDecodeError :
    cut.treeValid = true ∧ (cut.nodeAt cut.root).leaf = false ∧ cut.rdpos ≠ cut.bitcnt ∧
    ∀ sym bs, IsCode cut sym bs → bs ≠ [] → cut.rdpos.toNat + bs.length ≤ cut.bitcnt.toNat →
      cut.payloadBits cut.rdpos.toNat bs.length ≠ bs := by
  refine ⟨by decide, by decide +kernel, by decide, fun sym bs hc hne hlen hbits => ?_⟩
  have h1 : cut.payloadBits cut.rdpos.toNat 1 = [true] := by decide +kernel
  have hl : bs.length = 1 := by
    have : 0 < bs.length := List.length_pos_of_ne_nil hne
    have : bs.length ≤ 1 := by simpa [cut, built, counted, State.setFreq, State.reset] using hlen
    omega
  rw [hl, h1] at hbits
  subst hbits
  obtain ⟨f, hd, hf, _⟩ := hc
  cases hd with
  | down _ _ _ _ _ _ rest =>
    cases rest with
    | here _ => exact absurd hf (by decide +kernel)

/-- The wrapper tree of a lone 'a', and eight significant bits that begin with a 1. -/
def wrapped : State :=
  { lone with
    node := arenaOf [⟨true, 0x61, 4, NIL, NIL⟩, ⟨false, 0, 4, 0, NIL⟩], nnode := 2, root := 1, treeValid := true,
    heap := heapOf [], heapn := 0, heapLive := false, pay := [(0, 0x80)], bitcnt := 8 }

/-- The other way into DecodeError: a 1 met at a wrapper (R127). -/
theorem witness_UsymRaisesDecodeError_wrapper :
    wrapped.treeValid = true ∧ (wrapped.nodeAt wrapped.root).leaf = false ∧ wrapped.rdpos ≠ wrapped.bitcnt ∧
    ∀ sym bs, IsCode wrapped sym bs → bs ≠ [] → wrapped.rdpos.toNat + bs.length ≤ wrapped.bitcnt.toNat →
      wrapped.payloadBits wrapped.rdpos.toNat bs.length ≠ bs := by
  refine ⟨by decide, by decide +kernel, by decide, fun sym bs hc hne _ hbits => ?_⟩
  obtain ⟨f, hd, _, _⟩ := hc
  cases hd with
  | here _ => exact hne rfl
  | down _ _ b bs _ real _ =>
    have hb : b = true := by
      have h0 : (wrapped.payloadBits wrapped.rdpos.toNat (b :: bs).length).head? = some (wrapped.getbit 0) := by
        unfold State.payloadBits
        rw [List.length_cons, List.range_succ_eq_map]
        rfl
      rw [hbits, (by decide +kernel : wrapped.getbit 0 = true)] at h0
      simpa using h0
    subst hb
    exact absurd real (by decide +kernel)

theorem witness_UnpackInvertsPack :
    (State.reset.bitcnt = 0 ∧ (∀ x ∈ packing, disturbsPayload State.reset.cfg.payCap x = false) ∧
      (∀ n ∈ [1, 4], 1 ≤ n ∧ n ≤ 32) ∧ [1, 4].sum ≤ (session packing State.reset).1.length) ∧
    State.reset.cfg.legal = true ∧ State.reset.rdpos = State.reset.bitcnt ∧
    (∃ t, runOk [.pput 1, .uget 1] { State.reset with arg := 5 } = some t) ∧
      ∃ t, runOk [.pput 32, .uget 32] { State.reset with arg := 0xDEADBEEF } = some t :=
  ⟨⟨by decide, by decide, by decide, by decide +kernel⟩, by decide, by decide,
    Option.isSome_iff_exists.1 (by decide +kernel), Option.isSome_iff_exists.1 (by decide +kernel)⟩

theorem witness_SymbolRoundTrip :
    BuildInv coded ∧ CodeInv coded ∧ coded.rdpos = coded.bitcnt ∧
      ∃ t, runOk ([0x61#8, 0x62].map .psym) coded = some t :=
  ⟨buildInv_coded, codeInv_coded, by decide, Option.isSome_iff_exists.1 (by decide +kernel)⟩

/-! Invariants: the host's queue is no part of them, so each holds where a transaction waits. -/

theorem buildInv_bus {s : State} (h : BuildInv s) (q : List HostInput) : BuildInv { s with bus := q } :=
  ⟨⟨h.regs.1, h.regs.2, h.regs.3, h.regs.4, h.regs.5, h.regs.6, h.regs.7⟩,
    ⟨h.flags.1, h.flags.2, h.flags.3, h.flags.4, h.flags.5, h.flags.6⟩,
    ⟨h.arena.1, h.arena.2, h.arena.3, h.arena.4, h.arena.5, h.arena.6, h.arena.7, h.arena.8, h.arena.9, h.arena.10,
      h.arena.11⟩, h.order⟩

theorem weightInv_bus {s : State} (h : WeightInv s) (q : List HostInput) : WeightInv { s with bus := q } :=
  ⟨h.1, h.2, h.3, h.4⟩

theorem codeInv_bus {s : State} (h : CodeInv s) (q : List HostInput) : CodeInv { s with bus := q } :=
  ⟨⟨h.form.1, h.form.2⟩, fun hv => ⟨(h.isTable hv).1, (h.isTable hv).2, (h.isTable hv).3⟩⟩

theorem witness_StepKeepsRegisterInvariant :
    RegInv (asking 0x40000000 built) ∧ ∃ t, step (asking 0x40000000 built) = .next t :=
  ⟨(buildInv_bus buildInv_built _).regs, _, rfl⟩

theorem witness_StepKeepsFlagInvariant :
    FlagInv (asking 0x22000000 begun) ∧ ∃ t, step (asking 0x22000000 begun) = .next t :=
  ⟨(buildInv_bus buildInv_begun _).flags, _, rfl⟩

theorem witness_StepKeepsForestAndHeap :
    BuildInv (asking 0x21000000 begun) ∧ ∃ t, step (asking 0x21000000 begun) = .next t :=
  ⟨buildInv_bus buildInv_begun _, _, rfl⟩

theorem witness_StepKeepsWeights :
    BuildInv (asking 0x21000000 begun) ∧ WeightInv (asking 0x21000000 begun) ∧
      ∃ t, step (asking 0x21000000 begun) = .next t :=
  ⟨buildInv_bus buildInv_begun _,
    weightInv_bus weightInv_begun _, _, rfl⟩

theorem witness_StepKeepsCodeTable :
    BuildInv (asking 0x50000000 coded) ∧ CodeInv (asking 0x50000000 coded) ∧
      ∃ t, step (asking 0x50000000 coded) = .next t :=
  ⟨buildInv_bus buildInv_coded _,
    codeInv_bus codeInv_coded _, _, rfl⟩

end Witnesses

end Sys2Proof.Tests
end

section
/-! SUPPORT. The registers as the host sees them (rules R29 to R36, R42): what each reads as, the bits of STATUS,
NSYM and TOTAL as a count and a sum over all symbols, and what moves ERRS. -/

namespace Sys2Proof.Machine

/-! ### Register reads (R30) -/

/-- A read at a register's address is answered with the register's word. -/
theorem hostRead_regAddr (s : State) (r : Reg) : s.hostRead (regAddr r) = .word (s.readReg r) := by
  simp [State.hostRead, State.readPlace]

theorem totalLo_eq_ofNat (s : State) : s.totalLo = BitVec.ofNat 32 s.total := by
  apply BitVec.eq_of_toNat_eq
  simp only [State.totalLo, BitVec.extractLsb'_toNat, BitVec.toNat_ofNat, Nat.shiftRight_zero]
  omega

theorem totalHi_eq_ofNat (s : State) : s.totalHi = BitVec.ofNat 32 (s.total / 2 ^ 32 % 2 ^ 8) := by
  apply BitVec.eq_of_toNat_eq
  simp only [State.totalHi, BitVec.toNat_setWidth, BitVec.extractLsb'_toNat, BitVec.toNat_ofNat,
    Nat.shiftRight_eq_div_pow]
  omega

/-- Settles O11: every register is read at its own address, and TOTAL_LO and TOTAL_HI are the halves of TOTAL. -/
theorem registerMapReads : Obligations.RegisterMapReads := by
  intro s
  rw [← totalLo_eq_ofNat, ← totalHi_eq_ofNat]
  have read := hostRead_regAddr s
  exact ⟨read .id, read .cmd, read .arg, read .data, read .result, read .status, read .errs, read .nsym,
    read .totalLo, read .totalHi, read .nnode, read .root, read .heapn, read .bitcnt, read .rdpos, read .paycap⟩

/-! ### The bits of STATUS (R29) -/

theorem getLsbD_flagBit (b : Bool) {i : Nat} (hi : i < 32) (j : Nat) :
    (flagBit b i).getLsbD j = true ↔ j = i ∧ b = true := by
  simp only [flagBit, BitVec.getLsbD_shiftLeft, BitVec.getLsbD_setWidth, BitVec.getLsbD_ofBool, Bool.and_eq_true,
    decide_eq_true_eq, Bool.not_eq_true', decide_eq_false_iff_not]
  constructor
  · rintro ⟨⟨-, hij⟩, -, h0, hb⟩
    exact ⟨by omega, hb⟩
  · rintro ⟨rfl, hb⟩
    exact ⟨⟨hi, by omega⟩, by omega, by omega, hb⟩

theorem eos_iff (s : State) : s.eos = true ↔ s.rdpos = s.bitcnt := beq_iff_eq

theorem errFlag_iff (s : State) : s.errFlag = true ↔ s.errs ≠ 0 := bne_iff_ne

theorem getLsbD_status (s : State) (i : Nat) :
    s.status.getLsbD i = true ↔
      (i = 0 ∧ s.treeValid = true) ∨ (i = 1 ∧ s.codeValid = true) ∨ (i = 2 ∧ s.heapLive = true) ∨
      (i = 3 ∧ s.rdpos = s.bitcnt) ∨ (i = 4 ∧ ∀ sym, s.freqAt sym = 0) ∨ (i = 5 ∧ s.errs ≠ 0) := by
  rw [← eos_iff, ← freqEmpty_iff, ← errFlag_iff]
  simp [State.status, getLsbD_flagBit, or_assoc]

theorem freqEmpty_reset : State.reset.freqEmpty = true :=
  (freqEmpty_iff _).mpr fun sym => tableGet_replicate 0 sym.toNat

/-- Settles O12: STATUS is the union of six flags, each at a position of its own. -/
theorem statusBits : Obligations.StatusBits := by
  refine ⟨fun s => hostRead_regAddr s .status, getLsbD_status, ?_⟩
  rw [State.status, freqEmpty_reset]
  decide

/-! ### NSYM and TOTAL over all symbols (R35, R36) -/

theorem toFinset_allSymbols : allSymbols.toFinset = Finset.univ := by
  ext sym
  simp [mem_allSymbols]

theorem nsym_eq_card (s : State) : s.nsym = (Finset.univ.filter fun sym : Sym => s.freqAt sym ≠ 0).card := by
  rw [State.nsym, List.countP_eq_length_filter, ← toFinset_allSymbols, ← List.toFinset_card_of_nodup
    (allSymbols_nodup.filter _), List.toFinset_filter]
  simp

theorem total_eq_sum (s : State) : s.total = ∑ sym : Sym, (s.freqAt sym).toNat := by
  rw [State.total, ← toFinset_allSymbols, List.sum_toFinset _ allSymbols_nodup]

/-- TOTAL is at most 256 full counts, so it fits in 40 bits (R36). -/
theorem total_le (s : State) : s.total ≤ 2 ^ 40 - 256 := by
  have full : ∀ c ∈ allSymbols.map fun sym => (s.freqAt sym).toNat, c ≤ 2 ^ 32 - 1 := by
    intro c hc
    obtain ⟨sym, -, rfl⟩ := List.mem_map.mp hc
    omega
  have bound := List.sum_le_card_nsmul _ _ full
  rw [List.length_map, allSymbols_length, smul_eq_mul] at bound
  exact bound

theorem totalLo_add_totalHi (s : State) : s.totalLo.toNat + 2 ^ 32 * s.totalHi.toNat = s.total := by
  have fits := total_le s
  rw [totalLo_eq_ofNat, totalHi_eq_ofNat, BitVec.toNat_ofNat, BitVec.toNat_ofNat]
  omega

/-- Settles O13: NSYM and TOTAL run over a list that holds every symbol exactly once. -/
theorem nsymAndTotalAreExact : Obligations.NsymAndTotalAreExact := fun s =>
  ⟨hostRead_regAddr s .nsym, nsym_eq_card s, nsym_le s, total_eq_sum s, total_le s, totalLo_add_totalHi s⟩

/-! ### What moves ERRS (R34) -/

theorem getLsbD_bit (e : CmdError) (b : Nat) : e.bit.getLsbD b = true ↔ b = e.code.toNat := by
  have small : e.code.toNat < 32 := by cases e <;> decide
  simp only [CmdError.bit, BitVec.getLsbD_shiftLeft, BitVec.getLsbD_one, Bool.and_eq_true, decide_eq_true_eq,
    Bool.not_eq_true', decide_eq_false_iff_not]
  omega

/-- A command that succeeds leaves RESULT = 0 (R192). -/
theorem effect_result {i : Instr} {s : State} (h : Succeeds i s) : (effect i s).result = 0 := by
  cases i with
  | usym =>
    obtain ⟨-, -, notStuck⟩ := h
    simp only [effect]
    split
    · next stuck => exact absurd stuck notStuck
    · rfl
  | _ => rfl

/-- A command that succeeds leaves ERRS as it was, SRST apart (R192, R181). -/
theorem effect_errs {i : Instr} (hi : i ≠ .srst) (s : State) : (effect i s).errs = s.errs := by
  cases i with
  | srst => exact absurd rfl hi
  | tinit => rw [effect, tinitBody_frame]; rfl
  | tfin => rw [effect, tfinBody_frame]; rfl
  | tbuild => rw [effect, tbuildBody_frame]; rfl
  | pput n => rw [effect, putBits_frame]; rfl
  | psym sym => rw [effect, putBits_frame]; rfl
  | usym => simp only [effect]; split <;> rfl
  | _ => rfl

/-- SRST clears ERRS (R181). -/
theorem effect_srst_errs (s : State) : (effect .srst s).errs = 0 := rfl

/-- `e` is an error some command word raises: R204 reserves the two others for host software. -/
def CmdError.Raisable (e : CmdError) : Prop := e ≠ .emptyInput ∧ e ≠ .corruptHeader

theorem raisable_of_mem_mayRaise {i : Instr} {e : CmdError} (h : e ∈ mayRaise i) : e.Raisable := by
  constructor <;> rintro rfl <;> cases i <;> simp [mayRaise] at h

/-- What a word written to CMD leaves: the effect of its command, or one raised error. -/
theorem runWord_next {w : Word} {s t : State} (h : runWord w s = .next t) :
    (∃ i, decode w = .ok i ∧ Succeeds i s ∧ t = effect i s) ∨ ∃ e : CmdError, e.Raisable ∧ t = s.raise e := by
  rcases runWord_cases w s with ⟨-, run⟩ | ⟨i, hi, ⟨hs, run⟩ | ⟨-, e, he, run⟩⟩
  all_goals rw [h] at run; cases run
  · exact .inr ⟨_, by simp [CmdError.Raisable], rfl⟩
  · exact .inl ⟨i, hi, hs, rfl⟩
  · exact .inr ⟨e, raisable_of_mem_mayRaise he, rfl⟩

/-- The bits of ERRS that no command word sets: those outside `errsMask` (R34). -/
theorem bit_and_reserved {e : CmdError} (h : e.Raisable) : e.bit &&& 0xFFC0FFD3 = 0 := by
  obtain ⟨notEmptyInput, notCorruptHeader⟩ := h
  cases e with
  | emptyInput => exact absurd rfl notEmptyInput
  | corruptHeader => exact absurd rfl notCorruptHeader
  | _ => decide

theorem or_and_eq_zero (a b m : Word) : (a ||| b) &&& m = 0 ↔ a &&& m = 0 ∧ b &&& m = 0 := by
  rw [BitVec.and_comm, BitVec.and_or_distrib_left, BitVec.and_comm m, BitVec.and_comm m]
  exact BitVec.or_eq_zero_iff

theorem runWord_keeps_reserved {w : Word} {s t : State} (h : runWord w s = .next t)
    (hs : s.errs &&& 0xFFC0FFD3 = 0) : t.errs &&& 0xFFC0FFD3 = 0 := by
  rcases runWord_next h with ⟨i, -, -, rfl⟩ | ⟨e, he, rfl⟩
  · by_cases hi : i = .srst
    · rw [hi, effect_srst_errs]
      exact BitVec.zero_and
    · rw [effect_errs hi, hs]
  · exact (or_and_eq_zero s.errs e.bit _).mpr ⟨hs, bit_and_reserved he⟩

/-- Only a command word, a host write to ERRS and hardware reset move ERRS, and none sets a reserved bit (R34). -/
theorem served_keeps_reserved {u t : State} {x : HostInput} (h : Served u x t)
    (hu : u.errs &&& 0xFFC0FFD3 = 0) : t.errs &&& 0xFFC0FFD3 = 0 := by
  cases h with
  | reset => exact BitVec.zero_and
  | command v t run =>
    rw [respond_errs]
    exact runWord_keeps_reserved run hu
  | writeErrs v =>
    rw [respond_errs, BitVec.and_assoc, BitVec.and_comm (~~~v), ← BitVec.and_assoc, hu]
    exact BitVec.zero_and
  | _ =>
    rw [respond_errs]
    exact hu

/-- The first clause of R34: an error sets exactly its bit, and nothing but SRST clears one. -/
theorem runWord_errs {w : Word} {s t : State} (h : runWord w s = .next t) (notSrst : decode w ≠ .ok .srst) :
    (∀ b, s.errs.getLsbD b = true → t.errs.getLsbD b = true) ∧
    (∀ b, t.errs.getLsbD b = true → s.errs.getLsbD b = true ∨ (b = t.result.toNat ∧ t.result ≠ 0)) ∧
    (t.result ≠ 0 → t.errs.getLsbD t.result.toNat = true) := by
  rcases runWord_next h with ⟨i, hi, hs, rfl⟩ | ⟨e, -, rfl⟩
  · have same := effect_errs (fun srst => notSrst (srst ▸ hi)) s
    rw [same]
    exact ⟨fun _ => id, fun _ => .inl, fun failed => absurd (effect_result hs) failed⟩
  · simp only [raise_errs, raise_result, BitVec.getLsbD_or, Bool.or_eq_true, getLsbD_bit]
    exact ⟨fun _ => .inl, fun _ => .imp_right fun hb => ⟨hb, code_ne_zero e⟩, fun _ => .inr trivial⟩

/-- A host write of `v` to ERRS (R34, write one to clear). -/
theorem hostWrite_errs (s : State) (v : Word) :
    hostWrite 0x18 v s = .next ({ s with errs := s.errs &&& ~~~v }.respond .ok) := by
  have place : placeOf s.cfg.payCap 0x18 = some (.reg .errs) := placeOf_regAddr _ .errs
  simp only [hostWrite, place]

/-- Settles O17: a word written to CMD keeps ERRS or sets the bit of its error, and the bits no raisable error has
are kept 0 by every input a step can serve. -/
theorem errsIsSticky : Obligations.ErrsIsSticky := by
  refine ⟨fun w s t => runWord_errs, fun s v => ⟨_, hostWrite_errs s v, rfl, fun b => ?_⟩,
    fun s => ⟨_, rfl, effect_srst_errs s⟩, fun s => rfl, fun s t h hs => ?_⟩
  · by_cases hb : b < 32
    · simp [hb]
    · simp [BitVec.getLsbD_of_ge s.errs b (by omega)]
  · rcases step_cases h with ⟨-, rfl⟩ | ⟨x, rest, -, served⟩
    · exact hs
    · exact served_keeps_reserved served hs

end Sys2Proof.Machine
end

section
/-! SUPPORT. The memory windows as the host sees them (rules R61, R63 to R68, R73), and the byte that `putbit` writes
(R76). The address map is said once, in both directions: from a place to its address and from an address to the place
that stands there. -/

namespace Sys2Proof.Machine

/-! ### The address map (R30, R61) -/

/-- The bus address of a place. -/
def Place.addr : Place → Nat
  | .reg r => (regAddr r).toNat
  | .freq i => 0x400 + 4 * i
  | .heap i => 0x800 + 4 * i
  | .node h k => 0x2000 + 16 * h + 4 * k
  | .code i k => 0x4000 + 64 * i + 4 * k
  | .pay a => 0x10000 + a

/-- The places of a block whose capacity is `payCap`. -/
def Place.InMap (payCap : Nat) : Place → Prop
  | .reg _ => True
  | .freq i | .heap i => i < 256
  | .node h k => h < 511 ∧ k < 4
  | .code i k => i < 256 ∧ k < 16
  | .pay a => a < payCap ∧ a % 4 = 0

theorem placeOf_of_addr {payCap : Nat} {p : Place} {addr : Word} (inMap : p.InMap payCap)
    (there : addr.toNat = p.addr) : placeOf payCap addr = some p := by
  cases p with
  | reg r => rw [BitVec.eq_of_toNat_eq there]; exact placeOf_regAddr payCap r
  | _ =>
    simp only [Place.addr, Place.InMap] at there inMap
    simp (disch := omega) only [placeOf, if_neg, if_pos, Option.some.injEq, Place.freq.injEq, Place.heap.injEq,
      Place.node.injEq, Place.code.injEq, Place.pay.injEq]
    omega

theorem addr_of_placeOf {payCap : Nat} {p : Place} {addr : Word} (h : placeOf payCap addr = some p) :
    p.InMap payCap ∧ addr.toNat = p.addr := by
  cases p with
  | reg r => rw [placeOf_reg h]; exact ⟨trivial, rfl⟩
  | pay a => obtain ⟨there, aligned, inside⟩ := placeOf_pay h; exact ⟨⟨inside, aligned⟩, there⟩
  | _ =>
    simp only [placeOf] at h
    repeat' split at h
    all_goals simp at h
    all_goals simp only [Place.InMap, Place.addr]; omega

/-- `a` lies in one of the windows, aligned or not. -/
def InWindow (payCap a : Nat) : Prop :=
  a < 0x40 ∨ (0x400 ≤ a ∧ a < 0xC00) ∨ (0x2000 ≤ a ∧ a < 0x3FF0) ∨ (0x4000 ≤ a ∧ a < 0x8000) ∨
    (0x10000 ≤ a ∧ a < 0x10000 + payCap)

theorem exists_placeOf {payCap : Nat} {addr : Word} (aligned : addr.toNat % 4 = 0)
    (inside : InWindow payCap addr.toNat) : ∃ p, placeOf payCap addr = some p := by
  rw [← Option.isSome_iff_exists]
  rcases inside with register | freqOrHeap | node | code | pay
  · have index : addr.toNat / 4 < regMap.length := by rw [show regMap.length = 16 from rfl]; omega
    simp (disch := omega) only [placeOf, if_neg, if_pos, List.getElem?_eq_getElem index, Option.map_some,
      Option.isSome_some]
  · rcases Nat.lt_or_ge addr.toNat 0x800 with freq | heap
    all_goals simp (disch := omega) only [placeOf, if_neg, if_pos, Option.isSome_some]
  all_goals simp (disch := omega) only [placeOf, if_neg, if_pos, Option.isSome_some]

theorem placeOf_outside {payCap : Nat} {addr : Word} (outside : addr.toNat % 4 ≠ 0 ∨ ¬InWindow payCap addr.toNat) :
    placeOf payCap addr = none := by
  rw [Option.eq_none_iff_forall_ne_some]
  intro p hp
  obtain ⟨inMap, there⟩ := addr_of_placeOf hp
  rw [there, InWindow] at outside
  cases p with
  | reg r => cases r <;> simp [Place.addr, regAddr] at outside
  | _ => simp only [Place.addr, Place.InMap] at outside inMap; omega

/-! ### The writes answered with BusError (R73) -/

/-- A write of `v` to this place is answered with BusError: causes (3), (4) and (5) of R73. -/
def Place.Refuses (s : State) (v : Word) : Place → Prop
  | .reg .cmd | .reg .arg | .reg .errs | .freq _ | .pay _ => False
  | .reg .bitcnt => s.capBits < v.toNat
  | .reg _ | .heap _ | .node _ _ | .code _ _ => True

/-- The refusing places by their addresses. -/
theorem refuses_iff {s : State} {addr v : Word} {p : Place} (hp : placeOf s.cfg.payCap addr = some p) :
    p.Refuses s v ↔ (addr.toNat < 0x40 ∧ addr ∉ [0x04#32, 0x08, 0x18, 0x34]) ∨
      (0x800 ≤ addr.toNat ∧ addr.toNat < 0xC00) ∨ (0x2000 ≤ addr.toNat ∧ addr.toNat < 0x8000) ∨
      (addr = 0x34 ∧ 8 * s.cfg.payCap < v.toNat) := by
  obtain ⟨inMap, there⟩ := addr_of_placeOf hp
  cases p with
  | reg r =>
    rw [BitVec.eq_of_toNat_eq there]
    cases r <;> simp [Place.Refuses, regAddr, State.capBits]
  | _ =>
    simp only [Place.addr, Place.InMap] at there inMap
    have notRegister : ¬addr.toNat < 0x40 := by omega
    have notBitcnt : addr ≠ 0x34 := by rintro rfl; exact notRegister (by decide)
    simp only [Place.Refuses, notRegister, notBitcnt, false_and, false_or, or_false, true_iff, false_iff]
    omega

theorem hostWrite_refused {s : State} {addr v : Word} {p : Place} (hp : placeOf s.cfg.payCap addr = some p)
    (refuses : p.Refuses s v) : hostWrite addr v s = .next (s.respond .busError) := by
  simp only [hostWrite, hp]
  cases p with
  | reg r =>
    cases r with
    | cmd | arg | errs => cases refuses
    | bitcnt => exact if_pos refuses
    | _ => rfl
  | freq | pay => cases refuses
  | _ => rfl

/-- No command gives a response of its own: the CMD write that carries it does (R32). -/
theorem effect_responses (i : Instr) (s : State) : (effect i s).responses = s.responses := by
  cases i with
  | tinit => rw [effect, tinitBody_frame]; rfl
  | tfin => rw [effect, tfinBody_frame]; rfl
  | tbuild => rw [effect, tbuildBody_frame]; rfl
  | pput n => rw [effect, putBits_frame]; rfl
  | psym sym => rw [effect, putBits_frame]; rfl
  | usym => simp only [effect]; split <;> rfl
  | _ => rfl

theorem runWord_responses (w : Word) (s : State) : ∃ t, runWord w s = .next t ∧ t.responses = s.responses := by
  rcases runWord_cases w s with ⟨-, run⟩ | ⟨i, -, ⟨-, run⟩ | ⟨-, e, -, run⟩⟩
  · exact ⟨_, run, raise_responses s _⟩
  · exact ⟨_, run, effect_responses i s⟩
  · exact ⟨_, run, raise_responses s e⟩

theorem hostWrite_accepted {s : State} {addr v : Word} {p : Place} (hp : placeOf s.cfg.payCap addr = some p)
    (accepts : ¬p.Refuses s v) : ∃ t, hostWrite addr v s = .next t ∧ t.responses = s.responses ++ [.ok] := by
  simp only [hostWrite, hp]
  cases p with
  | reg r =>
    cases r with
    | cmd =>
      obtain ⟨t, run, same⟩ := runWord_responses v s
      exact ⟨t.respond .ok, by rw [run]; rfl, by rw [respond_responses, same]⟩
    | arg | errs => exact ⟨_, rfl, rfl⟩
    | bitcnt => exact ⟨_, if_neg accepts, rfl⟩
    | _ => exact absurd trivial accepts
  | freq | pay => exact ⟨_, rfl, rfl⟩
  | _ => exact absurd trivial accepts

/-- Settles O10: an address has no place exactly under causes (1) and (2), and a place refuses a write exactly
under causes (3), (4) and (5). -/
theorem busErrorCauses : Obligations.BusErrorCauses := by
  intro s addr v
  refine ⟨fun unmapped => ?_, fun aligned inside => ?_⟩
  · have nowhere := placeOf_outside unmapped
    simp only [State.hostRead, hostWrite, nowhere, and_self]
  · obtain ⟨p, hp⟩ := exists_placeOf aligned inside
    rw [← refuses_iff hp]
    exact ⟨⟨s.readPlace p, by simp only [State.hostRead, hp]⟩, hostWrite_refused hp, hostWrite_accepted hp⟩

/-! ### Reads of the HEAP, NODE and CODE windows (R64, R65, R68) -/

theorem hostRead_of_addr (s : State) {addr : Word} (p : Place) (inMap : p.InMap s.cfg.payCap)
    (there : addr.toNat = p.addr) : s.hostRead addr = .word (s.readPlace p) := by
  simp only [State.hostRead, placeOf_of_addr inMap there]

/-- Word `k` of the NODE entry at `base` (R65). -/
theorem hostRead_node (s : State) {base : Word} {h : Handle} (real : h ≠ NIL)
    (there : base.toNat = 0x2000 + 16 * h.toNat) {k : Nat} (hk : k < 4) :
    s.hostRead (base + BitVec.ofNat 32 (4 * k)) = .word (s.readNode h.toNat k) := by
  have notNil : h.toNat ≠ 511 := fun nil => real (BitVec.eq_of_toNat_eq nil)
  refine hostRead_of_addr s (.node h.toNat k) ⟨by omega, hk⟩ ?_
  rw [BitVec.toNat_add, BitVec.toNat_ofNat, Place.addr]
  omega

/-- Word `k` of the CODE entry at `base` (R68). -/
theorem hostRead_code (s : State) {base : Word} {sym : Sym} (there : base.toNat = 0x4000 + 64 * sym.toNat)
    {k : Nat} (hk : k < 16) : s.hostRead (base + BitVec.ofNat 32 (4 * k)) = .word (s.readCode sym.toNat k) := by
  refine hostRead_of_addr s (.code sym.toNat k) ⟨sym.isLt, hk⟩ ?_
  rw [BitVec.toNat_add, BitVec.toNat_ofNat, Place.addr]
  omega

theorem readNode_wlo (s : State) (h : Handle) : s.readNode h.toNat 0 = (s.nodeAt h).w.extractLsb' 0 32 := rfl

theorem readNode_whi (s : State) (h : Handle) : s.readNode h.toNat 1 = 0#24 ++ (s.nodeAt h).w.extractLsb' 32 8 :=
  BitVec.setWidth_eq_append (by decide)

theorem readNode_link (s : State) (h : Handle) :
    s.readNode h.toNat 2 = 0#7 ++ (s.nodeAt h).right ++ 0#7 ++ (s.nodeAt h).left := by
  change (s.nodeAt h).left.setWidth 32 ||| (s.nodeAt h).right.setWidth 32 <<< 16 = _
  ext i hi
  grind

theorem readNode_info (s : State) (h : Handle) :
    s.readNode h.toNat 3 = 0#16 ++ (s.nodeAt h).sym ++ 0#6 ++
      BitVec.ofBool (decide (h.toNat < s.nnode.toNat)) ++ BitVec.ofBool (s.nodeAt h).leaf := by
  change flagBit (s.nodeAt h).leaf 0 ||| flagBit (s.used h.toNat) 1 ||| (s.nodeAt h).sym.setWidth 32 <<< 8 = _
  ext i hi
  grind [flagBit, State.used]

theorem readCode_clen (s : State) (sym : Sym) :
    s.readCode sym.toNat 0 = BitVec.ofBool (s.codeAt sym).valid ++ 0#23 ++ (s.codeAt sym).len := by
  change (s.codeAt sym).len.setWidth 32 ||| flagBit (s.codeAt sym).valid 31 = _
  ext i hi
  grind [flagBit]

theorem readCode_reserved (s : State) (i : Nat) {k : Nat} (h1 : 1 ≤ k) (h8 : k < 8) : s.readCode i k = 0 := by
  rw [State.readCode, if_neg (by omega), if_pos h8]

theorem readCode_cbits (s : State) (sym : Sym) (k : Nat) :
    s.readCode sym.toNat (8 + k) = (s.codeAt sym).bits.extractLsb' (32 * k) 32 := by
  rw [State.readCode, if_neg (by omega), if_neg (by omega), Nat.add_sub_cancel_left, State.codeAt]

/-- Settles O16: each word is read at its place, and its fields stand side by side. -/
theorem windowWordLayouts : Obligations.WindowWordLayouts := by
  refine ⟨fun s addr i hi there => hostRead_of_addr s (.heap i) hi there, fun s addr h real there => ?_,
    fun s addr sym there => ?_⟩
  · have read {k : Nat} (hk : k < 4) := hostRead_node s real there hk
    rw [← readNode_wlo, ← readNode_whi, ← readNode_link, ← readNode_info]
    exact ⟨by simpa using read (k := 0) (by decide), read (k := 1) (by decide), read (k := 2) (by decide),
      read (k := 3) (by decide)⟩
  · have read {k : Nat} (hk : k < 16) := hostRead_code s there hk
    refine ⟨?_, fun k h1 h8 => ?_, fun k h8 => ?_⟩
    · rw [← readCode_clen]
      simpa using read (k := 0) (by decide)
    · rw [read (by omega), readCode_reserved s _ h1 h8]
    · rw [← readCode_cbits, ← read (by omega), Nat.mul_add]

/-! ### The FREQ window (R63) -/

theorem placeOf_freq (payCap : Nat) (sym : Sym) :
    placeOf payCap (0x400 + 4 * sym.setWidth 32) = some (.freq sym.toNat) := by
  refine placeOf_of_addr sym.isLt ?_
  rw [Place.addr, BitVec.toNat_add, BitVec.toNat_mul, BitVec.toNat_setWidth]
  change (0x400 + 4 * _ % _) % _ = _
  omega

/-- Settles O14: the word of a symbol's address is its count, and a write there is `setFreq`. -/
theorem freqWindowReadsAndWrites : Obligations.FreqWindowReadsAndWrites := by
  intro s sym v
  have place := placeOf_freq s.cfg.payCap sym
  have read : s.hostRead (0x400 + 4 * sym.setWidth 32) = .word (s.freqAt sym) := by
    simp only [State.hostRead, place]
    rfl
  have write : hostWrite (0x400 + 4 * sym.setWidth 32) v s = .next ((s.setFreq sym v).respond .ok) := by
    simp only [hostWrite, place]
    rfl
  exact ⟨read, _, write, rfl, fun y => freqAt_setFreq s sym y v⟩

/-! ### The byte that `putbit` writes (R76) -/

theorem keepMask_eq_ofNat : ∀ k < 8, keepMask k = BitVec.ofNat 8 (0xFF00 / 2 ^ k % 256) := by decide

theorem newBit_eq_ofNat : ∀ k < 8, ∀ b : Bool,
    (BitVec.ofBool b).setWidth 8 <<< (7 - k) = BitVec.ofNat 8 (b.toNat * 2 ^ (7 - k)) := by decide

/-- The byte of `putbit` in the numbers of R76. -/
theorem packByte_eq_ofNat (old : Byte) (b : Bool) {k : Nat} (hk : k < 8) :
    packByte old k b =
      (old &&& BitVec.ofNat 8 (0xFF00 / 2 ^ k % 256)) ||| BitVec.ofNat 8 (b.toNat * 2 ^ (7 - k)) := by
  rw [packByte, keepMask_eq_ofNat k hk, newBit_eq_ofNat k hk b]

/-- Settles O46: `putbit` is one byte write, of R76's byte, and one more bit counted. -/
theorem putbitWritesOneByte : Obligations.PutbitWritesOneByte := by
  intro s b noWrap
  refine ⟨bitcnt_putbit s b noWrap, rfl, ?_, fun a other => ?_⟩
  · rw [payByte_putbit, if_pos rfl]
    exact packByte_eq_ofNat _ b (Nat.mod_lt _ (by decide))
  · rw [payByte_putbit, if_neg other]

end Sys2Proof.Machine
end

section
/-! SUPPORT. The decoder against the opcode map (rules R91 to R94, R97, R100): at most one row matches a word, the
decoder takes that row, and the fields of a word that some row matches are those R93 allows. -/

namespace Sys2Proof.Machine

/-! ### Decoding is matching a row (R100) -/

theorem matches_iff (r : OpRow) (w : Word) : r.matches w = true ↔ w &&& r.mask = r.pattern := beq_iff_eq

/-- Two rows that agree on the bits both masks cover are one row (R93). -/
theorem eq_of_agree_under_both_masks :
    ∀ r ∈ opTable, ∀ q ∈ opTable, r.pattern &&& q.mask = q.pattern &&& r.mask → r = q := by decide

theorem matching_row_unique {w : Word} {r q : OpRow} (hr : r ∈ opTable) (hq : q ∈ opTable)
    (wr : w &&& r.mask = r.pattern) (wq : w &&& q.mask = q.pattern) : r = q := by
  refine eq_of_agree_under_both_masks r hr q hq ?_
  rw [← wr, ← wq, BitVec.and_assoc, BitVec.and_assoc, BitVec.and_comm q.mask]

/-- The row that `decode` finds is one that matches. -/
theorem matching_row_of_find {w : Word} {r : OpRow} (found : opTable.find? (fun r => r.matches w) = some r) :
    r ∈ opTable ∧ w &&& r.mask = r.pattern :=
  have isMatch : r.matches w = true := List.find?_some (p := (OpRow.matches · w)) found
  ⟨List.mem_of_find?_eq_some found, (matches_iff r w).1 isMatch⟩

theorem decode_of_matching_row {w : Word} {r : OpRow} (hr : r ∈ opTable) (wr : w &&& r.mask = r.pattern) :
    decode w = .ok (assemble r.op w) := by
  have exists_row : (opTable.find? (fun r => r.matches w)).isSome = true :=
    List.find?_isSome.2 ⟨r, hr, (matches_iff r w).2 wr⟩
  obtain ⟨q, found⟩ := Option.isSome_iff_exists.1 exists_row
  obtain ⟨hq, wq⟩ := matching_row_of_find found
  rw [matching_row_unique hr hq wr wq]
  simp only [decode, found]

theorem runWord_of_decode {w : Word} {i : Instr} (h : decode w = .ok i) (s : State) : runWord w s = exec i s := by
  simp only [runWord, h]

theorem exists_matching_row {w : Word} {i : Instr} (h : decode w = .ok i) :
    ∃ r ∈ opTable, w &&& r.mask = r.pattern := by
  unfold decode at h
  split at h
  · next r found => exact ⟨r, matching_row_of_find found⟩
  · split at h <;> cases h

/-- A word that no row matches is an illegal command (R94). -/
theorem runWord_of_no_row {w : Word} (noRow : ∀ r ∈ opTable, w &&& r.mask ≠ r.pattern) (s : State) :
    runWord w s = .next (s.raise .illegalCommand) := by
  rcases runWord_cases w s with ⟨-, illegal⟩ | ⟨i, hi, -⟩
  · exact illegal
  · obtain ⟨r, hr, wr⟩ := exists_matching_row hi
    exact absurd wr (noRow r hr)

theorem opcode_covered : ∀ r ∈ opTable, r.mask.extractLsb' 24 8 = 0xFF#8 := by decide

/-- Settles O3: the row `decode` finds is the only one that matches. -/
theorem decodeFollowsTheOpcodeMap : Obligations.DecodeFollowsTheOpcodeMap := by
  refine ⟨fun w r q => matching_row_unique, opcode_covered, fun w r hr wr => ?_, fun w s noRow => ?_⟩
  · have decoded := decode_of_matching_row hr wr
    refine ⟨decoded, runWord_of_decode decoded, ?_, ?_, ?_, ?_⟩
    all_goals intro op; rw [op]; rfl
  · rw [runWord_of_no_row noRow, raise_eq_raised]
    rfl

/-! ### The fields of the words that rows match (R93, R94) -/

/-- A field all of whose bits the mask covers is the pattern's. -/
theorem extractLsb'_of_matching_row {w : Word} {r : OpRow} (wr : w &&& r.mask = r.pattern) {start len : Nat}
    (covered : r.mask.extractLsb' start len = BitVec.allOnes len) :
    w.extractLsb' start len = r.pattern.extractLsb' start len := by
  rw [← wr, BitVec.extractLsb'_and, covered, BitVec.and_allOnes]

/-- Row `r` requires every bit of this field to be 0. -/
def RequiresZero (r : OpRow) (start len : Nat) : Prop :=
  r.mask.extractLsb' start len = BitVec.allOnes len ∧ r.pattern.extractLsb' start len = 0

theorem RequiresZero.field_eq_zero {w : Word} {r : OpRow} {start len : Nat} (h : RequiresZero r start len)
    (wr : w &&& r.mask = r.pattern) : w.extractLsb' start len = 0 :=
  (extractLsb'_of_matching_row wr h.1).trans h.2

theorem reserved_requiresZero : ∀ r ∈ opTable, RequiresZero r 13 11 := by
  unfold RequiresZero
  decide

theorem count_requiresZero :
    ∀ r ∈ opTable, r.pattern.extractLsb' 24 8 ∉ [0x41#8, 0x51] → RequiresZero r 8 5 := by
  unfold RequiresZero
  decide

theorem sym_requiresZero :
    ∀ r ∈ opTable, r.pattern.extractLsb' 24 8 ∉ [0x11#8, 0x42] → RequiresZero r 0 8 := by
  unfold RequiresZero
  decide

theorem opcode_listed : ∀ r ∈ opTable, r.pattern.extractLsb' 24 8 ∈
    [0x00#8, 0x10, 0x11, 0x20, 0x21, 0x22, 0x23, 0x30, 0x40, 0x41, 0x42, 0x50, 0x51, 0x52, 0xFF] := by decide

/-- A word written to CMD runs and is answered OK (R32). -/
theorem step_of_command_word {s : State} {w : Word} {rest : List HostInput}
    (waits : s.bus = .txn (.write 0x04 w) :: rest) : step s = answer .ok (runWord w { s with bus := rest }) := by
  have place : placeOf s.cfg.payCap 0x04 = some (.reg .cmd) := placeOf_regAddr _ .cmd
  simp only [step, waits, serve, hostWrite, place]

/-- Settles O5: a row that matched would have the word's OPC and force each required field to 0. -/
theorem illegalWordsRaiseIllegalCommand : Obligations.IllegalWordsRaiseIllegalCommand := by
  intro w s rest waits illegal
  have noRow : ∀ r ∈ opTable, w &&& r.mask ≠ r.pattern := by
    intro r hr wr
    have opc := extractLsb'_of_matching_row wr (opcode_covered r hr)
    rw [opc] at illegal
    rcases illegal with unlisted | reserved | ⟨count, other⟩ | ⟨sym, other⟩
    · exact unlisted (opcode_listed r hr)
    · exact reserved ((reserved_requiresZero r hr).field_eq_zero wr)
    · exact count ((count_requiresZero r hr other).field_eq_zero wr)
    · exact sym ((sym_requiresZero r hr other).field_eq_zero wr)
  rw [step_of_command_word waits, runWord_of_no_row noRow]
  rfl

/-! ### The worked encodings (R97) -/

/-- Settles O4: each word is evaluated by the decoder. -/
theorem workedEncodingsDecode : Obligations.WorkedEncodingsDecode := by
  unfold Obligations.WorkedEncodingsDecode
  decide

end Sys2Proof.Machine
end

section
/-! SUPPORT. The frequency accumulator (rules R110, R111, R113): what FACC does to one count, how a run of FACC adds
up to the number of occurrences of each symbol, and NSYM, TOTAL and EMPTY read off the counts. -/

namespace Sys2Proof.Machine

/-! ### Commands that succeed, alone and in a run (R192) -/

/-- Decoding the encoded word gives back every well-formed command that its row assembles again (R93). -/
theorem decode_encode_of_statement {i : Instr} (row : Laws.Encoding.Statement i) (wf : i.wellFormed = true) :
    decode (encode i) = .ok i := by
  obtain ⟨r, hr, isMatch, assembled⟩ := row wf
  rw [decode_of_matching_row hr ((matches_iff r _).1 isMatch), assembled]

theorem exec_of_succeeds {i : Instr} {s : State} (h : Succeeds i s) : exec i s = .next (effect i s) :=
  (exec_cases i s).elim And.right fun failed => absurd h failed.1

/-- A run goes past its first command exactly when that command succeeds. -/
theorem runOk_cons_eq_some {i : Instr} {is : List Instr} {s t : State} :
    runOk (i :: is) s = some t ↔ Succeeds i s ∧ runOk is (effect i s) = some t := by
  rcases exec_cases i s with ⟨ok, run⟩ | ⟨fails, e, -, run⟩
  · simp [runOk, run, effect_result ok, ok]
  · have stopped : runOk (i :: is) s = none := by
      rw [runOk, run]
      exact if_neg (code_ne_zero e)
    simp [stopped, fails]

/-! ### One count (R111) -/

@[simp] theorem freqAt_done (s : State) (y : Sym) : s.done.freqAt y = s.freqAt y := rfl

/-- A count that is not full has room for one more: FACC does not wrap. -/
theorem toNat_freqAt_facc {s : State} {sym : Sym} (room : Succeeds (.facc sym) s) (y : Sym) :
    ((effect (.facc sym) s).freqAt y).toNat = (s.freqAt y).toNat + if y = sym then 1 else 0 := by
  have notFull : s.freqAt sym ≠ 0xFFFFFFFF#32 := room
  rw [effect, freqAt_done, freqAt_setFreq]
  split
  · next same =>
    subst same
    bv_omega
  · rfl

theorem exec_facc_full {s : State} {sym : Sym} (full : s.freqAt sym = 0xFFFFFFFF) :
    exec (.facc sym) s = .next (s.raise .countOverflow) := if_pos full

/-! ### NSYM, TOTAL and EMPTY after one FACC (R35, R36, R28) -/

theorem freqAt_ne_zero_iff (s : State) (y : Sym) : s.freqAt y ≠ 0 ↔ (s.freqAt y).toNat ≠ 0 := by
  rw [Ne, BitVec.toNat_eq]
  rfl

theorem freqAt_facc_ne_zero {s : State} {sym : Sym} (room : Succeeds (.facc sym) s) (y : Sym) :
    (effect (.facc sym) s).freqAt y ≠ 0 ↔ y = sym ∨ s.freqAt y ≠ 0 := by
  rw [freqAt_ne_zero_iff, freqAt_ne_zero_iff, toNat_freqAt_facc room]
  by_cases same : y = sym <;> simp [same]

theorem total_facc {s : State} {sym : Sym} (room : Succeeds (.facc sym) s) :
    (effect (.facc sym) s).total = s.total + 1 := by
  simp [total_eq_sum, toNat_freqAt_facc room, Finset.sum_add_distrib]

/-- The symbols with a count are those of before and `sym`, so NSYM grows exactly when `sym` is new. -/
theorem nsym_facc {s : State} {sym : Sym} (room : Succeeds (.facc sym) s) :
    (effect (.facc sym) s).nsym = s.nsym + if s.freqAt sym = 0 then 1 else 0 := by
  have counted : (Finset.univ.filter fun y => (effect (.facc sym) s).freqAt y ≠ 0) =
      insert sym (Finset.univ.filter fun y => s.freqAt y ≠ 0) := by
    ext y
    simp only [Finset.mem_filter_univ, Finset.mem_insert, freqAt_facc_ne_zero room]
  rw [nsym_eq_card, nsym_eq_card, counted, Finset.card_insert_eq_ite]
  simp only [Finset.mem_filter_univ, ite_not]
  split <;> rfl

theorem freqEmpty_facc {s : State} {sym : Sym} (room : Succeeds (.facc sym) s) :
    (effect (.facc sym) s).freqEmpty = false := by
  rw [← Bool.not_eq_true, freqEmpty_iff]
  exact fun empty => (freqAt_facc_ne_zero room sym).2 (.inl rfl) (empty sym)

/-- Settles O30: short of a full count FACC succeeds and its effect is one more at `sym`; else it raises. -/
theorem faccCountsOneOccurrence : Obligations.FaccCountsOneOccurrence := by
  intro s sym
  refine ⟨decode_encode_of_statement (Laws.Encoding.facc sym) rfl, fun room => ?_, fun full => ?_⟩
  · exact ⟨_, exec_of_succeeds room, rfl, toNat_freqAt_facc room, total_facc room, nsym_facc room,
      freqEmpty_facc room⟩
  · rw [exec_facc_full full, raise_eq_raised]
    rfl

/-! ### A run of FACC (R113) -/

theorem freqAt_of_runOk_facc {xs : List Sym} {s t : State} (run : runOk (xs.map .facc) s = some t) (y : Sym) :
    (t.freqAt y).toNat = (s.freqAt y).toNat + xs.count y := by
  induction xs generalizing s with
  | nil =>
    cases run
    rfl
  | cons x xs ih =>
    obtain ⟨room, rest⟩ := runOk_cons_eq_some.1 run
    rw [ih rest, toNat_freqAt_facc room, List.count_cons, Nat.add_assoc, Nat.add_comm (xs.count y)]
    simp only [beq_iff_eq, eq_comm (a := x)]

/-- No FACC of a run overflows where the final counts all fit in a word. -/
theorem exists_runOk_facc {xs : List Sym} {s : State} (fits : ∀ y, (s.freqAt y).toNat + xs.count y < 2 ^ 32) :
    ∃ t, runOk (xs.map .facc) s = some t := by
  induction xs generalizing s with
  | nil => exact ⟨s, rfl⟩
  | cons x xs ih =>
    have room : Succeeds (.facc x) s := by
      intro full
      have fitsHere := fits x
      rw [full, List.count_cons_self] at fitsHere
      change 2 ^ 32 - 1 + _ < _ at fitsHere
      omega
    obtain ⟨t, rest⟩ : ∃ t, runOk (xs.map .facc) (effect (.facc x) s) = some t := by
      refine ih fun y => ?_
      have fitsThere := fits y
      rw [List.count_cons, Nat.add_comm (xs.count y), ← Nat.add_assoc] at fitsThere
      rw [toNat_freqAt_facc room]
      simpa only [beq_iff_eq, eq_comm (a := x)] using fitsThere
    exact ⟨t, runOk_cons_eq_some.2 ⟨room, rest⟩⟩

/-! ### NSYM, TOTAL and EMPTY of a table of occurrence counts (R113) -/

/-- FREQ holds for every symbol its number of occurrences in `xs`. -/
def State.CountsOf (s : State) (xs : List Sym) : Prop := ∀ y, (s.freqAt y).toNat = xs.count y

theorem State.CountsOf.freqAt_ne_zero {s : State} {xs : List Sym} (h : s.CountsOf xs) (y : Sym) :
    s.freqAt y ≠ 0 ↔ y ∈ xs := by
  rw [freqAt_ne_zero_iff, h y, Ne, List.count_eq_zero, not_not]

theorem State.CountsOf.total {s : State} {xs : List Sym} (h : s.CountsOf xs) : s.total = xs.length := by
  rw [total_eq_sum, Finset.sum_congr rfl fun y _ => h y]
  simpa only [Multiset.coe_count, Multiset.coe_card] using
    Multiset.sum_count_eq_card (m := (xs : Multiset Sym)) fun y _ => Finset.mem_univ y

theorem State.CountsOf.nsym {s : State} {xs : List Sym} (h : s.CountsOf xs) : s.nsym = xs.dedup.length := by
  rw [nsym_eq_card, ← List.card_toFinset]
  congr 1
  ext y
  simpa using h.freqAt_ne_zero y

theorem State.CountsOf.freqEmpty {s : State} {xs : List Sym} (h : s.CountsOf xs) :
    s.freqEmpty = true ↔ xs.length = 0 := by
  rw [← nsym_eq_zero, h.nsym, List.length_eq_zero_iff, List.length_eq_zero_iff, List.dedup_eq_nil]

theorem countsOf_of_runOk_facc {xs : List Sym} {s t : State} (cleared : ∀ y, s.freqAt y = 0)
    (run : runOk (xs.map .facc) s = some t) : t.CountsOf xs := by
  intro y
  rw [freqAt_of_runOk_facc run, cleared]
  exact Nat.zero_add _

theorem exists_runOk_facc_of_cleared {xs : List Sym} {s : State} (cleared : ∀ y, s.freqAt y = 0)
    (fits : ∀ y, xs.count y < 2 ^ 32) : ∃ t, runOk (xs.map .facc) s = some t := by
  refine exists_runOk_facc fun y => ?_
  rw [cleared]
  simpa using fits y

/-- Settles O31: the counts after the run are the occurrences, which no order changes and each of which is at most
the length. -/
theorem faccSequenceCountsSymbols : Obligations.FaccSequenceCountsSymbols := by
  intro s xs cleared
  refine ⟨fun t run => ?_, fun short => ?_⟩
  · have counts : t.CountsOf xs := countsOf_of_runOk_facc cleared run
    refine ⟨counts, counts.total, counts.nsym, counts.freqEmpty, fun ys perm => ?_⟩
    have fits : ∀ y, ys.count y < 2 ^ 32 := fun y => by
      rw [← perm.count_eq, ← counts y]
      exact (t.freqAt y).isLt
    obtain ⟨u, reordered⟩ := exists_runOk_facc_of_cleared cleared fits
    refine ⟨u, reordered, freq_ext fun y => BitVec.eq_of_toNat_eq ?_⟩
    rw [countsOf_of_runOk_facc cleared reordered y, counts y, perm.count_eq]
  · exact exists_runOk_facc_of_cleared cleared fun y => Nat.lt_of_le_of_lt List.count_le_length short

/-! ### FCLR (R110) -/

/-- Settles O29: the table after FCLR is that of no occurrences. -/
theorem fclrClearsEveryCount : Obligations.FclrClearsEveryCount := by
  refine ⟨decode_encode_of_statement Laws.Encoding.fclr rfl, fun s => ?_⟩
  have cleared : ∀ y, (effect .fclr s).freqAt y = 0 := freqAt_clearFreq s
  have counts : (effect .fclr s).CountsOf [] := countsOf_of_runOk_facc cleared rfl
  exact ⟨_, exec_of_succeeds (i := .fclr) trivial, rfl, cleared, counts.nsym, counts.total, counts.freqEmpty.2 rfl⟩

end Sys2Proof.Machine
end

section
/-! SUPPORT. The order of the keys (rule R121) as the lexicographic order of the library, and the tree that TBUILD
makes as a function of the counts (rule R129). -/

namespace Sys2Proof.Machine

/-! ### The order of the keys (R121) -/

/-- The key of a handle: its weight, then the handle itself (R121). -/
def nodeKey (t : Vector Node 511) (h : Handle) : ℕ ×ₗ ℕ := toLex ((nodeAt t h).w.toNat, h.toNat)

theorem nodeKey_lt_iff {t : Vector Node 511} {a b : Handle} : nodeKey t a < nodeKey t b ↔
    (nodeAt t a).w.toNat < (nodeAt t b).w.toNat ∨ ((nodeAt t a).w = (nodeAt t b).w ∧ a.toNat < b.toNat) := by
  rw [nodeKey, nodeKey, Prod.Lex.toLex_lt_toLex, BitVec.toNat_inj]

theorem less_iff_nodeKey_lt {t : Vector Node 511} {a b : Handle} : less t a b = true ↔ nodeKey t a < nodeKey t b := by
  simp [less, nodeKey_lt_iff, BitVec.lt_def]

theorem nodeKey_injective (t : Vector Node 511) : Function.Injective (nodeKey t) := fun _ _ same =>
  BitVec.eq_of_toNat_eq (congrArg (fun k => (ofLex k).2) same)

/-- Settles O32: `less` compares keys, keys are linearly ordered, and a key determines its handle. -/
theorem lessIsTheKeyOrder : Obligations.LessIsTheKeyOrder := by
  intro t a b c
  refine ⟨less_iff_nodeKey_lt.trans nodeKey_lt_iff, ?_, fun ab bc => ?_, fun ne => ?_⟩
  · rw [← Bool.not_eq_true, less_iff_nodeKey_lt]
    exact lt_irrefl _
  · rw [less_iff_nodeKey_lt] at ab bc ⊢
    exact ab.trans bc
  · rw [less_iff_nodeKey_lt, less_iff_nodeKey_lt]
    exact lt_or_gt_of_ne ((nodeKey_injective t).ne ne)

/-! ### The tree is a function of the counts (R129) -/

/-- The fields a build command reads or writes, every other field at its reset value. -/
def State.buildPart (s : State) : State :=
  { State.reset with
    freq := s.freq, node := s.node, heap := s.heap, nnode := s.nnode, heapn := s.heapn, root := s.root,
    treeValid := s.treeValid, codeValid := s.codeValid, heapLive := s.heapLive }

@[simp] theorem buildPart_node (s : State) : s.buildPart.node = s.node := rfl
@[simp] theorem buildPart_nnode (s : State) : s.buildPart.nnode = s.nnode := rfl
@[simp] theorem buildPart_heapn (s : State) : s.buildPart.heapn = s.heapn := rfl
@[simp] theorem buildPart_root (s : State) : s.buildPart.root = s.root := rfl
@[simp] theorem buildPart_freqAt (s : State) (y : Sym) : s.buildPart.freqAt y = s.freqAt y := rfl

/-- Of the whole state, TINIT's loop starts from FREQ alone (R124). -/
theorem buildPart_clearBuild (s : State) :
    s.clearBuild.buildPart = State.clearBuild { State.reset with freq := s.freq } := rfl

theorem buildPart_addLeaf (s : State) (y : Sym) : (s.addLeaf y).buildPart = s.buildPart.addLeaf y := by
  unfold State.addLeaf
  rw [buildPart_freqAt]
  split <;> rfl

theorem buildPart_tinitBody (s : State) :
    s.tinitBody.buildPart = State.tinitBody { State.reset with freq := s.freq } := by
  unfold State.tinitBody
  rw [← List.foldl_hom State.buildPart fun s y => (buildPart_addLeaf s y).symm, buildPart_clearBuild]

theorem buildPart_tmergeBody (s : State) : s.tmergeBody.buildPart = s.buildPart.tmergeBody := rfl

theorem buildPart_mergeAll (fuel : Nat) (s : State) : (s.mergeAll fuel).buildPart = s.buildPart.mergeAll fuel := by
  induction fuel generalizing s with
  | zero => rfl
  | succ fuel ih =>
    unfold State.mergeAll
    rw [buildPart_heapn]
    split
    · rw [ih, buildPart_tmergeBody]
    · rfl

theorem buildPart_tfinBody (s : State) : s.tfinBody.buildPart = s.buildPart.tfinBody := by
  have sameTop : (s.buildPart.heapExtractMin.2.nodeAt s.buildPart.heapExtractMin.1).leaf =
    (s.heapExtractMin.2.nodeAt s.heapExtractMin.1).leaf := rfl
  unfold State.tfinBody
  simp only [sameTop]
  split <;> rfl

/-- TBUILD makes the tree it would make of the same counts in a block that was just reset. -/
theorem buildPart_tbuildBody (s : State) :
    s.tbuildBody.buildPart = State.tbuildBody { State.reset with freq := s.freq } := by
  unfold State.tbuildBody
  rw [buildPart_tfinBody, buildPart_mergeAll, ← buildPart_heapn, buildPart_tinitBody]

theorem exec_tbuild_of_count {s : State} (count : ∃ sym, s.freqAt sym ≠ 0) :
    exec .tbuild s = .next s.tbuildBody.done := by
  have nonEmpty : Succeeds .tbuild s := by
    rw [Succeeds, ← Bool.not_eq_true, freqEmpty_iff, not_forall]
    exact count
  exact exec_of_succeeds nonEmpty

/-- Settles O41: equal counts are equal FREQ tables, and the build fields after TBUILD are a function of FREQ. -/
theorem treeDependsOnFrequenciesOnly : Obligations.TreeDependsOnFrequenciesOnly := by
  intro s t s' t' sameCounts count runS runT
  have sameBuild : s.tbuildBody.buildPart = t.tbuildBody.buildPart := by
    rw [buildPart_tbuildBody, buildPart_tbuildBody, freq_ext sameCounts]
  rw [exec_tbuild_of_count count] at runS
  rw [exec_tbuild_of_count (by simpa only [sameCounts] using count)] at runT
  rw [← Host.Outcome.next.inj runS, ← Host.Outcome.next.inj runT]
  refine ⟨?_, ?_, ?_⟩
  · simpa using congrArg State.node sameBuild
  · simpa using congrArg State.nnode sameBuild
  · simpa using congrArg State.root sameBuild

end Sys2Proof.Machine
end

section
/-! SUPPORT. The bit packer (rules R151, R153): the capacity in bits, the count field of a command word, and the three
parts of the payload after the loop of `putbit`: the bits below BITCNT, the new ones, and the padding. -/

namespace Sys2Proof.Machine

/-! ### The capacity and the count field (R9, R92) -/

/-- PAY of a legal capacity holds at most 2^31 bits, so BITCNT does not wrap. -/
theorem capBits_le_of_legal {s : State} (legal : s.cfg.legal = true) : s.capBits ≤ 2 ^ 31 := by
  simp only [Config.legal, Bool.and_eq_true, decide_eq_true_eq] at legal
  have bytes := legal.2
  unfold State.capBits
  omega

theorem overflows_eq_true_iff (s : State) (n : Nat) : s.overflows n = true ↔ s.capBits < s.bitcnt.toNat + n :=
  decide_eq_true_iff

theorem overflows_eq_false_iff (s : State) (n : Nat) : s.overflows n = false ↔ s.bitcnt.toNat + n ≤ s.capBits := by
  rw [← Bool.not_eq_true, overflows_eq_true_iff, Nat.not_lt]

/-- A count of at most 32 fits the field NM1, so the field may be written in 32 bits. -/
theorem withCount_eq_or_ofNat (base : Word) {n : Nat} (le : n ≤ 32) :
    withCount base n = base ||| BitVec.ofNat 32 (n - 1) <<< 8 := by
  have field : (BitVec.ofNat 5 (n - 1)).setWidth 32 = BitVec.ofNat 32 (n - 1) := by
    apply BitVec.eq_of_toNat_eq
    simp only [BitVec.toNat_setWidth, BitVec.toNat_ofNat]
    omega
  rw [withCount, field]

/-! ### The payload after the loop (R76, R151) -/

section
variable {f : Nat → Bool} {n : Nat} {s : State} (fits : s.bitcnt.toNat + n ≤ 2 ^ 31)
include fits

theorem getbit_putBits_of_lt {p : Nat} (below : p < s.bitcnt.toNat) : (s.putBits f n).getbit p = s.getbit p := by
  rw [getbit_putBits f n s fits, if_pos below]

/-- The loop puts `f (n-1)` first. -/
theorem getbit_putBits_appended {j : Nat} (hj : j < n) :
    (s.putBits f n).getbit (s.bitcnt.toNat + j) = f (n - 1 - j) := by
  rw [getbit_putBits f n s fits, if_neg (by omega), if_pos (by omega)]
  congr 1
  omega

/-- The rest of the last byte that got a bit is 0. -/
theorem getbit_putBits_padding (pos : 1 ≤ n) {p : Nat} (above : s.bitcnt.toNat + n ≤ p)
    (lastByte : p < 8 * ((s.bitcnt.toNat + n + 7) / 8)) : (s.putBits f n).getbit p = false := by
  rw [getbit_putBits f n s fits, if_neg (by omega), if_neg (by omega), if_pos ⟨pos, by omega⟩]

/-- Bits were packed past RDPOS, so they are still to be read (R28). -/
theorem eos_putBits (pos : 1 ≤ n) (read : s.rdpos.toNat ≤ s.bitcnt.toNat) : (s.putBits f n).eos = false := by
  have grown := bitcnt_putBits f n s fits
  have sameRdpos : (s.putBits f n).rdpos = s.rdpos := by rw [putBits_frame]
  rw [← Bool.not_eq_true, eos_iff, sameRdpos]
  intro atEnd
  rw [← atEnd] at grown
  omega

end

/-! ### PPUT (R151) -/

theorem exec_pput_overflow {s : State} {n : Nat} (tooMany : s.overflows n = true) :
    exec (.pput n) s = .next (s.raise .payloadOverflow) := if_pos tooMany

/-- Settles O47: PPUT raises exactly where its bits overflow PAY, and else its effect is the loop of `putbit` over the
bits of ARG. -/
theorem pputAppendsArgBits : Obligations.PputAppendsArgBits := by
  intro s n legal pos le
  have wf : (Instr.pput n).wellFormed = true := by simp [Instr.wellFormed, wellFormedCount, pos, le]
  refine ⟨?_, fun tooMany => ?_, fun room => ?_⟩
  · rw [← withCount_eq_or_ofNat _ le]
    exact decode_encode_of_statement (Laws.Encoding.pput n) wf
  · rw [exec_pput_overflow ((overflows_eq_true_iff s n).2 tooMany), raise_eq_raised]
    rfl
  · have succeeds : Succeeds (.pput n) s := (overflows_eq_false_iff s n).2 room
    have fits : s.bitcnt.toNat + n ≤ 2 ^ 31 := room.trans (capBits_le_of_legal legal)
    have grown : (effect (.pput n) s).bitcnt.toNat = s.bitcnt.toNat + n := bitcnt_putBits s.argBit n s fits
    refine ⟨_, exec_of_succeeds succeeds, ?_, grown, eos_putBits fits pos, fun j => getbit_putBits_appended fits,
      fun p => getbit_putBits_of_lt fits, ?_, ?_⟩
    · rw [effect, putBits_frame]
      rfl
    · rw [grown]
      exact fun p => getbit_putBits_padding fits pos
    · rw [grown]
      exact payByte_putBits s.argBit n s fits

end Sys2Proof.Machine
end

section
/-! SUPPORT. The bit unpacker (rule R166): where RDPOS stands after UGET and what the bits of DATA are. -/

namespace Sys2Proof.Machine

/-! ### UGET (R166) -/

theorem exec_uget_end {s : State} {n : Nat} (tooFew : s.bitcnt.toNat < s.rdpos.toNat + n) :
    exec (.uget n) s = .next (s.raise .endOfStream) := if_pos tooFew

/-- The first bit read lands highest, in DATA[n-1]. -/
theorem getLsbD_data_uget (s : State) {n j : Nat} (le : n ≤ 32) (hj : j < n) :
    (effect (.uget n) s).data.getLsbD (n - 1 - j) = s.getbit (s.rdpos.toNat + j) := by
  have inWord : n - 1 - j < 32 := by omega
  have isRead : n - 1 - j < n := by omega
  have position : n - 1 - (n - 1 - j) = j := by omega
  rw [effect, done_data, getBits_bit, if_pos isRead, position]
  simp [inWord]

theorem getLsbD_data_uget_of_le (s : State) {n i : Nat} (above : n ≤ i) :
    (effect (.uget n) s).data.getLsbD i = false := by
  rw [effect, done_data, getBits_bit, if_neg above.not_gt]
  simp

/-- BITCNT is a word and RDPOS stays at or below it, so RDPOS does not wrap. -/
theorem toNat_rdpos_uget {s : State} {n : Nat} (enough : Succeeds (.uget n) s) :
    (effect (.uget n) s).rdpos.toNat = s.rdpos.toNat + n := by
  have bound : s.rdpos.toNat + n < 2 ^ 32 := enough.trans_lt s.bitcnt.isLt
  have count : (BitVec.ofNat 32 n).toNat = n := Nat.mod_eq_of_lt (by omega)
  rw [effect, done_rdpos, BitVec.toNat_add_of_lt (by rwa [count]), count]

theorem eos_uget_iff {s : State} {n : Nat} (enough : Succeeds (.uget n) s) :
    (effect (.uget n) s).eos = true ↔ s.rdpos.toNat + n = s.bitcnt.toNat := by
  rw [eos_iff, BitVec.toNat_eq, toNat_rdpos_uget enough]
  rfl

/-- Settles O50: UGET raises exactly where fewer than `n` bits are left, and else DATA is what the loop of `getBits`
read and RDPOS stands past it. -/
theorem ugetReadsTheNextBits : Obligations.UgetReadsTheNextBits := by
  intro s n pos le
  have wf : (Instr.uget n).wellFormed = true := by simp [Instr.wellFormed, wellFormedCount, pos, le]
  refine ⟨?_, fun tooFew => ?_, fun enough => ?_⟩
  · rw [← withCount_eq_or_ofNat _ le]
    exact decode_encode_of_statement (Laws.Encoding.uget n) wf
  · rw [exec_uget_end tooFew, raise_eq_raised]
    rfl
  · have succeeds : Succeeds (.uget n) s := enough
    exact ⟨_, exec_of_succeeds succeeds, rfl, toNat_rdpos_uget succeeds, fun j => getLsbD_data_uget s le,
      fun i => getLsbD_data_uget_of_le s, eos_uget_iff succeeds⟩

end Sys2Proof.Machine
end

section
/-! SUPPORT. System commands (rules R180, R181) and the two rewinds (rules R150, R165): what the tables read as after
reset, and the commands that succeed in every state. -/

namespace Sys2Proof.Machine

/-! ### The tables after reset (R50) -/

@[simp] theorem freqAt_reset (sym : Sym) : State.reset.freqAt sym = 0 := tableGet_replicate 0 sym.toNat

@[simp] theorem codeAt_reset (sym : Sym) : State.reset.codeAt sym = CodeEntry.absent :=
  tableGet_replicate CodeEntry.absent sym.toNat

@[simp] theorem nodeAt_reset (h : Handle) : State.reset.nodeAt h = Node.empty := tableGet_replicate Node.empty h.toNat

@[simp] theorem heapAt_reset (i : Nat) : State.reset.heapAt i = NIL := tableGet_replicate NIL i

theorem status_reset : State.reset.status = 0x18 := statusBits.2.2

/-! ### What is read after SRST (R181) -/

@[simp] theorem freqAt_softReset (s : State) (sym : Sym) : s.softReset.freqAt sym = 0 := freqAt_reset sym

@[simp] theorem codeAt_softReset (s : State) (sym : Sym) : s.softReset.codeAt sym = CodeEntry.absent :=
  codeAt_reset sym

@[simp] theorem nodeAt_softReset (s : State) (h : Handle) : s.softReset.nodeAt h = Node.empty := nodeAt_reset h

@[simp] theorem heapAt_softReset (s : State) (i : Nat) : s.softReset.heapAt i = NIL := heapAt_reset i

@[simp] theorem payByte_softReset (s : State) (a : Nat) : s.softReset.payByte a = s.payByte a := rfl

/-- STATUS reads no element that SRST keeps. -/
theorem status_softReset (s : State) : s.softReset.status = 0x18 := status_reset

/-- `done` writes the RESULT that the reset has left already. -/
theorem done_softReset (s : State) : s.softReset.done = s.softReset := rfl

theorem exec_srst (s : State) : exec .srst s = .next s.softReset := by
  rw [exec_of_succeeds (i := .srst) trivial, effect, done_softReset]

/-- Settles O26: SRST has no condition, and its state is read table by table. -/
theorem softResetKeepsOnlyPay : Obligations.SoftResetKeepsOnlyPay := by
  refine ⟨decode_encode_of_statement Laws.Encoding.srst rfl, fun s =>
    ⟨s.softReset, exec_srst s, rfl, payByte_softReset s, fun sym => ?freqAndCode, fun h => ?node,
      heapAt_softReset s, rfl, rfl, status_softReset s, rfl⟩⟩
  case freqAndCode =>
    rw [freqAt_softReset, codeAt_softReset]
    exact ⟨rfl, rfl, rfl, rfl⟩
  case node =>
    rw [nodeAt_softReset]
    exact ⟨rfl, rfl, rfl, rfl⟩

/-! ### NOP, PRST and URST (R180, R150, R165) -/

/-- Settles O25: none of the three has a condition, so each leaves its effect. -/
theorem nopAndRewindsComplete : Obligations.NopAndRewindsComplete :=
  ⟨decode_encode_of_statement Laws.Encoding.nop rfl, decode_encode_of_statement Laws.Encoding.prst rfl,
    decode_encode_of_statement Laws.Encoding.urst rfl, fun _ =>
      ⟨exec_of_succeeds (i := .nop) trivial, exec_of_succeeds (i := .prst) trivial,
        exec_of_succeeds (i := .urst) trivial⟩⟩

end Sys2Proof.Machine
end

section
/-! SUPPORT. Errors and sequencing (rules R191, R193, R195, R196): which code a command leaves in RESULT, when that
code is SequenceError, and how commands move the flags TREE_VALID, CODE_VALID and HEAP_LIVE. -/

namespace Sys2Proof.Machine

/-! ### The state and the code an error leaves (R191, R193) -/

/-- A word written to CMD is run and answered OK (R32). -/
theorem hostWrite_cmd (w : Word) (s : State) : hostWrite 0x04 w s = answer .ok (runWord w s) := by
  have place : placeOf s.cfg.payCap 0x04 = some (.reg .cmd) := placeOf_regAddr _ .cmd
  simp only [hostWrite, place]

/-- Settles O20: RESULT is not 0, so the word raised an error, and raising writes RESULT and ERRS only. -/
theorem failedCommandChangesOnlyResultAndErrs : Obligations.FailedCommandChangesOnlyResultAndErrs := by
  intro w s t run failed
  rw [hostWrite_cmd, run]
  rcases runWord_next run with ⟨i, -, succeeds, rfl⟩ | ⟨e, -, rfl⟩
  · exact absurd (effect_result succeeds) failed
  · exact ⟨rfl, rfl⟩

theorem code_injective : Function.Injective CmdError.code := by
  intro d e
  cases d <;> cases e <;> decide

/-- No command raises IllegalCommand: only a word that does not decode does (R194). -/
theorem illegalCommand_not_mem_mayRaise (i : Instr) : CmdError.illegalCommand ∉ mayRaise i := by
  cases i <;> simp [mayRaise]

/-- What a command leaves: its effect, or one raised error that its rule names. -/
theorem exec_next {i : Instr} {s t : State} (run : exec i s = .next t) :
    (Succeeds i s ∧ t = effect i s) ∨ ∃ e ∈ mayRaise i, t = s.raise e := by
  rcases exec_cases i s with ⟨succeeds, run'⟩ | ⟨-, e, he, run'⟩ <;> cases run.symm.trans run'
  · exact .inl ⟨succeeds, rfl⟩
  · exact .inr ⟨e, he, rfl⟩

/-- A command leaves RESULT = 0 or the code of an error its rule names. -/
theorem exec_result_mem {i : Instr} {s t : State} (run : exec i s = .next t) :
    t.result ∈ 0 :: (mayRaise i).map CmdError.code := by
  rcases exec_next run with ⟨succeeds, rfl⟩ | ⟨e, he, rfl⟩
  · exact List.mem_cons.2 (.inl (effect_result succeeds))
  · exact List.mem_cons_of_mem _ (List.mem_map_of_mem he)

/-- A command that does not name an error never leaves its code. -/
theorem exec_result_ne_code {i : Instr} {s t : State} (run : exec i s = .next t) {e : CmdError}
    (unnamed : e ∉ mayRaise i) : t.result ≠ e.code := by
  intro code
  have left := exec_result_mem run
  rw [code, List.mem_cons, List.mem_map_of_injective code_injective] at left
  exact left.elim (code_ne_zero e) unnamed

/-- Settles O22: a command's codes are 0 and those of `mayRaise`, and IllegalCommand is the error of undecoded
words. -/
theorem resultCodeTable : Obligations.ResultCodeTable := by
  intro w s t run
  rcases runWord_cases w s with ⟨undecoded, illegal⟩ | ⟨i, hi, -⟩
  · cases run.symm.trans illegal
    exact ⟨iff_of_true rfl undecoded, fun i hi => absurd hi (undecoded i)⟩
  · rw [runWord_of_decode hi] at run
    refine ⟨iff_of_false (exec_result_ne_code run (illegalCommand_not_mem_mayRaise i)) fun none => none i hi,
      fun j hj => ?_⟩
    have codes := exec_result_mem run
    cases hi.symm.trans hj
    cases i <;> exact codes

/-! ### Building from an empty table (R196) -/

theorem exec_tinit_empty {s : State} (empty : s.freqEmpty = true) :
    exec .tinit s = .next (s.raise .invalidInput) := if_pos empty

theorem exec_tbuild_empty {s : State} (empty : s.freqEmpty = true) :
    exec .tbuild s = .next (s.raise .invalidInput) := if_pos empty

/-- Settles O36: both commands test EMPTY first. -/
theorem emptyTableIsInvalidInput : Obligations.EmptyTableIsInvalidInput := by
  intro s cleared
  have empty := (freqEmpty_iff s).2 cleared
  rw [exec_tinit_empty empty, exec_tbuild_empty empty, raise_eq_raised]
  exact ⟨rfl, rfl⟩

/-! ### SequenceError (R195) -/

/-- The command's prerequisite on the flags and HEAPN does not hold (R195). -/
def OutOfSequence : Instr → State → Prop
  | .tmerge, s => ¬(s.heapLive = true ∧ 2 ≤ s.heapn.toNat)
  | .tfin, s => ¬(s.heapLive = true ∧ s.heapn.toNat = 1)
  | .cgen, s | .usym, s => s.treeValid = false
  | .psym _, s => s.codeValid = false
  | .nop, _ | .fclr, _ | .facc _, _ | .tinit, _ | .tbuild, _ | .prst, _ | .pput _, _ | .urst, _ | .uget _, _
  | .srst, _ => False

/-- A command whose rule names one error raises it wherever it does not succeed. -/
theorem exec_of_fails {i : Instr} {s : State} {e : CmdError} (only : mayRaise i = [e]) (fails : ¬Succeeds i s) :
    exec i s = .next (s.raise e) := by
  rcases exec_cases i s with ⟨succeeds, -⟩ | ⟨-, d, hd, run⟩
  · exact absurd succeeds fails
  · rw [only, List.mem_singleton] at hd
    rw [run, hd]

/-- The prerequisite is tested before every other condition (R206). -/
theorem exec_of_outOfSequence {i : Instr} {s : State} (out : OutOfSequence i s) :
    exec i s = .next (s.raise .sequenceError) := by
  cases i with
  | tmerge | tfin => exact exec_of_fails rfl out
  | cgen | usym | psym => exact if_pos out
  | _ => exact out.elim

theorem done_result_ne_code (s : State) (e : CmdError) : s.done.result ≠ e.code := (code_ne_zero e).symm

theorem raise_result_ne_code (s : State) {d e : CmdError} (other : d ≠ e) : (s.raise d).result ≠ e.code :=
  code_injective.ne other

/-- With its prerequisite met, a command leaves another code than SequenceError's. -/
theorem result_ne_of_inSequence {i : Instr} {s t : State} (run : exec i s = .next t)
    (inSequence : ¬OutOfSequence i s) : t.result ≠ CmdError.sequenceError.code := by
  cases i with
  | tmerge =>
    cases (exec_of_succeeds (i := .tmerge) (not_not.1 inSequence)).symm.trans run
    exact done_result_ne_code _ _
  | tfin =>
    cases (exec_of_succeeds (i := .tfin) (not_not.1 inSequence)).symm.trans run
    exact done_result_ne_code _ _
  | cgen =>
    have tree : s.treeValid ≠ false := inSequence
    simp only [exec, execCgen, if_neg tree] at run
    split at run <;> cases run
    · exact raise_result_ne_code s (by decide)
    · exact done_result_ne_code _ _
  | psym sym =>
    have codes : s.codeValid ≠ false := inSequence
    simp only [exec, execPsym, if_neg codes] at run
    split at run
    · cases run
      exact raise_result_ne_code s (by decide)
    · split at run <;> cases run
      · exact raise_result_ne_code s (by decide)
      · exact done_result_ne_code _ _
  | usym =>
    have tree : s.treeValid ≠ false := inSequence
    simp only [exec, execUsym, if_neg tree] at run
    split at run
    · cases run
      exact raise_result_ne_code s (by decide)
    · split at run <;> cases run
      · exact raise_result_ne_code s (by decide)
      · exact done_result_ne_code _ _
  | _ => exact exec_result_ne_code run (by simp [mayRaise])

theorem result_eq_sequenceError_iff {i : Instr} {s t : State} (run : exec i s = .next t) :
    t.result = 0x11 ↔ OutOfSequence i s := by
  refine ⟨fun sequenceError => ?_, fun out => ?_⟩
  · by_contra inSequence
    exact result_ne_of_inSequence run inSequence sequenceError
  · cases run.symm.trans (exec_of_outOfSequence out)
    rfl

/-! ### The three flags (R195) -/

/-- TREE_VALID, CODE_VALID and HEAP_LIVE. -/
def State.flags (s : State) : Bool × Bool × Bool := (s.treeValid, s.codeValid, s.heapLive)

/-- The flags that a command leaves when it succeeds in `s` (R195). -/
def flagsAfter : Instr → State → Bool × Bool × Bool
  | .srst, _ => (false, false, false)
  | .tinit, _ => (false, false, true)
  | .tfin, s => (true, s.codeValid, false)
  | .tbuild, _ => (true, false, false)
  | .cgen, s => (true, true, s.heapLive)
  | .nop, s | .fclr, s | .facc _, s | .tmerge, s | .prst, s | .pput _, s | .psym _, s | .urst, s | .uget _, s
  | .usym, s => s.flags

theorem flags_effect {i : Instr} {s : State} (h : Succeeds i s) : (effect i s).flags = flagsAfter i s := by
  cases i with
  | tinit => rw [effect, tinitBody_frame]; rfl
  | tfin => rw [effect, tfinBody_frame]; rfl
  | tbuild => rw [effect, tbuildBody_frame]; rfl
  | cgen =>
    obtain ⟨tree, -⟩ := h
    exact congrArg (·, true, s.heapLive) tree
  | pput n => rw [effect, putBits_frame]; rfl
  | psym sym => rw [effect, putBits_frame]; rfl
  | usym => simp only [effect]; split <;> rfl
  | _ => rfl

theorem flags_raise (s : State) (e : CmdError) : (s.raise e).flags = s.flags := rfl

theorem flags_respond (s : State) (r : Response) : (s.respond r).flags = s.flags := rfl

theorem flags_hardReset (s : State) : s.hardReset.flags = (false, false, false) := rfl

theorem flags_of_success {i : Instr} {s t : State} (run : exec i s = .next t) (ok : t.result = 0) :
    t.flags = flagsAfter i s := by
  rcases exec_next run with ⟨succeeds, rfl⟩ | ⟨e, -, rfl⟩
  · exact flags_effect succeeds
  · exact absurd ok (code_ne_zero e)

/-- The combinations that R195 lists. -/
def reachableFlags : List (Bool × Bool × Bool) :=
  [(false, false, false), (false, false, true), (true, false, false), (true, true, false)]

/-- The list of R195 as two implications: codes need a tree, and there is no tree while one is being built. -/
theorem mem_reachableFlags_iff : ∀ tree code live : Bool, (tree, code, live) ∈ reachableFlags ↔
    (code = true → tree = true) ∧ (live = true → tree = false) := by decide

/-- CGEN is the one command that needs its prerequisite here: it sets CODE_VALID beside a tree, so HEAP_LIVE is 0. -/
theorem flagsAfter_mem {i : Instr} {s : State} (h : Succeeds i s) (hs : s.flags ∈ reachableFlags) :
    flagsAfter i s ∈ reachableFlags := by
  obtain ⟨-, notLive⟩ := (mem_reachableFlags_iff _ _ _).1 hs
  cases i with
  | srst | tinit | tbuild => simp [flagsAfter, reachableFlags]
  | tfin => exact (mem_reachableFlags_iff _ _ _).2 ⟨fun _ => rfl, nofun⟩
  | cgen =>
    obtain ⟨tree, -⟩ := h
    rw [tree] at notLive
    exact (mem_reachableFlags_iff _ _ _).2 ⟨fun _ => rfl, notLive⟩
  | _ => exact hs

theorem runWord_keeps_reachableFlags {w : Word} {s t : State} (run : runWord w s = .next t)
    (hs : s.flags ∈ reachableFlags) : t.flags ∈ reachableFlags := by
  rcases runWord_next run with ⟨i, -, succeeds, rfl⟩ | ⟨e, -, rfl⟩
  · rw [flags_effect succeeds]
    exact flagsAfter_mem succeeds hs
  · rwa [flags_raise]

/-- Only a command word and hardware reset move the flags. -/
theorem served_keeps_reachableFlags {u t : State} {x : HostInput} (h : Served u x t)
    (hu : u.flags ∈ reachableFlags) : t.flags ∈ reachableFlags := by
  cases h with
  | reset =>
    rw [flags_hardReset]
    decide
  | command v t run =>
    rw [flags_respond]
    exact runWord_keeps_reachableFlags run hu
  | _ =>
    rw [flags_respond]
    exact hu

/-- Settles O23: the prerequisites are tested first, each command's flags are read off its effect, and the four
combinations are kept by every input a step can serve. -/
theorem sequencingOfCommands : Obligations.SequencingOfCommands := by
  refine ⟨fun i s t run => ?_, fun i s t run ok => ?_, flags_hardReset, fun s t h hs => ?_⟩
  · have prerequisite := result_eq_sequenceError_iff run
    cases i <;> exact prerequisite
  · have flags := flags_of_success run ok
    cases i <;> exact flags
  · rcases step_cases h with ⟨-, rfl⟩ | ⟨x, rest, -, served⟩
    · exact hs
    · exact served_keeps_reachableFlags served hs

end Sys2Proof.Machine
end

section
/-! SUPPORT. Encoding and decoding as inverses of each other (rules R91 to R94): every command's word decodes to it,
and a word that decodes is the word of its command. -/

namespace Sys2Proof.Machine

/-! ### Decode after encode (R93) -/

/-- Each command's word matches a row that assembles the command again. -/
theorem row_of_encode (i : Instr) : Laws.Encoding.Statement i := by
  cases i with
  | nop => exact Laws.Encoding.nop
  | fclr => exact Laws.Encoding.fclr
  | facc sym => exact Laws.Encoding.facc sym
  | tinit => exact Laws.Encoding.tinit
  | tmerge => exact Laws.Encoding.tmerge
  | tfin => exact Laws.Encoding.tfin
  | tbuild => exact Laws.Encoding.tbuild
  | cgen => exact Laws.Encoding.cgen
  | prst => exact Laws.Encoding.prst
  | pput n => exact Laws.Encoding.pput n
  | psym sym => exact Laws.Encoding.psym sym
  | urst => exact Laws.Encoding.urst
  | uget n => exact Laws.Encoding.uget n
  | usym => exact Laws.Encoding.usym
  | srst => exact Laws.Encoding.srst

/-- Settles O1: the row that an encoded word matches is the one `decode` takes. -/
theorem decodeOfEncodeIsIdentity : Obligations.DecodeOfEncodeIsIdentity := fun i wf =>
  decode_encode_of_statement (row_of_encode i) wf

/-! ### Encode after decode (R92, R94) -/

theorem wellFormedCount_countField (w : Word) : wellFormedCount (countField w) = true := by
  have small := (nm1Field w).isLt
  rw [wellFormedCount, countField, Bool.and_eq_true, decide_eq_true_iff, decide_eq_true_iff]
  omega

/-- What decodes is well formed: the field NM1 carries a count of 1 to 32, and nothing else is checked. -/
theorem wellFormed_assemble (op : Op) (w : Word) : (assemble op w).wellFormed = true := by
  cases op with
  | pput | uget => exact wellFormedCount_countField w
  | _ => rfl

/-- A word is its bits under a mask and the rest, here the field SYM. -/
theorem withSym_symField {w base : Word} (row : w &&& 0xFFFFFF00 = base) : withSym base (symField w) = w := by
  have mask : ∀ i < 32, (0xFFFFFF00 : Word).getLsbD i = decide (8 ≤ i) := by decide
  subst row
  ext i hi
  simp only [withSym, symField, ← BitVec.getLsbD_eq_getElem, BitVec.getLsbD_or, BitVec.getLsbD_and, mask i hi,
    BitVec.getLsbD_setWidth, BitVec.getLsbD_extractLsb', hi, Nat.zero_add]
  by_cases high : 8 ≤ i
  · simp [high]
  · simp [high, Nat.lt_of_not_le high]

/-- The same for the field NM1. -/
theorem withCount_countField {w base : Word} (row : w &&& 0xFFFFE0FF = base) : withCount base (countField w) = w := by
  have mask : ∀ i < 32, (0xFFFFE0FF : Word).getLsbD i = decide (i < 8 ∨ 13 ≤ i) := by decide
  have field : BitVec.ofNat 5 (countField w - 1) = nm1Field w := by simp [countField]
  subst row
  rw [withCount, field]
  ext i hi
  simp only [nm1Field, ← BitVec.getLsbD_eq_getElem, BitVec.getLsbD_or, BitVec.getLsbD_and, mask i hi,
    BitVec.getLsbD_shiftLeft, BitVec.getLsbD_setWidth, BitVec.getLsbD_extractLsb', hi]
  by_cases outside : i < 8 ∨ 13 ≤ i
  · have notRead : i < 8 ∨ ¬i - 8 < 5 := by omega
    rcases notRead with low | high <;> simp [*]
  · have low : ¬i < 8 := by omega
    have inField : i - 8 < 5 := by omega
    have back : 8 + (i - 8) = i := by omega
    have inWord : i - 8 < 32 := by omega
    simp +contextual [low, inField, back, inWord]

/-- A row whose mask covers the whole word matches its pattern only. -/
theorem eq_of_full_mask {w base : Word} (row : w &&& 0xFFFFFFFF = base) : base = w := by
  rw [← row]
  exact BitVec.and_allOnes

/-- Row by row of R93: all bits fixed, or the field SYM or NM1 free. -/
theorem encode_assemble (w : Word) : ∀ r ∈ opTable, w &&& r.mask = r.pattern → encode (assemble r.op w) = w := by
  simp only [opTable, List.forall_mem_cons]
  exact ⟨eq_of_full_mask, eq_of_full_mask, withSym_symField, eq_of_full_mask, eq_of_full_mask, eq_of_full_mask,
    eq_of_full_mask, eq_of_full_mask, eq_of_full_mask, withCount_countField, withSym_symField, eq_of_full_mask,
    withCount_countField, eq_of_full_mask, eq_of_full_mask, nofun⟩

/-- Settles O2: a word that decodes matches a row, and the row's pattern with the operand fields is the word. -/
theorem decodedWordReencodes : Obligations.DecodedWordReencodes := by
  intro w i decoded
  obtain ⟨r, hr, row⟩ := exists_matching_row decoded
  cases decoded.symm.trans (decode_of_matching_row hr row)
  exact ⟨wellFormed_assemble r.op w, encode_assemble w r hr row⟩

end Sys2Proof.Machine
end

section
/-! SUPPORT. Steps and the bus (rules R16, R32, R33, R66 to R72, R192, R206, R220): what every command leaves alone,
the answer to each transaction, and the bytes of the PAY window. -/

namespace Sys2Proof.Machine

/-! ### What no command touches (R192) -/

/-- TMERGE's body writes the arena, the heap and their counts (R125). -/
theorem tmergeBody_eq (s : State) : s.tmergeBody =
    { s with
      node := s.tmergeBody.node, heap := s.tmergeBody.heap, nnode := s.nnode + 1, heapn := s.heapn - 1 } := by
  have heapn : s.tmergeBody.heapn = s.heapn - 1 := (heapn_tmergeBody s).trans (BitVec.sub_add_cancel _ _)
  rw [← heapn, ← nnode_tmergeBody]
  exact tmergeBody_frame s

/-- A host write to PAY writes no other element (R67). -/
theorem writePay_frame (s : State) (a : Nat) (v : Word) : s.writePay a v = { s with pay := (s.writePay a v).pay } := by
  simp only [State.writePay, State.setPayByte]

/-- The parameter, the host's queue, the responses and the number of resets. -/
def State.surroundings (s : State) : Config × List HostInput × List Response × Nat :=
  (s.cfg, s.bus, s.responses, s.resets)

theorem surroundings_effect (i : Instr) (s : State) : (effect i s).surroundings = s.surroundings := by
  cases i with
  | tinit => rw [effect, tinitBody_frame]; rfl
  | tmerge => rw [effect, tmergeBody_eq]; rfl
  | tfin => rw [effect, tfinBody_frame]; rfl
  | tbuild => rw [effect, tbuildBody_frame]; rfl
  | pput n => rw [effect, putBits_frame]; rfl
  | psym sym => rw [effect, putBits_frame]; rfl
  | usym => simp only [effect]; split <;> rfl
  | _ => rfl

theorem surroundings_eq_iff {s t : State} : t.surroundings = s.surroundings ↔
    t.cfg = s.cfg ∧ t.bus = s.bus ∧ t.responses = s.responses ∧ t.resets = s.resets := by
  simp [State.surroundings]

theorem surroundings_runWord {w : Word} {s t : State} (run : runWord w s = .next t) :
    t.surroundings = s.surroundings := by
  rcases runWord_next run with ⟨i, -, -, rfl⟩ | ⟨e, -, rfl⟩
  · exact surroundings_effect i s
  · rfl

/-- Settles O21: SRST apart, no effect writes ERRS, and a command that raised did not succeed. -/
theorem successKeepsErrs : Obligations.SuccessKeepsErrs := by
  intro i s t run
  rcases exec_next run with ⟨-, rfl⟩ | ⟨e, -, rfl⟩
  · exact ⟨fun _ notSrst => effect_errs notSrst s, surroundings_eq_iff.1 (surroundings_effect i s)⟩
  · exact ⟨fun ok => absurd ok (code_ne_zero e), rfl, rfl, rfl, rfl⟩

/-! ### Commands end in done or in raise (R16, R206) -/

theorem code_mem_of_raisable {e : CmdError} (h : e.Raisable) :
    e.code.toNat ∈ [0x02, 0x03, 0x05, 0x10, 0x11, 0x12, 0x13, 0x14, 0x15] := by
  obtain ⟨notEmptyInput, notCorruptHeader⟩ := h
  cases e with
  | emptyInput => exact absurd rfl notEmptyInput
  | corruptHeader => exact absurd rfl notCorruptHeader
  | _ => decide

/-- Settles O7: a word's two outcomes are an effect, which leaves RESULT = 0, and a raised error. -/
theorem everyCommandEndsInDoneOrRaise : Obligations.EveryCommandEndsInDoneOrRaise := by
  intro w s
  obtain ⟨t, run, -⟩ := runWord_responses w s
  refine ⟨t, run, ?_⟩
  rcases runWord_next run with ⟨i, -, succeeds, rfl⟩ | ⟨e, raisable, rfl⟩
  · exact .inl (effect_result succeeds)
  · exact .inr ⟨_, code_mem_of_raisable raisable, raise_eq_raised s e, code_ne_zero e⟩

theorem exec_psym_noCode {s : State} {sym : Sym} (codes : s.codeValid = true) (none : (s.codeAt sym).valid = false) :
    exec (.psym sym) s = .next (s.raise .noCode) := by
  simp only [exec, execPsym, codes, none, Bool.true_eq_false, if_false, if_true]

theorem exec_psym_overflow {s : State} {sym : Sym} (codes : s.codeValid = true)
    (some : (s.codeAt sym).valid = true) (tooMany : s.overflows (s.codeLen sym) = true) :
    exec (.psym sym) s = .next (s.raise .payloadOverflow) := by
  simp only [exec, execPsym, codes, some, tooMany, Bool.true_eq_false, if_false, if_true]

theorem exec_usym_end {s : State} (tree : s.treeValid = true) (read : s.rdpos = s.bitcnt) :
    exec .usym s = .next (s.raise .endOfStream) := by
  simp only [exec, execUsym, tree, read, Bool.true_eq_false, if_false, if_true]

theorem exec_cgen_leaf {s : State} (tree : s.treeValid = true) (leaf : (s.nodeAt s.root).leaf = true) :
    exec .cgen s = .next (s.raise .invalidTree) := by
  simp only [exec, execCgen, tree, leaf, Bool.true_eq_false, if_false, if_true]

/-- Settles O24: the prerequisite comes first, then each condition with the earlier ones not met. -/
theorem errorPriority : Obligations.ErrorPriority := by
  refine ⟨fun s sym => ⟨fun out => ?_, fun codes none => ?_, fun codes some tooMany => ?_⟩,
    fun s => ⟨fun out => ?_, fun tree read => ?_⟩, fun s => ⟨fun out => ?_, fun tree leaf => ?_⟩⟩
  · rw [exec_of_outOfSequence (i := .psym sym) out, raise_eq_raised]; rfl
  · rw [exec_psym_noCode codes none, raise_eq_raised]; rfl
  · rw [exec_psym_overflow codes some ((overflows_eq_true_iff s _).2 tooMany), raise_eq_raised]; rfl
  · rw [exec_of_outOfSequence (i := .usym) out, raise_eq_raised]; rfl
  · rw [exec_usym_end tree read, raise_eq_raised]; rfl
  · rw [exec_of_outOfSequence (i := .cgen) out, raise_eq_raised]; rfl
  · rw [exec_cgen_leaf tree leaf, raise_eq_raised]; rfl

/-! ### One step (R19, R32, R33, R70, R215) -/

/-- Settles O6: CMD stands at 0x04, and `withFetchWord` puts a write there at the head of the queue. -/
theorem stepRunsTheDecodedCommand : Obligations.StepRunsTheDecodedCommand := by
  refine ⟨fun s w i rest waits decoded => ?_, fun s w i small decoded => ?_⟩
  · rw [step_of_command_word waits, runWord_of_decode decoded]
  · have waits : (s.withFetchWord 32 w).bus = .txn (.write 0x04 (BitVec.ofNat 32 w)) :: s.bus := by
      rw [State.withFetchWord, tableWord, Nat.mod_eq_of_lt small]
      rfl
    rw [step_of_command_word waits, runWord_of_decode decoded]
    rfl

theorem exists_serve (x : HostInput) (s : State) : ∃ t, serve x s = .next t := by
  cases x with
  | hardReset => exact ⟨_, rfl⟩
  | txn x =>
    cases x with
    | read addr => exact ⟨_, rfl⟩
    | write addr v =>
      cases hp : placeOf s.cfg.payCap addr with
      | none => exact ⟨s.respond .busError, by simp only [serve, hostWrite, hp]⟩
      | some p =>
        by_cases refuses : p.Refuses s v
        · exact ⟨_, hostWrite_refused hp refuses⟩
        · obtain ⟨t, written, -⟩ := hostWrite_accepted hp refuses
          exact ⟨t, written⟩

/-- What every input of the host leaves: the parameter and the queue, and for a transaction one response more. -/
theorem served_surroundings {u t : State} {x : HostInput} (h : Served u x t) :
    t.bus = u.bus ∧ t.cfg = u.cfg ∧ (x ≠ .hardReset → ∃ r, t.responses = u.responses ++ [r]) := by
  cases h with
  | reset => exact ⟨rfl, rfl, fun notReset => absurd rfl notReset⟩
  | command v t run =>
    obtain ⟨cfg, bus, responses, -⟩ := surroundings_eq_iff.1 (surroundings_runWord run)
    exact ⟨bus, cfg, fun _ => ⟨.ok, by rw [respond_responses, responses]⟩⟩
  | writePay addr v a _ =>
    rw [respond_bus, respond_cfg, writePay_bus, writePay_cfg]
    exact ⟨rfl, rfl, fun _ => ⟨.ok, by rw [respond_responses, writePay_responses]⟩⟩
  | _ =>
    rw [respond_bus, respond_cfg]
    exact ⟨rfl, rfl, fun _ => ⟨_, respond_responses _ _⟩⟩

/-- Settles O8: an idle block holds its state, and every input of the host is served. -/
theorem stepIsTotal : Obligations.StepIsTotal := by
  refine ⟨fun s idle => by simp only [step, idle], fun s x rest waits => ?_⟩
  obtain ⟨t, served⟩ := exists_serve x { s with bus := rest }
  exact ⟨t, by simp only [step, waits, served], served_surroundings (serve_next served)⟩

/-- Settles O9: serving a read only gives its response. -/
theorem readTransactionChangesNothing : Obligations.ReadTransactionChangesNothing := by
  intro s addr rest waits
  refine ⟨State.hostRead { s with bus := rest } addr, ?_⟩
  simp only [step, waits]
  rfl

/-- Of all inputs only a command word and hardware reset write RESULT. -/
theorem served_result {u t : State} {x : HostInput} (h : Served u x t) (notCmd : ∀ w, x ≠ .txn (.write 0x04 w))
    (notReset : x ≠ .hardReset) : t.result = u.result := by
  cases h with
  | reset => exact absurd rfl notReset
  | command v t run => exact absurd rfl (notCmd v)
  | writePay addr v a _ => rw [respond_result, writePay_result]
  | _ => rw [respond_result]

/-- Settles O19: the first clause goes through the inputs a step can serve, the second is a CMD write's answer. -/
theorem onlyCommandsWriteResult : Obligations.OnlyCommandsWriteResult := by
  intro s t x rest waits stepped
  refine ⟨fun notCmd notReset => ?_, fun w isCmd => ?_⟩
  · rcases step_cases stepped with ⟨idle, -⟩ | ⟨y, rest', waits', served⟩
    · cases waits.symm.trans idle
    · cases waits.symm.trans waits'
      exact served_result (u := { s with bus := rest }) served notCmd notReset
  · subst isCmd
    obtain ⟨u, run, responses⟩ := runWord_responses w { s with bus := rest }
    rw [step_of_command_word waits, run] at stepped
    cases stepped
    exact ⟨congrArg (· ++ [Response.ok]) responses, u, run, rfl⟩

/-- Settles O18: the two registers stand at 0x08 and 0x34, and BITCNT is compared with the capacity in bits. -/
theorem bitcntWriteRewinds : Obligations.BitcntWriteRewinds := by
  intro s v
  have arg : placeOf s.cfg.payCap 0x08 = some (.reg .arg) := placeOf_regAddr _ .arg
  have bitcnt : placeOf s.cfg.payCap 0x34 = some (.reg .bitcnt) := placeOf_regAddr _ .bitcnt
  refine ⟨by simp only [hostWrite, arg]; rfl, fun legal => ?_, fun tooGreat => ?_⟩
  · simp only [hostWrite, bitcnt]
    exact if_neg (Nat.not_lt.2 legal)
  · simp only [hostWrite, bitcnt]
    exact if_pos tooGreat

/-! ### Reset (R50, R220, R223) -/

theorem payByte_of_unwritten {s : State} (unwritten : s.pay = []) (a : Nat) :
    s.payByte a = Config.resetPayByte s.resets a := by
  rw [State.payByte, unwritten]
  rfl

theorem status_hardReset (s : State) : s.hardReset.status = 0x18 := status_reset

/-- Settles O27: the hardware reset input is served by `hardReset`, which forgets every written byte. -/
theorem hardwareResetGivesTheResetState : Obligations.HardwareResetGivesTheResetState := by
  intro s rest waits
  refine ⟨State.hardReset { s with bus := rest }, by simp only [step, waits]; rfl, rfl, payByte_of_unwritten rfl,
    status_hardReset _⟩

theorem countsOf_reset : State.reset.CountsOf [] := fun sym => congrArg BitVec.toNat (freqAt_reset sym)

/-- Settles O28: the registers are read off the record, the tables entry by entry. -/
theorem resetValues : Obligations.ResetValues :=
  ⟨rfl, rfl, rfl, rfl, rfl, rfl, rfl, rfl, rfl, rfl, rfl, rfl, freqAt_reset, nodeAt_reset, heapAt_reset, codeAt_reset,
    fun _ => payByte_of_unwritten rfl, hostRead_regAddr _ .id, hostRead_regAddr _ .paycap, countsOf_reset.nsym,
    countsOf_reset.total, status_reset, exec_srst⟩

/-! ### The PAY window (R67, R69) -/

/-- Four bytes side by side, the first lowest. -/
theorem readPay_eq_append (s : State) (a : Nat) :
    s.readPay a = s.payByte (a + 3) ++ s.payByte (a + 2) ++ s.payByte (a + 1) ++ s.payByte a :=
  BitVec.setWidth_eq _

theorem append_bytes_of_word (v : Word) :
    v.extractLsb' 24 8 ++ v.extractLsb' 16 8 ++ v.extractLsb' 8 8 ++ v.extractLsb' 0 8 = v := by
  ext i hi
  grind

theorem readPay_writePay (s : State) (a : Nat) (v : Word) : (s.writePay a v).readPay a = v := by
  rw [readPay_eq_append]
  simp [payByte_writePay, append_bytes_of_word]

@[simp] theorem payByte_respond (s : State) (r : Response) (a : Nat) : (s.respond r).payByte a = s.payByte a := rfl

/-- Settles O15: the place of a PAY word is its first byte, and `writePay` writes that byte and the next three. -/
theorem payWindowIsLittleEndian : Obligations.PayWindowIsLittleEndian := by
  intro s addr v a _ aligned inside there
  have inMap : (Place.pay a).InMap s.cfg.payCap := ⟨inside, aligned⟩
  have write : hostWrite addr v s = .next ((s.writePay a v).respond .ok) := by
    simp only [hostWrite, placeOf_of_addr inMap there]
  have read (t : State) (same : t.cfg = s.cfg) : t.hostRead addr = .word (t.readPay a) :=
    hostRead_of_addr t (.pay a) (same ▸ inMap) there
  have readBack : ((s.writePay a v).respond .ok).readPay a = (s.writePay a v).readPay a := rfl
  refine ⟨?_, _, write, ?_, ?_, ?_, ?_, ?_, fun b outside => ?_, ?_⟩
  · rw [read s rfl, readPay_eq_append]
  · have frame := writePay_frame s a v
    generalize s.writePay a v = t at frame ⊢
    rw [frame]
    rfl
  · simp [payByte_writePay]
  · simp [payByte_writePay]
  · simp [payByte_writePay]
  · simp [payByte_writePay]
  · rw [payByte_respond, payByte_writePay]
    simp (disch := omega) only [if_neg]
  · rw [read ((s.writePay a v).respond .ok) (writePay_cfg s a v), readBack, readPay_writePay]

end Sys2Proof.Machine
end

section
/-! SUPPORT. The heap procedures and the heap invariant (rules R121 to R123): `siftUp` repairs the order above a new
last handle, `siftDown` below a new first one. Positions are compared by the keys of their handles. -/

namespace Sys2Proof.Machine

/-! ### Keys at positions -/

/-- The key of the handle at position `i`. -/
def keyAt (t : Vector Node 511) (hp : Vector Handle 256) (i : Nat) : ℕ ×ₗ ℕ := nodeKey t (heapAt hp i)

theorem less_eq_false_iff {t : Vector Node 511} {a b : Handle} : less t a b = false ↔ nodeKey t b ≤ nodeKey t a := by
  rw [← Bool.not_eq_true, less_iff_nodeKey_lt, not_lt]

theorem keyAt_heapSwap {t : Vector Node 511} {hp : Vector Handle 256} {i j : Nat} (hi : i < 256) (hj : j < 256)
    (k : Nat) : keyAt t (heapSwap hp i j) k =
      if k = j then keyAt t hp i else if k = i then keyAt t hp j else keyAt t hp k := by
  rw [keyAt, heapAt_heapSwap hp hi hj]
  split
  · rfl
  · split <;> rfl

/-- The heap invariant on the first `n` positions: no key is below the one at its parent position. -/
def HeapSorted (t : Vector Node 511) (hp : Vector Handle 256) (n : Nat) : Prop :=
  ∀ i, 0 < i → i < n → keyAt t hp ((i - 1) / 2) ≤ keyAt t hp i

theorem heapOrder_iff {s : State} : HeapOrder s ↔ HeapSorted s.node s.heap s.heapn.toNat := by
  simp only [HeapOrder, less_eq_false_iff]
  rfl

/-- Only the handles in the heap and their keys matter. -/
theorem HeapSorted.congr {t u : Vector Node 511} {hp hq : Vector Handle 256} {n : Nat} (h : HeapSorted t hp n)
    (same : ∀ i < n, keyAt u hq i = keyAt t hp i) : HeapSorted u hq n := by
  intro i pos lt
  rw [same i lt, same _ (by omega)]
  exact h i pos lt

theorem HeapSorted.root_le {t : Vector Node 511} {hp : Vector Handle 256} {n : Nat} (h : HeapSorted t hp n) (i : Nat)
    (lt : i < n) : keyAt t hp 0 ≤ keyAt t hp i := by
  induction i using Nat.strong_induction_on with
  | _ i ih =>
    rcases Nat.eq_zero_or_pos i with rfl | pos
    · exact le_refl _
    · exact (ih ((i - 1) / 2) (by omega) (by omega)).trans (h i pos lt)

/-! ### `heap_insert` (R122) -/

/-- The order before a round of `siftUp` at `i`: it may fail between `i` and its parent only, and the parent is not
above the children of `i`. -/
def SortedButUp (t : Vector Node 511) (hp : Vector Handle 256) (n i : Nat) : Prop :=
  (∀ j, 0 < j → j < n → j ≠ i → keyAt t hp ((j - 1) / 2) ≤ keyAt t hp j) ∧
  (∀ j, 0 < j → j < n → (j - 1) / 2 = i → 0 < i → keyAt t hp ((i - 1) / 2) ≤ keyAt t hp j)

theorem SortedButUp.swap {t : Vector Node 511} {hp : Vector Handle 256} {n i : Nat} (h : SortedButUp t hp n i)
    (hn : n ≤ 256) (pos : 0 < i) (lt : i < n) (less : keyAt t hp i < keyAt t hp ((i - 1) / 2)) :
    SortedButUp t (heapSwap hp i ((i - 1) / 2)) n ((i - 1) / 2) := by
  obtain ⟨sorted, bridge⟩ := h
  have key := keyAt_heapSwap (t := t) (hp := hp) (i := i) (j := (i - 1) / 2) (by omega) (by omega)
  generalize hp' : heapSwap hp i ((i - 1) / 2) = hq at key ⊢
  have belowParent (j : Nat) (jpos : 0 < j) (jlt : j < n) (jne : j ≠ i) (child : (j - 1) / 2 = (i - 1) / 2) :
      keyAt t hp ((i - 1) / 2) ≤ keyAt t hp j := child ▸ sorted j jpos jlt jne
  refine ⟨fun j jpos jlt jne => ?_, fun j jpos jlt child ppos => ?_⟩
  · rw [key j, key ((j - 1) / 2), if_neg jne]
    by_cases self : j = i
    · subst self
      rw [if_pos rfl, if_pos rfl]
      exact less.le
    · rw [if_neg self]
      by_cases sibling : (j - 1) / 2 = (i - 1) / 2
      · rw [if_pos sibling]
        exact less.le.trans (belowParent j jpos jlt self sibling)
      · rw [if_neg sibling]
        by_cases below : (j - 1) / 2 = i
        · rw [if_pos below]
          exact bridge j jpos jlt below pos
        · rw [if_neg below]
          exact sorted j jpos jlt self
  · have grand := sorted ((i - 1) / 2) ppos (by omega) (by omega)
    rw [key j, key (((i - 1) / 2 - 1) / 2), if_neg (by omega : j ≠ (i - 1) / 2),
      if_neg (by omega : ((i - 1) / 2 - 1) / 2 ≠ (i - 1) / 2), if_neg (by omega : ((i - 1) / 2 - 1) / 2 ≠ i)]
    by_cases self : j = i
    · rw [if_pos self]
      exact grand
    · rw [if_neg self]
      exact grand.trans (belowParent j jpos jlt self child)

theorem SortedButUp.sorted {t : Vector Node 511} {hp : Vector Handle 256} {n i : Nat} (h : SortedButUp t hp n i)
    (done : i = 0 ∨ keyAt t hp ((i - 1) / 2) ≤ keyAt t hp i) : HeapSorted t hp n := by
  intro j jpos jlt
  by_cases self : j = i
  · rcases done with zero | le
    · omega
    · rwa [self]
  · exact h.1 j jpos jlt self

theorem heapSorted_siftUp {t : Vector Node 511} {n : Nat} (hn : n ≤ 256) {fuel i : Nat} {hp : Vector Handle 256}
    (h : SortedButUp t hp n i) (enough : i ≤ fuel) (lt : i < n) : HeapSorted t (siftUp t fuel hp i) n := by
  induction fuel generalizing hp i with
  | zero => exact h.sorted (.inl (by omega))
  | succ fuel ih =>
    unfold siftUp
    split
    · next zero => exact h.sorted (.inl zero)
    · split
      · next pos less =>
        exact ih (h.swap hn (by omega) lt (less_iff_nodeKey_lt.1 less)) (by omega) (by omega)
      · next notLess => exact h.sorted (.inr (less_eq_false_iff.1 (Bool.not_eq_true _ ▸ notLess)))

/-- A new last handle leaves the order to be repaired at its position only. -/
theorem sortedButUp_append {t : Vector Node 511} {hp : Vector Handle 256} {n : Nat} (h : HeapSorted t hp n)
    (hn : n < 256) (x : Handle) : SortedButUp t (tableSet hp n x) (n + 1) n := by
  have key {i : Nat} (lt : i < n) : keyAt t (tableSet hp n x) i = keyAt t hp i := by
    rw [keyAt, heapAt_tableSet, if_neg (by omega), keyAt]
  refine ⟨fun j jpos jlt jne => ?_, fun j jpos jlt child => by omega⟩
  rw [key (by omega), key (by omega)]
  exact h j jpos (by omega)

theorem toNat_heapn_heapInsert {s : State} (room : s.heapn.toNat < 256) (h : Handle) :
    (s.heapInsert h).heapn.toNat = s.heapn.toNat + 1 := by
  rw [heapInsert_heapn]
  exact BitVec.toNat_add_of_lt (show s.heapn.toNat + 1 < 512 by omega)

theorem heapOrder_heapInsert {s : State} (order : HeapOrder s) (room : s.heapn.toNat < 256) (h : Handle) :
    HeapOrder (s.heapInsert h) := by
  rw [heapOrder_iff] at order ⊢
  rw [toNat_heapn_heapInsert room, heapInsert_heap, heapInsert_node]
  exact heapSorted_siftUp (by omega) (sortedButUp_append order room h) (le_refl _) (by omega)

/-- Settles O33: `siftUp` restores the order and only moves handles. -/
theorem heapInsertKeepsOrder : Obligations.HeapInsertKeepsOrder := fun s h order room =>
  ⟨heapOrder_heapInsert order room h, rfl, slots_heapInsert s h room, fun _ => heapAt_heapInsert_gt s h room⟩

/-! ### `heap_extract_min` (R123) -/

/-- The winner of a round is a least one of the position and its children. -/
theorem keyAt_leastChild_le (t : Vector Node 511) (n : Nat) (hp : Vector Handle 256) (i : Nat) :
    keyAt t hp (leastChild t n hp i) ≤ keyAt t hp i ∧
    ∀ j, 0 < j → j < n → (j - 1) / 2 = i → keyAt t hp (leastChild t n hp i) ≤ keyAt t hp j := by
  have children (j : Nat) (pos : 0 < j) (child : (j - 1) / 2 = i) : j = 2 * i + 1 ∨ j = 2 * i + 2 := by omega
  unfold leastChild
  simp only [Bool.and_eq_true, decide_eq_true_eq, less_iff_nodeKey_lt, ← keyAt.eq_1]
  generalize hm : (if 2 * i + 1 < n ∧ keyAt t hp (2 * i + 1) < keyAt t hp i then 2 * i + 1 else i) = m
  have winner : keyAt t hp m ≤ keyAt t hp i ∧ (2 * i + 1 < n → keyAt t hp m ≤ keyAt t hp (2 * i + 1)) := by
    rw [← hm]
    split
    · next h => exact ⟨h.2.le, fun _ => le_refl _⟩
    · next h => exact ⟨le_refl _, fun lt => not_lt.1 fun less => h ⟨lt, less⟩⟩
  split
  · next h =>
    refine ⟨h.2.le.trans winner.1, fun j pos lt child => ?_⟩
    rcases children j pos child with rfl | rfl
    · exact h.2.le.trans (winner.2 lt)
    · exact le_refl _
  · next h =>
    refine ⟨winner.1, fun j pos lt child => ?_⟩
    rcases children j pos child with rfl | rfl
    · exact winner.2 lt
    · exact not_lt.1 fun less => h ⟨lt, less⟩

/-- The order before a round of `siftDown` at `i`: it may fail between `i` and its children only, and the children are
not below the parent of `i`. -/
def SortedButDown (t : Vector Node 511) (hp : Vector Handle 256) (n i : Nat) : Prop :=
  (∀ j, 0 < j → j < n → (j - 1) / 2 ≠ i → keyAt t hp ((j - 1) / 2) ≤ keyAt t hp j) ∧
  (∀ j, 0 < j → j < n → (j - 1) / 2 = i → 0 < i → keyAt t hp ((i - 1) / 2) ≤ keyAt t hp j)

theorem SortedButDown.sorted {t : Vector Node 511} {hp : Vector Handle 256} {n i : Nat} (h : SortedButDown t hp n i)
    (done : leastChild t n hp i = i) : HeapSorted t hp n := by
  intro j jpos jlt
  by_cases child : (j - 1) / 2 = i
  · have least := (keyAt_leastChild_le t n hp i).2 j jpos jlt child
    rwa [done, ← child] at least
  · exact h.1 j jpos jlt child

theorem leastChild_near (t : Vector Node 511) (n : Nat) (hp : Vector Handle 256) (i : Nat) :
    leastChild t n hp i ∈ [i, 2 * i + 1, 2 * i + 2] := by
  unfold leastChild
  simp only
  split <;> split <;> simp

theorem leastChild_is_child {t : Vector Node 511} {n : Nat} {hp : Vector Handle 256} {i : Nat}
    (moved : leastChild t n hp i ≠ i) :
    i < leastChild t n hp i ∧ leastChild t n hp i < n ∧ (leastChild t n hp i - 1) / 2 = i := by
  have near := leastChild_near t n hp i
  simp only [List.mem_cons, List.not_mem_nil, or_false] at near
  rcases leastChild_cases t n hp i with same | ⟨gt, lt⟩
  · exact absurd same moved
  · exact ⟨gt, lt, by omega⟩

theorem SortedButDown.swap {t : Vector Node 511} {hp : Vector Handle 256} {n i : Nat} (h : SortedButDown t hp n i)
    (hn : n ≤ 256) (moved : leastChild t n hp i ≠ i) :
    SortedButDown t (heapSwap hp i (leastChild t n hp i)) n (leastChild t n hp i) := by
  obtain ⟨sorted, bridge⟩ := h
  obtain ⟨leastSelf, least⟩ := keyAt_leastChild_le t n hp i
  obtain ⟨gt, lt, child⟩ := leastChild_is_child moved
  generalize leastChild t n hp i = m at *
  have key := keyAt_heapSwap (t := t) (hp := hp) (i := i) (j := m) (by omega) (by omega)
  generalize heapSwap hp i m = hq at *
  refine ⟨fun j jpos jlt jchild => ?_, fun j jpos jlt jchild _ => ?_⟩
  · rw [key j, key ((j - 1) / 2), if_neg jchild]
    by_cases underI : (j - 1) / 2 = i
    · rw [if_pos underI]
      by_cases isM : j = m
      · rw [if_pos isM]
        exact leastSelf
      · rw [if_neg isM, if_neg (by omega : j ≠ i)]
        exact least j jpos jlt underI
    · rw [if_neg underI, if_neg (by rintro rfl; exact underI child : j ≠ m)]
      by_cases isI : j = i
      · subst isI
        rw [if_pos rfl]
        exact bridge m (by omega) lt child jpos
      · rw [if_neg isI]
        exact sorted j jpos jlt underI
  · have kept := sorted j jpos jlt (by omega)
    rw [jchild] at kept
    rw [key j, key ((m - 1) / 2), child, if_neg (by omega : i ≠ m), if_pos rfl, if_neg (by omega : j ≠ m),
      if_neg (by omega : j ≠ i)]
    exact kept

theorem heapSorted_siftDown {t : Vector Node 511} {n : Nat} (hn : n ≤ 256) {fuel i : Nat} {hp : Vector Handle 256}
    (h : SortedButDown t hp n i) (enough : n ≤ fuel + i) : HeapSorted t (siftDown t n fuel hp i) n := by
  induction fuel generalizing hp i with
  | zero =>
    refine h.sorted ?_
    by_contra moved
    have child := leastChild_is_child moved
    omega
  | succ fuel ih =>
    unfold siftDown
    split
    · next done => exact h.sorted done
    · next moved =>
      have child := leastChild_is_child moved
      exact ih (h.swap hn moved) (by omega)

/-- A new first handle leaves the order to be repaired at position 0 only. -/
theorem sortedButDown_replaceRoot {t : Vector Node 511} {hp hq : Vector Handle 256} {n : Nat}
    (h : HeapSorted t hp (n + 1)) (same : ∀ i, 0 < i → i < n → heapAt hq i = heapAt hp i) :
    SortedButDown t hq n 0 := by
  refine ⟨fun j jpos jlt child => ?_, fun j jpos jlt child pos => by omega⟩
  rw [keyAt, keyAt, same j jpos jlt, same _ (by omega) (by omega)]
  exact h j jpos (by omega)

theorem heapSorted_heapWithoutMin {t : Vector Node 511} {hp : Vector Handle 256} {n : Nat} (hn : n < 256)
    (h : HeapSorted t hp (n + 1)) : HeapSorted t (heapWithoutMin t n hp) n := by
  unfold heapWithoutMin
  split
  · next zero => exact fun i pos lt => by omega
  · refine heapSorted_siftDown (by omega) (sortedButDown_replaceRoot h fun i pos lt => ?_) (by omega)
    rw [heapAt_tableSet, if_neg (by omega), heapAt_tableSet, if_neg (by omega)]

section
variable {s : State} (some : 1 ≤ s.heapn.toNat)
include some

theorem toNat_heapn_heapExtractMin : s.heapExtractMin.2.heapn.toNat = s.heapn.toNat - 1 := by
  rw [heapExtractMin_heapn]
  exact BitVec.toNat_sub_of_le some

theorem heapOrder_heapExtractMin (order : HeapOrder s) (le : s.heapn.toNat ≤ 256) :
    HeapOrder s.heapExtractMin.2 := by
  rw [heapOrder_iff] at order ⊢
  rw [toNat_heapn_heapExtractMin some, heapExtractMin_heap, heapExtractMin_node]
  rw [← Nat.sub_add_cancel some] at order
  exact heapSorted_heapWithoutMin (by omega) order

/-- `heap_extract_min` removes exactly the handle it returns. -/
theorem slots_heapExtractMin (le : s.heapn.toNat ≤ 256) : (slots s.heap s.heapn.toNat).Perm
    (s.heapExtractMin.1 :: slots s.heapExtractMin.2.heap (s.heapn.toNat - 1)) := by
  have removed := slots_heapWithoutMin s.node (s.heapn.toNat - 1) s.heap (by omega)
  rwa [Nat.sub_add_cancel some] at removed

end

/-- Settles O34: position 0 holds a least key, and `siftDown` restores the order below the handle put there. -/
theorem extractMinReturnsTheLeast : Obligations.ExtractMinReturnsTheLeast := by
  intro s order some le
  refine ⟨heapOrder_heapExtractMin some order le, rfl, fun i lt => ?_, slots_heapExtractMin some le,
    heapAt_heapWithoutMin_last _ _ _ (by omega), fun i past => heapAt_heapWithoutMin_gt _ _ _ (by omega) (by omega)⟩
  exact less_eq_false_iff.2 ((heapOrder_iff.1 order).root_le i lt)

end Sys2Proof.Machine
end

section
/-! SUPPORT. TINIT, TMERGE and TFIN on the arena as a forest (rules R44, R45, R124 to R127): the leaves TINIT makes,
the one node a merge or the wrapper adds, and the parentless nodes before and after. -/

namespace Sys2Proof.Machine

/-! ### Adding a node (R44) -/

/-- `t` has the nodes of `s` and one more, `x`, at the next handle. -/
structure Adds (s : State) (x : Node) (t : State) : Prop where
  room : s.nnode ≠ NIL
  nodeAt : ∀ h, t.nodeAt h = if h = s.nnode then x else s.nodeAt h
  nnode : t.nnode = s.nnode + 1

theorem adds_newNode {s : State} (room : s.nnode ≠ NIL) (x : Node) : Adds s x (s.newNode x) :=
  ⟨room, fun h => nodeAt_newNode s x h room, rfl⟩

theorem toNat_nnode_lt {s : State} (room : s.nnode ≠ NIL) : s.nnode.toNat < 511 := by
  have notLast : s.nnode.toNat ≠ 511 := fun last => room (BitVec.eq_of_toNat_eq last)
  omega

theorem not_isNode_nnode (s : State) : ¬IsNode s s.nnode := lt_irrefl _

theorem not_isNode_nil (s : State) : ¬IsNode s NIL := by
  have := s.nnode.isLt
  exact fun nil : 511 < s.nnode.toNat => by omega

/-- `c` is a child of the node `x`, in the sense of `IsChild`. -/
def Node.HasChild (x : Node) (c : Handle) : Prop := x.leaf = false ∧ c ≠ NIL ∧ (x.left = c ∨ x.right = c)

theorem isChild_iff {s : State} {p c : Handle} : IsChild s p c ↔ IsNode s p ∧ (s.nodeAt p).HasChild c := .rfl

namespace Adds
variable {s t : State} {x : Node} (adds : Adds s x t)
include adds

theorem toNat_nnode : t.nnode.toNat = s.nnode.toNat + 1 := by
  have := toNat_nnode_lt adds.room
  rw [adds.nnode]
  exact BitVec.toNat_add_of_lt (show s.nnode.toNat + 1 < 512 by omega)

theorem nodeAt_new : t.nodeAt s.nnode = x := by rw [adds.nodeAt, if_pos rfl]

theorem nodeAt_of_ne {h : Handle} (old : h ≠ s.nnode) : t.nodeAt h = s.nodeAt h := by rw [adds.nodeAt, if_neg old]

theorem isNode_iff {h : Handle} : IsNode t h ↔ h = s.nnode ∨ IsNode s h := by
  rw [IsNode, IsNode, adds.toNat_nnode, BitVec.toNat_eq]
  omega

theorem nodeAt_old {h : Handle} (old : IsNode s h) : t.nodeAt h = s.nodeAt h :=
  adds.nodeAt_of_ne fun new => not_isNode_nnode s (new ▸ old)

theorem isChild_iff {p c : Handle} : IsChild t p c ↔ IsChild s p c ∨ p = s.nnode ∧ x.HasChild c := by
  rw [Machine.isChild_iff, Machine.isChild_iff, adds.isNode_iff]
  by_cases new : p = s.nnode
  · subst new
    simp [adds.nodeAt_new, not_isNode_nnode]
  · simp [adds.nodeAt_of_ne new, new]

end Adds

/-! ### The part of the arena that no build command but TINIT takes back -/

theorem ArenaInv.child_lt {s : State} (arena : ArenaInv s) {p c : Handle} (child : IsChild s p c) :
    c.toNat < p.toNat := by
  obtain ⟨node, inner, real, isLink⟩ := child
  obtain ⟨-, left, right⟩ := arena.innerLinks p node inner
  rcases isLink with rfl | rfl
  · exact left
  · rcases right with ⟨lt, -⟩ | ⟨nil, -⟩
    · exact lt
    · exact absurd nil real

/-- Where no tree is finished there is no wrapper: an internal node has two different children below it. -/
theorem ArenaInv.twoChildren {s : State} (arena : ArenaInv s) (noTree : s.treeValid = false) {h : Handle}
    (node : IsNode s h) (inner : (s.nodeAt h).leaf = false) :
    (s.nodeAt h).sym = 0 ∧ (s.nodeAt h).left < h ∧ (s.nodeAt h).right < h ∧ (s.nodeAt h).left ≠ (s.nodeAt h).right := by
  obtain ⟨sym, left, ⟨right, ne⟩ | ⟨-, -, tree, -⟩⟩ := arena.innerLinks h node inner
  · exact ⟨sym, left, right, ne⟩
  · exact absurd (noTree.symm.trans tree) (by decide)

section
variable {s t : State} {x : Node} (arena : ArenaInv s) (adds : Adds s x t)
include arena adds

theorem emptyRest_adds (h : Handle) (notNode : ¬IsNode t h) : t.nodeAt h = Node.empty := by
  rw [adds.isNode_iff, not_or] at notNode
  rw [adds.nodeAt_of_ne notNode.1]
  exact arena.emptyRest h notNode.2

theorem leafLinks_adds (inner : x.leaf = false) (h : Handle) (node : IsNode t h) (leaf : (t.nodeAt h).leaf = true) :
    (t.nodeAt h).left = NIL ∧ (t.nodeAt h).right = NIL := by
  rcases adds.isNode_iff.1 node with rfl | old
  · rw [adds.nodeAt_new, inner] at leaf
    cases leaf
  · rw [adds.nodeAt_old old] at leaf ⊢
    exact arena.leafLinks h old leaf

/-- The links of the old nodes stay; those of the new one are the caller's. -/
theorem innerLinks_adds (noTree : s.treeValid = false)
    (new : x.sym = 0 ∧ x.left < s.nnode ∧ ((x.right < s.nnode ∧ x.left ≠ x.right) ∨
      (x.right = NIL ∧ t.root = s.nnode ∧ t.treeValid = true ∧ t.nnode = 2)))
    (h : Handle) (node : IsNode t h) (inner : (t.nodeAt h).leaf = false) :
    (t.nodeAt h).sym = 0 ∧ (t.nodeAt h).left < h ∧ (((t.nodeAt h).right < h ∧ (t.nodeAt h).left ≠ (t.nodeAt h).right) ∨
      ((t.nodeAt h).right = NIL ∧ t.root = h ∧ t.treeValid = true ∧ t.nnode = 2)) := by
  rcases adds.isNode_iff.1 node with rfl | old
  · rw [adds.nodeAt_new]
    exact new
  · rw [adds.nodeAt_old old] at inner ⊢
    obtain ⟨sym, left, right, ne⟩ := arena.twoChildren noTree old inner
    exact ⟨sym, left, .inl ⟨right, ne⟩⟩

theorem leavesFirst_adds (inner : x.leaf = false) (g h : Handle) (lt : g < h) (node : IsNode t h)
    (leaf : (t.nodeAt h).leaf = true) : (t.nodeAt g).leaf = true ∧ (t.nodeAt g).sym < (t.nodeAt h).sym := by
  rcases adds.isNode_iff.1 node with rfl | old
  · rw [adds.nodeAt_new, inner] at leaf
    cases leaf
  · have oldBelow : IsNode s g := Nat.lt_trans lt old
    rw [adds.nodeAt_old old] at leaf ⊢
    rw [adds.nodeAt_old oldBelow]
    exact arena.leavesFirst g h lt old leaf

/-- The children of the new node had no parent, so they have one now. -/
theorem oneParent_adds (kids : ∀ c, x.HasChild c → IsNode s c ∧ IsTop s c) (p q c : Handle)
    (hp : IsChild t p c) (hq : IsChild t q c) : p = q := by
  have notBoth {r : Handle} (old : IsChild s r c) (new : x.HasChild c) : False := by
    obtain ⟨node, top⟩ := kids c new
    exact (arena.topIffNoParent c node).1 top r old
  rcases adds.isChild_iff.1 hp with oldP | ⟨rfl, newP⟩ <;> rcases adds.isChild_iff.1 hq with oldQ | ⟨rfl, newQ⟩
  · exact arena.oneParent p q c oldP oldQ
  · exact (notBoth oldP newQ).elim
  · exact (notBoth oldQ newP).elim
  · rfl

/-- The parentless nodes after: the new one, and those of before that did not become its children. -/
theorem topIffNoParent_adds (kids : ∀ c, x.HasChild c → IsNode s c ∧ IsTop s c) (newTop : IsTop t s.nnode)
    (tops : ∀ h, IsNode s h → (IsTop t h ↔ IsTop s h ∧ ¬x.HasChild h)) (h : Handle) (node : IsNode t h) :
    IsTop t h ↔ ∀ p, ¬IsChild t p h := by
  rcases adds.isNode_iff.1 node with rfl | old
  · refine iff_of_true newTop fun p child => ?_
    rcases adds.isChild_iff.1 child with oldChild | ⟨-, newChild⟩
    · have below := arena.child_lt oldChild
      have bound : p.toNat < s.nnode.toNat := oldChild.1
      omega
    · exact not_isNode_nnode s (kids _ newChild).1
  · simp only [tops h old, arena.topIffNoParent h old, adds.isChild_iff, not_or, not_and, forall_and, forall_eq]

omit arena in
/-- The leaves stay: `l` of them, the first `l` handles. -/
theorem leaves_adds (inner : x.leaf = false) {l : Nat} (le : l ≤ s.nnode.toNat)
    (leaves : ∀ h, IsNode s h → ((s.nodeAt h).leaf = true ↔ h.toNat < l)) (h : Handle) (node : IsNode t h) :
    (t.nodeAt h).leaf = true ↔ h.toNat < l := by
  rcases adds.isNode_iff.1 node with rfl | old
  · rw [adds.nodeAt_new, inner]
    exact iff_of_false nofun (by omega)
  · rw [adds.nodeAt_old old]
    exact leaves h old

end

/-! ### The handles in the heap -/

theorem heapSlots_iff {s : State} : (∀ i, i < s.heapn.toNat → IsNode s (s.heapAt i)) ↔
    ∀ h, InHeap s h → IsNode s h :=
  ⟨fun h _ ⟨i, lt, e⟩ => e ▸ h i lt, fun h i lt => h _ ⟨i, lt, rfl⟩⟩

theorem heapDistinct_iff {s : State} :
    (∀ i j, i < s.heapn.toNat → j < s.heapn.toNat → s.heapAt i = s.heapAt j → i = j) ↔
      (slots s.heap s.heapn.toNat).Nodup := by
  rw [slots, List.nodup_map_iff_inj_on List.nodup_range]
  simp only [List.mem_range]
  exact ⟨fun h i hi j hj => h i j hi hj, fun h i j hi hj => h i hi j hj⟩

/-- A new node changes no key in the heap, so the order stays. -/
theorem heapOrder_newNode {s : State} (order : HeapOrder s) (room : s.nnode ≠ NIL) (fresh : ¬InHeap s s.nnode)
    (x : Node) : HeapOrder (s.newNode x) := by
  rw [heapOrder_iff] at order ⊢
  refine order.congr fun i lt => ?_
  have old : s.heapAt i ≠ s.nnode := fun new => fresh ⟨i, lt, new⟩
  have same : nodeAt (s.newNode x).node (s.heapAt i) = nodeAt s.node (s.heapAt i) :=
    (adds_newNode room x).nodeAt_of_ne old
  exact congrArg (fun y : Node => (toLex (y.w.toNat, (s.heapAt i).toNat) : ℕ ×ₗ ℕ)) same

theorem HeapOrder.least {s : State} (order : HeapOrder s) {h : Handle} (inHeap : InHeap s h) :
    nodeKey s.node (s.heapAt 0) ≤ nodeKey s.node h := by
  obtain ⟨i, lt, rfl⟩ := inHeap
  exact (heapOrder_iff.1 order).root_le i lt

/-! ### TINIT (R124) -/

/-- The arena and the heap hold one leaf for each symbol of `ys`, in that order, and nothing else. -/
structure Leaves (ys : List Sym) (s : State) : Prop where
  nnode : s.nnode.toNat = ys.length
  heapn : s.heapn.toNat = ys.length
  node : ∀ h, s.nodeAt h = (ys[h.toNat]?.map fun y => leafNode y (s.freqAt y)).getD Node.empty
  inHeap : (slots s.heap s.heapn.toNat).Perm ((List.range ys.length).map (BitVec.ofNat 9))
  rest : ∀ i, s.heapn.toNat ≤ i → s.heapAt i = NIL
  order : HeapOrder s

theorem leaves_clearBuild (s : State) : Leaves [] s.clearBuild where
  nnode := rfl
  heapn := rfl
  node := fun _ => tableGet_replicate _ _
  inHeap := .refl _
  rest := fun _ _ => tableGet_replicate _ _
  order := fun i _ lt => absurd lt (Nat.not_lt_zero i)

theorem ofNat_toNat_handle (h : Handle) : BitVec.ofNat 9 h.toNat = h := by
  rw [BitVec.ofNat_toNat, BitVec.setWidth_eq]

theorem mem_map_ofNat_range {n : Nat} (hn : n ≤ 512) {h : Handle} :
    h ∈ (List.range n).map (BitVec.ofNat 9) ↔ h.toNat < n := by
  simp only [List.mem_map, List.mem_range]
  constructor
  · rintro ⟨i, lt, rfl⟩
    rwa [BitVec.toNat_ofNat, Nat.mod_eq_of_lt (by omega)]
  · exact fun lt => ⟨h.toNat, lt, ofNat_toNat_handle h⟩

theorem Leaves.inHeap_iff {ys : List Sym} {s : State} (leaves : Leaves ys s) {h : Handle} :
    InHeap s h ↔ h.toNat < ys.length := by
  have := s.nnode.isLt
  rw [Machine.inHeap_iff, leaves.inHeap.mem_iff, mem_map_ofNat_range (by rw [← leaves.nnode]; omega)]

theorem Leaves.addLeaf {ys : List Sym} {s : State} (leaves : Leaves ys s) (short : ys.length < 256) {y : Sym}
    (present : s.freqAt y ≠ 0) : Leaves (ys ++ [y]) (s.addLeaf y) := by
  have nnode := leaves.nnode
  have heapn := leaves.heapn
  have room : s.nnode ≠ NIL := fun nil => by rw [nil] at nnode; change 511 = _ at nnode; omega
  have fresh : ¬InHeap s s.nnode := by rw [leaves.inHeap_iff]; omega
  have space : (s.newNode (leafNode y (s.freqAt y))).heapn.toNat < 256 := by rw [newNode_heapn]; omega
  have adds := adds_newNode room (leafNode y (s.freqAt y))
  have same : s.addLeaf y = (s.newNode (leafNode y (s.freqAt y))).heapInsert s.nnode := if_neg present
  have nextHandle : BitVec.ofNat 9 ys.length = s.nnode := by rw [← nnode]; exact ofNat_toNat_handle _
  have nextHeapn : (s.addLeaf y).heapn.toNat = s.heapn.toNat + 1 := by rw [same, toNat_heapn_heapInsert space]; rfl
  refine ⟨?_, by rw [nextHeapn, heapn, List.length_append, List.length_singleton], fun h => ?_, ?_, fun i le => ?_, ?_⟩
  · rw [same, heapInsert_nnode, adds.toNat_nnode, nnode, List.length_append, List.length_singleton]
  · have node : (s.addLeaf y).nodeAt h = (s.newNode (leafNode y (s.freqAt y))).nodeAt h := by rw [same]; rfl
    simp only [freqAt_addLeaf]
    rw [node, adds.nodeAt]
    by_cases new : h = s.nnode
    · rw [if_pos new, new, nnode, List.getElem?_concat_length]
      rfl
    · have other : h.toNat ≠ ys.length := fun e => new (BitVec.eq_of_toNat_eq (e.trans nnode.symm))
      rw [if_neg new, leaves.node h]
      rcases Nat.lt_or_ge h.toNat ys.length with lt | ge
      · rw [List.getElem?_append_left lt]
      · rw [List.getElem?_eq_none ge, List.getElem?_eq_none (by rw [List.length_append, List.length_singleton]; omega)]
  · rw [nextHeapn, List.length_append, List.length_singleton, List.range_succ, List.map_append, List.map_singleton,
      nextHandle, same]
    refine (slots_heapInsert _ s.nnode space).trans ?_
    exact (leaves.inHeap.cons _).trans (List.perm_append_singleton _ _).symm
  · rw [nextHeapn] at le
    rw [same]
    exact (heapAt_heapInsert_gt _ s.nnode space (by rw [newNode_heapn]; omega)).trans (leaves.rest i (by omega))
  · rw [same]
    exact heapOrder_heapInsert (heapOrder_newNode leaves.order room fresh _) space s.nnode

theorem addLeaf_absent {s : State} {y : Sym} (absent : s.freqAt y = 0) : s.addLeaf y = s := if_pos absent

theorem Leaves.addLeaves {ys zs : List Sym} {s : State} (leaves : Leaves ys s) (short : ys.length + zs.length ≤ 256) :
    Leaves (ys ++ zs.filter fun y => s.freqAt y != 0) (zs.foldl State.addLeaf s) := by
  induction zs generalizing ys s with
  | nil => rwa [List.filter_nil, List.append_nil]
  | cons z zs ih =>
    rw [List.length_cons] at short
    rw [List.foldl_cons]
    by_cases absent : s.freqAt z = 0
    · rw [addLeaf_absent absent, List.filter_cons_of_neg (by simpa using absent)]
      exact ih leaves (by omega)
    · have more := ih (leaves.addLeaf (by omega) absent) (by rw [List.length_append, List.length_singleton]; omega)
      rw [List.filter_cons_of_pos (by simpa using absent), List.append_cons]
      simpa only [freqAt_addLeaf] using more

/-- The symbols with a count, in ascending order. -/
def State.present (s : State) : List Sym := allSymbols.filter fun y => s.freqAt y != 0

theorem mem_present {s : State} {y : Sym} : y ∈ s.present ↔ s.freqAt y ≠ 0 := by
  simp [State.present, mem_allSymbols]

theorem length_present (s : State) : s.present.length = s.nsym := List.countP_eq_length_filter.symm

theorem present_pairwise_lt (s : State) : s.present.Pairwise (· < ·) := by
  refine List.Pairwise.filter _ (List.pairwise_map.2 ?_)
  refine List.pairwise_lt_range.imp_of_mem fun {a b} ha hb lt => ?_
  rw [List.mem_range] at ha hb
  rw [BitVec.lt_def, BitVec.toNat_ofNat, BitVec.toNat_ofNat]
  omega

theorem freqAt_tinitBody (s : State) (y : Sym) : s.tinitBody.freqAt y = s.freqAt y := by
  rw [State.freqAt, tinitBody_frame]
  rfl

/-- What TINIT makes: a leaf for each symbol with a count (R124). -/
theorem leaves_tinitBody (s : State) : Leaves s.present s.tinitBody :=
  (leaves_clearBuild s).addLeaves (zs := allSymbols) (by rw [allSymbols_length]; decide)

section
variable {ys : List Sym} {s : State} (leaves : Leaves ys s)
include leaves

theorem Leaves.isNode_iff {h : Handle} : IsNode s h ↔ h.toNat < ys.length := by rw [IsNode, leaves.nnode]

theorem Leaves.nodeAt_of_lt {h : Handle} (lt : h.toNat < ys.length) :
    s.nodeAt h = leafNode ys[h.toNat] (s.freqAt ys[h.toNat]) := by
  rw [leaves.node, List.getElem?_eq_getElem lt]
  rfl

theorem Leaves.nodeAt_of_ge {h : Handle} (ge : ys.length ≤ h.toNat) : s.nodeAt h = Node.empty := by
  rw [leaves.node, List.getElem?_eq_none ge]
  rfl

theorem Leaves.leaf_of_isNode {h : Handle} (node : IsNode s h) : (s.nodeAt h).leaf = true := by
  rw [leaves.nodeAt_of_lt (leaves.isNode_iff.1 node)]
  rfl

theorem Leaves.not_isChild {p c : Handle} : ¬IsChild s p c := fun ⟨node, inner, _⟩ => by
  rw [leaves.leaf_of_isNode node] at inner
  cases inner

/-- A list of leaves is a forest in which every node waits in the heap. -/
theorem Leaves.arenaInv (short : ys.length ≤ 256) (sorted : ys.Pairwise (· < ·)) (noTree : s.treeValid = false) :
    ArenaInv s where
  heapSlots := heapSlots_iff.2 fun h inHeap => leaves.isNode_iff.2 (leaves.inHeap_iff.1 inHeap)
  heapRest := leaves.rest
  heapDistinct := heapDistinct_iff.2 <| leaves.inHeap.nodup_iff.2 <|
    (List.nodup_map_iff_inj_on List.nodup_range).2 fun i hi j hj same => by
      rw [List.mem_range] at hi hj
      have toNat := congrArg BitVec.toNat same
      rwa [BitVec.toNat_ofNat, BitVec.toNat_ofNat, Nat.mod_eq_of_lt (by omega), Nat.mod_eq_of_lt (by omega)] at toNat
  emptyRest := fun h notNode => leaves.nodeAt_of_ge (Nat.not_lt.1 (leaves.isNode_iff.not.1 notNode))
  leafLinks := fun h node _ => by
    rw [leaves.nodeAt_of_lt (leaves.isNode_iff.1 node)]
    exact ⟨rfl, rfl⟩
  innerLinks := fun h node inner => by
    rw [leaves.leaf_of_isNode node] at inner
    cases inner
  leavesFirst := fun g h lt node _ => by
    have hh := leaves.isNode_iff.1 node
    have hg : g.toNat < ys.length := Nat.lt_trans lt hh
    rw [leaves.nodeAt_of_lt hh, leaves.nodeAt_of_lt hg]
    exact ⟨rfl, List.pairwise_iff_getElem.1 sorted _ _ hg hh lt⟩
  oneParent := fun _ _ _ child => absurd child leaves.not_isChild
  topIffNoParent := fun h node =>
    iff_of_true (.inl (leaves.inHeap_iff.2 (leaves.isNode_iff.1 node))) fun _ => leaves.not_isChild
  rootIsInner := fun tree => by rw [noTree] at tree; cases tree
  leaves := ⟨ys.length, short, leaves.nnode.ge,
    fun h node => iff_of_true (leaves.leaf_of_isNode node) (leaves.isNode_iff.1 node),
    fun _ => by rw [leaves.nnode, leaves.heapn]; omega, fun tree => by rw [noTree] at tree; cases tree⟩

end

end Sys2Proof.Machine
end

section
/-! SUPPORT. TMERGE, TFIN and TBUILD keep the forest (rules R125 to R128, R45, R195): what each does to the heap and the
arena, and the induction over the merges of TBUILD. -/

namespace Sys2Proof.Machine

/-! ### The flags through a build (R195) -/

/-- No build in progress, no codes, and neither a root nor a node. -/
theorem flagInv_clear {s : State} (dead : s.heapLive = false) (heap : s.heapn = 0)
    (noCode : s.codeValid = false) (root : s.root = NIL) (arena : s.nnode = 0) : FlagInv s where
  heapDead := fun _ => heap
  heapAlive := fun live => by rw [dead] at live; cases live
  heapnLe := by rw [heap]; decide
  noTree := fun _ => root
  codeNeedsTree := fun code => by rw [noCode] at code; cases code
  nothingBuilt := fun _ _ => arena

theorem flagInv_tinitBody {s : State} (count : s.freqEmpty = false) : FlagInv s.tinitBody := by
  have heapn := heapn_tinitBody s
  have le := nsym_le s
  have pos : s.nsym ≠ 0 := fun zero => by rw [(nsym_eq_zero s).1 zero] at count; cases count
  rw [tinitBody_frame] at heapn ⊢
  exact ⟨nofun, fun _ => ⟨by omega, rfl⟩, by omega, fun _ => rfl, nofun, nofun⟩

section
variable {s : State} (flags : FlagInv s) (live : s.heapLive = true)
include flags live

theorem FlagInv.noTree_of_live : s.treeValid = false := (flags.heapAlive live).2

theorem flagInv_tmergeBody (two : 2 ≤ s.heapn.toNat) : FlagInv s.tmergeBody := by
  have heapn := heapn_tmergeBody_toNat s two
  have le := flags.heapnLe
  rw [tmergeBody_eq] at heapn ⊢
  refine ⟨fun dead => ?_, fun _ => ⟨?_, flags.noTree_of_live live⟩, ?_, flags.noTree, flags.codeNeedsTree,
    fun dead => ?_⟩
  case refine_2 | refine_3 => omega
  all_goals exact absurd (live.symm.trans dead) (by decide)

end

theorem flagInv_tfinBody {s : State} (one : s.heapn.toNat = 1) : FlagInv s.tfinBody := by
  have isOne : s.heapn = 1 := BitVec.eq_of_toNat_eq one
  have empty : s.heapn - 1 = 0 := by rw [isOne]; rfl
  rw [tfinBody_frame, empty]
  exact ⟨fun _ => rfl, nofun, Nat.zero_le _, nofun, fun _ => rfl, nofun⟩

/-! ### TMERGE (R125) -/

/-- What TMERGE does: the handles `a` and `b` leave the heap, least first, and their parent enters it. -/
structure Merges (s t : State) (a b : Handle) (others : List Handle) : Prop where
  before : (slots s.heap s.heapn.toNat).Perm (a :: b :: others)
  after : (slots t.heap t.heapn.toNat).Perm (s.nnode :: others)
  least : ∀ h ∈ b :: others, nodeKey s.node a ≤ nodeKey s.node h
  second : ∀ h ∈ others, nodeKey s.node b ≤ nodeKey s.node h
  adds : Adds s (parentNode s.node a b) t
  order : HeapOrder t
  rest : (∀ i, s.heapn.toNat ≤ i → s.heapAt i = NIL) → ∀ i, t.heapn.toNat ≤ i → t.heapAt i = NIL

/-- The positions from the vacated one on hold NIL. -/
theorem heapRest_heapExtractMin {s : State} (some : 1 ≤ s.heapn.toNat) (le : s.heapn.toNat ≤ 256)
    (rest : ∀ i, s.heapn.toNat ≤ i → s.heapAt i = NIL) (i : Nat) (past : s.heapn.toNat - 1 ≤ i) :
    s.heapExtractMin.2.heapAt i = NIL := by
  rcases Nat.eq_or_lt_of_le past with rfl | beyond
  · exact heapAt_heapWithoutMin_last _ _ _ (by omega)
  · exact (heapAt_heapWithoutMin_gt _ _ _ (by omega) beyond).trans (rest i (by omega))

theorem merges_tmergeBody {s : State} (order : HeapOrder s) (two : 2 ≤ s.heapn.toNat) (le : s.heapn.toNat ≤ 256)
    (room : s.nnode ≠ NIL) (fresh : ¬InHeap s s.nnode) : ∃ a b others, Merges s s.tmergeBody a b others := by
  generalize hs1 : s.heapExtractMin.2 = s1
  generalize hs2 : s1.heapExtractMin.2 = s2
  have n1 : s1.heapn.toNat = s.heapn.toNat - 1 := hs1 ▸ toNat_heapn_heapExtractMin (by omega)
  have n2 : s2.heapn.toNat = s.heapn.toNat - 2 := by
    rw [← hs2, toNat_heapn_heapExtractMin (by omega), n1]
    omega
  have order1 : HeapOrder s1 := hs1 ▸ heapOrder_heapExtractMin (by omega) order le
  have order2 : HeapOrder s2 := hs2 ▸ heapOrder_heapExtractMin (by omega) order1 (by omega)
  have node1 : s1.node = s.node := hs1 ▸ rfl
  have node2 : s2.node = s.node := hs2 ▸ node1
  have nnode2 : s2.nnode = s.nnode := by rw [← hs2, ← hs1]; rfl
  have first : (slots s.heap s.heapn.toNat).Perm (s.heapAt 0 :: slots s1.heap s1.heapn.toNat) := by
    rw [n1, ← hs1]
    exact slots_heapExtractMin (by omega) le
  have second : (slots s1.heap s1.heapn.toNat).Perm (s1.heapAt 0 :: slots s2.heap s2.heapn.toNat) := by
    rw [n2, ← hs2, show s.heapn.toNat - 2 = s1.heapn.toNat - 1 by omega]
    exact slots_heapExtractMin (by omega) (by omega)
  have before := first.trans (second.cons _)
  have adds : Adds s2 (parentNode s.node (s.heapAt 0) (s1.heapAt 0)) _ := adds_newNode (nnode2 ▸ room) _
  have merged : s.tmergeBody =
      (s2.newNode (parentNode s.node (s.heapAt 0) (s1.heapAt 0))).heapInsert s.nnode := by
    rw [← hs2, ← hs1]
    rfl
  have fresh2 : ¬InHeap s2 s2.nnode := fun inHeap => fresh <| (inHeap_iff s _).2 <| before.mem_iff.2 <|
    List.mem_cons_of_mem _ (List.mem_cons_of_mem _ (nnode2 ▸ (inHeap_iff s2 _).1 inHeap))
  have space : (s2.newNode (parentNode s.node (s.heapAt 0) (s1.heapAt 0))).heapn.toNat < 256 := by
    rw [newNode_heapn]
    omega
  have heapn := toNat_heapn_heapInsert space s.nnode
  refine ⟨s.heapAt 0, s1.heapAt 0, slots s2.heap s2.heapn.toNat, before, ?_, fun h mem => ?_, fun h mem => ?_, ?_, ?_,
    fun rest i past => ?_⟩
  · rw [merged, heapn]
    exact slots_heapInsert _ _ space
  · refine order.least ((inHeap_iff s h).2 (first.mem_iff.2 (List.mem_cons_of_mem _ ?_)))
    exact second.mem_iff.2 mem
  · rw [← node1]
    exact order1.least ((inHeap_iff s1 h).2 (second.mem_iff.2 (List.mem_cons_of_mem _ mem)))
  · rw [merged]
    refine ⟨room, fun h => ?_, congrArg (· + 1) nnode2⟩
    have node := adds.nodeAt h
    rw [nnode2] at node
    exact node.trans (by rw [State.nodeAt, State.nodeAt, node2])
  · rw [merged]
    exact heapOrder_heapInsert (heapOrder_newNode order2 (nnode2 ▸ room) fresh2 _) space _
  · rw [merged, heapn, newNode_heapn] at past
    rw [merged]
    refine (heapAt_heapInsert_gt _ _ space (by rw [newNode_heapn]; omega)).trans ?_
    have rest1 : ∀ i, s1.heapn.toNat ≤ i → s1.heapAt i = NIL := by
      rw [n1, ← hs1]
      exact heapRest_heapExtractMin (by omega) le rest
    have rest2 := heapRest_heapExtractMin (by omega) (by omega) rest1 i (by omega)
    rwa [hs2] at rest2

theorem parentNode_hasChild {t : Vector Node 511} {a b c : Handle} (realA : a ≠ NIL) (realB : b ≠ NIL) :
    (parentNode t a b).HasChild c ↔ c = a ∨ c = b := by
  simp only [Node.HasChild, parentNode, true_and, eq_comm (a := c)]
  refine ⟨And.right, fun link => ⟨?_, link⟩⟩
  rcases link with rfl | rfl
  · exact realA
  · exact realB

/-- The flags, the forest and the heap order: what the build commands keep. -/
structure ForestInv (s : State) : Prop where
  flags : FlagInv s
  arena : ArenaInv s
  order : HeapOrder s

theorem BuildInv.forest {s : State} (inv : BuildInv s) : ForestInv s := ⟨inv.flags, inv.arena, inv.order⟩

theorem isNode_ne_nil {s : State} {h : Handle} (node : IsNode s h) : h ≠ NIL := fun nil => not_isNode_nil s (nil ▸ node)

namespace ForestInv
variable {s : State} (inv : ForestInv s)
include inv

theorem isNode_of_inHeap {h : Handle} (inHeap : InHeap s h) : IsNode s h := heapSlots_iff.1 inv.arena.heapSlots h inHeap

theorem nnode_not_inHeap : ¬InHeap s s.nnode := fun inHeap => not_isNode_nnode s (inv.isNode_of_inHeap inHeap)

theorem isTop_iff_inHeap (live : s.heapLive = true) {h : Handle} : IsTop s h ↔ InHeap s h := by
  simp [IsTop, inv.flags.noTree_of_live live]

/-- While a build runs NNODE + HEAPN = 2 l with at most 256 leaves, so the arena has room for a parent. -/
theorem nnode_ne_nil (live : s.heapLive = true) (two : 2 ≤ s.heapn.toNat) : s.nnode ≠ NIL := by
  obtain ⟨l, le, -, -, counts, -⟩ := inv.arena.leaves
  intro nil
  have counts := counts live
  rw [nil] at counts
  change 511 + _ = _ at counts
  omega

theorem merges (live : s.heapLive = true) (two : 2 ≤ s.heapn.toNat) :
    ∃ a b others, Merges s s.tmergeBody a b others :=
  merges_tmergeBody inv.order two inv.flags.heapnLe (inv.nnode_ne_nil live two) inv.nnode_not_inHeap

end ForestInv

section
variable {s t : State} {a b : Handle} {others : List Handle} (m : Merges s t a b others)
include m

theorem Merges.inHeap_iff_before {h : Handle} : InHeap s h ↔ h = a ∨ h = b ∨ h ∈ others := by
  rw [inHeap_iff, m.before.mem_iff, List.mem_cons, List.mem_cons]

theorem Merges.inHeap_iff_after {h : Handle} : InHeap t h ↔ h = s.nnode ∨ h ∈ others := by
  rw [inHeap_iff, m.after.mem_iff, List.mem_cons]

theorem Merges.nodup (distinct : (slots s.heap s.heapn.toNat).Nodup) : a ≠ b ∧ a ∉ others ∧ b ∉ others := by
  have nodup := m.before.nodup_iff.1 distinct
  simp only [List.nodup_cons, List.mem_cons, not_or] at nodup
  exact ⟨nodup.1.1, nodup.1.2, nodup.2.1⟩

end

section
variable {s : State} (inv : ForestInv s) (live : s.heapLive = true) {a b : Handle} {others : List Handle}
  (m : Merges s s.tmergeBody a b others)
include inv live m

omit live in
theorem Merges.isNode {h : Handle} (mem : h = a ∨ h = b ∨ h ∈ others) : IsNode s h :=
  inv.isNode_of_inHeap (m.inHeap_iff_before.2 mem)

omit live in
theorem Merges.hasChild_iff {c : Handle} : (parentNode s.node a b).HasChild c ↔ c = a ∨ c = b :=
  parentNode_hasChild (isNode_ne_nil (m.isNode inv (.inl rfl))) (isNode_ne_nil (m.isNode inv (.inr (.inl rfl))))

/-- The children of the new node waited in the heap. -/
theorem Merges.kids (c : Handle) (child : (parentNode s.node a b).HasChild c) : IsNode s c ∧ IsTop s c := by
  have mem : c = a ∨ c = b ∨ c ∈ others := ((m.hasChild_iff inv).1 child).imp_right .inl
  exact ⟨m.isNode inv mem, (inv.isTop_iff_inHeap live).2 (m.inHeap_iff_before.2 mem)⟩

theorem Merges.isTop_iff {h : Handle} : IsTop s.tmergeBody h ↔ h = s.nnode ∨ h ∈ others := by
  have noTree : s.tmergeBody.treeValid = false := by rw [tmergeBody_eq, inv.flags.noTree_of_live live]
  rw [IsTop, m.inHeap_iff_after, noTree]
  simp

/-- The other handles in the heap stay parentless. -/
theorem Merges.tops (h : Handle) (node : IsNode s h) :
    IsTop s.tmergeBody h ↔ IsTop s h ∧ ¬(parentNode s.node a b).HasChild h := by
  obtain ⟨-, notA, notB⟩ := m.nodup (heapDistinct_iff.1 inv.arena.heapDistinct)
  have old : h ≠ s.nnode := fun new => not_isNode_nnode s (new ▸ node)
  rw [m.isTop_iff inv live, inv.isTop_iff_inHeap live, m.inHeap_iff_before, m.hasChild_iff inv]
  constructor
  · rintro (new | other)
    · exact absurd new old
    · exact ⟨.inr (.inr other), by rintro (rfl | rfl) <;> contradiction⟩
  · rintro ⟨rfl | rfl | other, notChild⟩
    · exact absurd (.inl rfl) notChild
    · exact absurd (.inr rfl) notChild
    · exact .inr other

theorem Merges.arenaInv (two : 2 ≤ s.heapn.toNat) : ArenaInv s.tmergeBody := by
  have arena := inv.arena
  have noTree := inv.flags.noTree_of_live live
  have noTree' : s.tmergeBody.treeValid = false := by rw [tmergeBody_eq, noTree]
  have distinct := heapDistinct_iff.1 arena.heapDistinct
  have nodeA := m.isNode inv (.inl rfl)
  have nodeB := m.isNode inv (.inr (.inl rfl))
  refine ⟨heapSlots_iff.2 fun h inHeap => ?_, m.rest arena.heapRest, heapDistinct_iff.2 ?_,
    emptyRest_adds arena m.adds, leafLinks_adds arena m.adds rfl,
    innerLinks_adds arena m.adds noTree ⟨rfl, nodeA, .inl ⟨nodeB, (m.nodup distinct).1⟩⟩,
    leavesFirst_adds arena m.adds rfl, oneParent_adds arena m.adds (m.kids inv live),
    topIffNoParent_adds arena m.adds (m.kids inv live) ((m.isTop_iff inv live).2 (.inl rfl)) (m.tops inv live),
    fun tree => absurd (noTree'.symm.trans tree) (by decide), ?_⟩
  · rw [m.adds.isNode_iff]
    exact (m.inHeap_iff_after.1 inHeap).imp_right fun other => m.isNode inv (.inr (.inr other))
  · have nodup := m.before.nodup_iff.1 distinct
    rw [m.after.nodup_iff, List.nodup_cons]
    exact ⟨fun other => not_isNode_nnode s (m.isNode inv (.inr (.inr other))),
      (List.nodup_cons.1 (List.nodup_cons.1 nodup).2).2⟩
  · obtain ⟨l, le256, le, leaves, counts, -⟩ := arena.leaves
    have nnode := m.adds.toNat_nnode
    have heapn := heapn_tmergeBody_toNat s two
    have counts := counts live
    exact ⟨l, le256, by omega, leaves_adds m.adds rfl le leaves, fun _ => by omega,
      fun tree => absurd (noTree'.symm.trans tree) (by decide)⟩

theorem Merges.forest (two : 2 ≤ s.heapn.toNat) : ForestInv s.tmergeBody :=
  ⟨flagInv_tmergeBody inv.flags live two, m.arenaInv inv live two, m.order⟩

end

theorem forestInv_tmergeBody {s : State} (inv : ForestInv s) (live : s.heapLive = true) (two : 2 ≤ s.heapn.toNat) :
    ForestInv s.tmergeBody := by
  obtain ⟨a, b, others, m⟩ := inv.merges live two
  exact m.forest inv live two

/-! ### TINIT (R124) -/

theorem forestInv_tinitBody {s : State} (count : s.freqEmpty = false) : ForestInv s.tinitBody := by
  have leaves := leaves_tinitBody s
  have noTree : s.tinitBody.treeValid = false := by rw [tinitBody_frame]
  have short : s.present.length ≤ 256 := (length_present s).trans_le (nsym_le s)
  exact ⟨flagInv_tinitBody count, leaves.arenaInv short (present_pairwise_lt s) noTree, leaves.order⟩

/-! ### TFIN (R126, R127) -/

/-- TFIN on a heap of one handle that is an internal node: it is the root. -/
theorem tfinBody_of_inner {s : State} (inner : (s.nodeAt (s.heapAt 0)).leaf = false) :
    s.tfinBody = s.heapExtractMin.2.setTree (s.heapAt 0) := by
  have notLeaf : ¬(s.heapExtractMin.2.nodeAt s.heapExtractMin.1).leaf = true := by
    change ¬(s.nodeAt (s.heapAt 0)).leaf = true
    rw [inner]
    decide
  exact if_neg notLeaf

/-- TFIN on a lone leaf: the wrapper is the root. -/
theorem tfinBody_of_leaf {s : State} (leaf : (s.nodeAt (s.heapAt 0)).leaf = true) :
    s.tfinBody = (s.heapExtractMin.2.newNode (wrapperNode s.node (s.heapAt 0))).setTree s.nnode :=
  if_pos leaf

theorem wrapperNode_hasChild {t : Vector Node 511} {r c : Handle} (real : r ≠ NIL) :
    (wrapperNode t r).HasChild c ↔ c = r := by
  simp only [Node.HasChild, wrapperNode, true_and, eq_comm (a := c)]
  constructor
  · rintro ⟨notNil, link | nil⟩
    · exact link
    · exact absurd nil.symm notNil
  · rintro rfl
    exact ⟨real, .inl rfl⟩

theorem heap_tfinBody (s : State) : s.tfinBody.heap = s.heapExtractMin.2.heap := by
  cases leaf : (s.nodeAt (s.heapAt 0)).leaf
  · rw [tfinBody_of_inner leaf]
    rfl
  · rw [tfinBody_of_leaf leaf]
    rfl

theorem heapAt_tfinBody {s : State} (one : s.heapn.toNat = 1) (i : Nat) :
    s.tfinBody.heapAt i = if i = 0 then NIL else s.heapAt i := by
  have same : s.tfinBody.heapAt i = heapAt (heapWithoutMin s.node 0 s.heap) i := by
    rw [State.heapAt, heap_tfinBody, heapExtractMin_heap, one]
  rw [same]
  split
  · next zero =>
    rw [zero]
    exact heapAt_heapWithoutMin_last _ _ _ (by decide)
  · exact heapAt_heapWithoutMin_gt _ _ _ (by decide) (by omega)

section
variable {s : State} (inv : ForestInv s) (live : s.heapLive = true) (one : s.heapn.toNat = 1)
include inv live one

omit inv live in
theorem inHeap_iff_of_one {h : Handle} : InHeap s h ↔ h = s.heapAt 0 := by
  rw [inHeap_iff, one]
  exact List.mem_singleton

/-- The last node made has no parent, so it is the one left in the heap. -/
theorem ForestInv.toNat_lastHandle : (s.heapAt 0).toNat + 1 = s.nnode.toNat := by
  have pos : (s.heapAt 0).toNat < s.nnode.toNat := inv.isNode_of_inHeap ⟨0, by omega, rfl⟩
  have toNat : (s.nnode - 1).toNat = s.nnode.toNat - 1 := BitVec.toNat_sub_of_le (show 1 ≤ s.nnode.toNat by omega)
  have last : IsNode s (s.nnode - 1) := show (s.nnode - 1).toNat < _ by omega
  have top : IsTop s (s.nnode - 1) := (inv.arena.topIffNoParent _ last).2 fun p child => by
    have below := inv.arena.child_lt child
    have bound : p.toNat < s.nnode.toNat := child.1
    omega
  rw [inv.isTop_iff_inHeap live, inHeap_iff_of_one one] at top
  rw [← top]
  omega

/-- A leaf is the last one left in the heap only when there is no other node (R127). -/
theorem ForestInv.nnode_of_leaf (leaf : (s.nodeAt (s.heapAt 0)).leaf = true) : s.nnode.toNat = 1 := by
  obtain ⟨l, -, le, leaves, counts, -⟩ := inv.arena.leaves
  have last := inv.toNat_lastHandle live one
  have isLeaf := (leaves _ (inv.isNode_of_inHeap ⟨0, by omega, rfl⟩)).1 leaf
  have counts := counts live
  omega

omit live in
theorem ForestInv.heapRest_tfinBody (i : Nat) : s.tfinBody.heapAt i = NIL := by
  rw [heapAt_tfinBody one]
  split
  · rfl
  · exact inv.arena.heapRest i (by omega)

omit inv live in
theorem toNat_heapn_tfinBody : s.tfinBody.heapn.toNat = 0 := by
  rw [tfinBody_frame]
  exact (toNat_heapn_heapExtractMin (by omega)).trans (by omega)

omit inv live in
/-- The one parentless node of the finished tree is its root. -/
theorem isTop_tfinBody_iff {h : Handle} : IsTop s.tfinBody h ↔ h = s.tfinBody.root := by
  have heapn := toNat_heapn_tfinBody one
  have tree : s.tfinBody.treeValid = true := by rw [tfinBody_frame]
  have nobody : ¬InHeap s.tfinBody h := fun ⟨i, lt, _⟩ => by omega
  simp only [IsTop, nobody, tree, false_or, true_and]
  exact eq_comm

theorem arenaInv_tfinBody_of_inner (inner : (s.nodeAt (s.heapAt 0)).leaf = false) : ArenaInv s.tfinBody := by
  have rest := inv.heapRest_tfinBody one
  have heapn := toNat_heapn_tfinBody one
  have last := inv.toNat_lastHandle live one
  have top {h : Handle} := isTop_tfinBody_iff one (h := h)
  have arena := inv.arena
  have lastNode := inv.isNode_of_inHeap ⟨0, by omega, rfl⟩
  rw [tfinBody_of_inner inner] at rest heapn top ⊢
  refine ⟨fun i lt => by omega, fun i _ => rest i, fun i j lt => by omega, arena.emptyRest, arena.leafLinks,
    fun h node isInner => ?_, arena.leavesFirst, arena.oneParent, fun h node => ?_, fun _ => ⟨lastNode, inner⟩, ?_⟩
  · obtain ⟨sym, left, right, ne⟩ := arena.twoChildren (inv.flags.noTree_of_live live) node isInner
    exact ⟨sym, left, .inl ⟨right, ne⟩⟩
  · refine .trans ?_ (arena.topIffNoParent h node)
    rw [inv.isTop_iff_inHeap live, inHeap_iff_of_one one, top, setTree_root]
  · obtain ⟨l, le256, le, leaves, counts, -⟩ := arena.leaves
    have counts := counts live
    have notLeaf := (leaves _ lastNode).not.1 (by rw [inner]; decide)
    exact ⟨l, le256, le, leaves, nofun, fun _ => .inl (by rw [setTree_nnode, heapExtractMin_nnode]; omega)⟩

/-- The wrapper is the one node that TFIN may add. -/
theorem ForestInv.adds_wrapper (leaf : (s.nodeAt (s.heapAt 0)).leaf = true) :
    Adds s (wrapperNode s.node (s.heapAt 0)) s.tfinBody := by
  have nnode := inv.nnode_of_leaf live one leaf
  have room : s.nnode ≠ NIL := fun nil => by rw [nil] at nnode; exact absurd nnode (by decide)
  rw [tfinBody_of_leaf leaf]
  exact ⟨room, (adds_newNode (s := s.heapExtractMin.2) room _).nodeAt, rfl⟩

theorem arenaInv_tfinBody_of_leaf (leaf : (s.nodeAt (s.heapAt 0)).leaf = true) : ArenaInv s.tfinBody := by
  have adds := inv.adds_wrapper live one leaf
  have arena := inv.arena
  have heapn := toNat_heapn_tfinBody one
  have nnode := inv.nnode_of_leaf live one leaf
  have nnode' := adds.toNat_nnode
  have root : s.tfinBody.root = s.nnode := by rw [tfinBody_of_leaf leaf]; rfl
  have tree : s.tfinBody.treeValid = true := by rw [tfinBody_frame]
  have dead : s.tfinBody.heapLive = false := by rw [tfinBody_frame]
  have two : s.tfinBody.nnode = 2 := BitVec.eq_of_toNat_eq (show s.tfinBody.nnode.toNat = 2 by omega)
  have inHeap : InHeap s (s.heapAt 0) := ⟨0, by omega, rfl⟩
  have lastNode := inv.isNode_of_inHeap inHeap
  have hasChild {c : Handle} := wrapperNode_hasChild (t := s.node) (c := c) (isNode_ne_nil lastNode)
  have kids (c : Handle) (child : (wrapperNode s.node (s.heapAt 0)).HasChild c) : IsNode s c ∧ IsTop s c := by
    rw [hasChild.1 child]
    exact ⟨lastNode, (inv.isTop_iff_inHeap live).2 inHeap⟩
  have tops (h : Handle) (node : IsNode s h) :
      IsTop s.tfinBody h ↔ IsTop s h ∧ ¬(wrapperNode s.node (s.heapAt 0)).HasChild h := by
    have old : h ≠ s.nnode := fun new => not_isNode_nnode s (new ▸ node)
    rw [isTop_tfinBody_iff one, root, inv.isTop_iff_inHeap live, inHeap_iff_of_one one, hasChild]
    exact iff_of_false old and_not_self
  refine ⟨fun i lt => by omega, fun i _ => inv.heapRest_tfinBody one i, fun i j lt => by omega,
    emptyRest_adds arena adds, leafLinks_adds arena adds rfl,
    innerLinks_adds arena adds (inv.flags.noTree_of_live live) ⟨rfl, lastNode, .inr ⟨rfl, root, tree, two⟩⟩,
    leavesFirst_adds arena adds rfl, oneParent_adds arena adds kids,
    topIffNoParent_adds arena adds kids ((isTop_tfinBody_iff one).2 root.symm) tops, fun _ => ?_, ?_⟩
  · rw [root, adds.nodeAt_new]
    exact ⟨adds.isNode_iff.2 (.inl rfl), rfl⟩
  · obtain ⟨l, le256, le, leaves, counts, -⟩ := arena.leaves
    have counts := counts live
    exact ⟨l, le256, by omega, leaves_adds adds rfl le leaves,
      fun live' => absurd (dead.symm.trans live') (by decide), fun _ => .inr ⟨by omega, two⟩⟩

theorem forestInv_tfinBody : ForestInv s.tfinBody := by
  have heapn := toNat_heapn_tfinBody one
  refine ⟨flagInv_tfinBody one, ?_, fun i _ lt => by omega⟩
  cases leaf : (s.nodeAt (s.heapAt 0)).leaf
  · exact arenaInv_tfinBody_of_inner inv live one leaf
  · exact arenaInv_tfinBody_of_leaf inv live one leaf

end

/-! ### TBUILD (R128) -/

/-- What holds after TINIT and is kept by every merge holds when the merges end. -/
theorem mergeAll_induction {P : State → Prop}
    (merge : ∀ s, P s → s.heapLive = true → 2 ≤ s.heapn.toNat → P s.tmergeBody) (fuel : Nat) {s : State} (hs : P s)
    (live : s.heapLive = true) : P (s.mergeAll fuel) ∧ (s.mergeAll fuel).heapLive = true := by
  induction fuel generalizing s with
  | zero => exact ⟨hs, live⟩
  | succ fuel ih =>
    unfold State.mergeAll
    split
    · next two => exact ih (merge s hs live two) live
    · exact ⟨hs, live⟩

theorem tbuildBody_induction {P : State → Prop} {s : State} (count : s.freqEmpty = false) (init : P s.tinitBody)
    (merge : ∀ s, P s → s.heapLive = true → 2 ≤ s.heapn.toNat → P s.tmergeBody) :
    ∃ u, P u ∧ u.heapLive = true ∧ u.heapn.toNat = 1 ∧ s.tbuildBody = u.tfinBody := by
  have live : s.tinitBody.heapLive = true := by rw [tinitBody_frame]
  have pos : s.tinitBody.heapn.toNat ≠ 0 := fun zero => by
    rw [(nsym_eq_zero s).1 ((heapn_tinitBody s).symm.trans zero)] at count
    cases count
  obtain ⟨merged, liveMerged⟩ := mergeAll_induction merge s.tinitBody.heapn.toNat init live
  exact ⟨_, merged, liveMerged, heapn_mergeAll _ _ (by omega) (by omega), rfl⟩

theorem forestInv_tbuildBody {s : State} (count : s.freqEmpty = false) : ForestInv s.tbuildBody := by
  obtain ⟨u, inv, live, one, same⟩ := tbuildBody_induction count (forestInv_tinitBody count)
    fun _ => forestInv_tmergeBody
  rw [same]
  exact forestInv_tfinBody inv live one

end Sys2Proof.Machine
end

section
/-! SUPPORT. The weights through a build (rules R44, R114, R130): the leaves stay, a parent weighs what its children
weigh, and everything the heap weighs is the weight of the leaves, which TOTAL bounds below 2^40. -/

namespace Sys2Proof.Machine

/-! ### Leaves that stay -/

/-- `s` and `t` have the same leaves at the same handles. -/
def SameLeaves (s t : State) : Prop :=
  ∀ h, (s.nodeAt h).leaf = true ∨ (t.nodeAt h).leaf = true → t.nodeAt h = s.nodeAt h

theorem SameLeaves.refl (s : State) : SameLeaves s s := fun _ _ => rfl

theorem SameLeaves.trans {s t u : State} (st : SameLeaves s t) (tu : SameLeaves t u) : SameLeaves s u := by
  rintro h (leaf | leaf)
  · have same := st h (.inl leaf)
    rw [tu h (.inl (by rwa [same])), same]
  · have same := tu h (.inr leaf)
    rw [same, st h (.inr (by rwa [← same]))]

/-- A node that is no leaf is added at a handle that held none. -/
theorem sameLeaves_adds {s t : State} {x : Node} (arena : ArenaInv s) (adds : Adds s x t) (inner : x.leaf = false) :
    SameLeaves s t := by
  intro h leaf
  by_cases new : h = s.nnode
  · rw [new, adds.nodeAt_new, inner, arena.emptyRest _ (not_isNode_nnode s)] at leaf
    rcases leaf with leaf | leaf <;> cases leaf
  · exact adds.nodeAt_of_ne new

theorem leafWeight_congr {s t : State} (same : SameLeaves s t) : leafWeight t = leafWeight s := by
  refine congrArg List.sum (List.map_congr_left fun h _ => ?_)
  by_cases leaf : (s.nodeAt h).leaf = true ∨ (t.nodeAt h).leaf = true
  · simp only [State.weight, same h leaf]
  · rw [not_or] at leaf
    rw [if_neg leaf.1, if_neg leaf.2]

/-- The sum over all handles is the sum over the first `n` when these are the leaves. -/
theorem leafWeight_eq_sum {s : State} {n : Nat} (hn : n ≤ 511)
    (leaves : ∀ h, (s.nodeAt h).leaf = true ↔ h.toNat < n) :
    leafWeight s = (((List.range n).map (BitVec.ofNat 9)).map s.weight).sum := by
  have toNat {i : Nat} (lt : i < 511) : (BitVec.ofNat 9 i).toNat = i :=
    (BitVec.toNat_ofNat _ _).trans (Nat.mod_eq_of_lt (by omega))
  have head : (List.range n).map (fun i => if (s.nodeAt (BitVec.ofNat 9 i)).leaf then s.weight (BitVec.ofNat 9 i)
      else 0) = (List.range n).map fun i => s.weight (BitVec.ofNat 9 i) :=
    List.map_congr_left fun i hi => by
      rw [List.mem_range] at hi
      rw [if_pos ((leaves _).2 (by rwa [toNat (by omega)]))]
  have tail : (List.range (511 - n)).map (fun i => if (s.nodeAt (BitVec.ofNat 9 (n + i))).leaf then
      s.weight (BitVec.ofNat 9 (n + i)) else 0) = (List.range (511 - n)).map fun _ => 0 :=
    List.map_congr_left fun i hi => by
      rw [List.mem_range] at hi
      rw [if_neg fun leaf => by
        have := (leaves _).1 leaf
        rw [toNat (by omega)] at this
        omega]
  rw [leafWeight, allHandles, show 511 = n + (511 - n) by omega, List.range_add]
  simp only [List.map_map, List.map_append, Function.comp_def, List.sum_append, head, tail]
  simp

/-! ### The bound (R114) -/

theorem ArenaInv.leaf_iff {s : State} (arena : ArenaInv s) :
    ∃ l, l ≤ 256 ∧ ∀ h, (s.nodeAt h).leaf = true ↔ h.toNat < l := by
  obtain ⟨l, le256, le, leaves, -⟩ := arena.leaves
  refine ⟨l, le256, fun h => ?_⟩
  by_cases node : IsNode s h
  · exact leaves h node
  · rw [arena.emptyRest h node]
    exact iff_of_false nofun fun lt => node (Nat.lt_of_lt_of_le lt le)

theorem ArenaInv.isNode_of_leaf {s : State} (arena : ArenaInv s) {h : Handle} (leaf : (s.nodeAt h).leaf = true) :
    IsNode s h := by
  by_contra notNode
  rw [arena.emptyRest h notNode] at leaf
  cases leaf

/-- At most 256 leaves, each below 2^32. -/
theorem leafWeight_lt {s : State} (arena : ArenaInv s) (weights : WeightInv s) : leafWeight s < 2 ^ 40 := by
  obtain ⟨l, le256, leaves⟩ := arena.leaf_iff
  have bound : ∀ w ∈ ((List.range l).map (BitVec.ofNat 9)).map s.weight, w ≤ 2 ^ 32 - 1 := by
    intro w hw
    obtain ⟨h, mem, rfl⟩ := List.mem_map.1 hw
    have leaf := (leaves h).2 ((mem_map_ofNat_range (by omega)).1 mem)
    have := (weights.leafRange h leaf).2
    omega
  have sum := List.sum_le_card_nsmul _ _ bound
  rw [List.length_map, List.length_map, List.length_range, smul_eq_mul] at sum
  rw [leafWeight_eq_sum (by omega) leaves]
  omega

theorem heapWeight_eq_sum (s : State) : heapWeight s = ((slots s.heap s.heapn.toNat).map s.weight).sum := by
  rw [slots, List.map_map]
  rfl

/-! ### Weights when a node is added (R125, R127) -/

section
variable {s t : State} {x : Node} (arena : ArenaInv s) (weights : WeightInv s) (adds : Adds s x t)
include arena weights adds

omit arena weights in
theorem weight_old {h : Handle} (old : IsNode s h) : t.weight h = s.weight h := by
  rw [State.weight, adds.nodeAt_old old, State.weight]

omit arena adds in
theorem leafRange_of_sameLeaves (same : SameLeaves s t) (h : Handle) (leaf : (t.nodeAt h).leaf = true) :
    0 < t.weight h ∧ t.weight h < 2 ^ 32 := by
  have node := same h (.inr leaf)
  rw [State.weight, node]
  exact weights.leafRange h (by rwa [← node])

/-- The children of an old node are old, so its sum stays; the new node's sum is the caller's. -/
theorem innerSum_adds (new : t.weight s.nnode = t.weight x.left + if x.right = NIL then 0 else t.weight x.right)
    (h : Handle) (node : IsNode t h) (inner : (t.nodeAt h).leaf = false) :
    t.weight h = t.weight (t.nodeAt h).left +
      (if (t.nodeAt h).right = NIL then 0 else t.weight (t.nodeAt h).right) := by
  rcases adds.isNode_iff.1 node with rfl | old
  · rw [adds.nodeAt_new]
    exact new
  · rw [adds.nodeAt_old old] at inner ⊢
    obtain ⟨-, left, right⟩ := arena.innerLinks h old inner
    have oldLeft : IsNode s (s.nodeAt h).left := Nat.lt_trans left old
    rw [weight_old adds old, weight_old adds oldLeft, weights.innerSum h old inner]
    split
    · rfl
    · next real =>
      have oldRight : IsNode s (s.nodeAt h).right := by
        rcases right with ⟨lt, -⟩ | ⟨nil, -⟩
        · exact Nat.lt_trans lt old
        · exact absurd nil real
      rw [weight_old adds oldRight]

end

/-! ### TMERGE (R125) -/

section
variable {s : State} {a b : Handle} {others : List Handle} (inv : ForestInv s) (weights : WeightInv s)
  (live : s.heapLive = true) (m : Merges s s.tmergeBody a b others)
include inv weights live m

omit inv in
/-- The two least handles and the others share the weight of the leaves. -/
theorem Merges.leafWeight_eq : leafWeight s = s.weight a + (s.weight b + (others.map s.weight).sum) := by
  rw [← weights.heapSum live, heapWeight_eq_sum, (m.before.map s.weight).sum_eq]
  simp only [List.map_cons, List.sum_cons]

/-- No weight addition wraps: the sum is part of the weight of the leaves. -/
theorem Merges.weight_add_lt : s.weight a + s.weight b < 2 ^ 40 := by
  have total := m.leafWeight_eq weights live
  have bound := leafWeight_lt inv.arena weights
  omega

theorem Merges.weight_parent : s.tmergeBody.weight s.nnode = s.weight a + s.weight b := by
  rw [State.weight, m.adds.nodeAt_new]
  exact BitVec.toNat_add_of_lt (m.weight_add_lt inv weights live)

theorem Merges.weightInv : WeightInv s.tmergeBody := by
  have noTree := inv.flags.noTree_of_live live
  have nodes {h : Handle} (mem : h = a ∨ h = b ∨ h ∈ others) : IsNode s h :=
    inv.isNode_of_inHeap (m.inHeap_iff_before.2 mem)
  have same := sameLeaves_adds inv.arena m.adds rfl
  have weight {h : Handle} (mem : h = a ∨ h = b ∨ h ∈ others) := weight_old m.adds (nodes mem)
  refine ⟨leafRange_of_sameLeaves weights same, innerSum_adds inv.arena weights m.adds ?_, fun _ => ?_, fun tree => ?_⟩
  · have realB : (parentNode s.node a b).right ≠ NIL := isNode_ne_nil (nodes (.inr (.inl rfl)))
    rw [if_neg realB, m.weight_parent inv weights live, ← weight (.inl rfl), ← weight (.inr (.inl rfl))]
    rfl
  · have sameOthers : others.map s.tmergeBody.weight = others.map s.weight :=
      List.map_congr_left fun h mem => weight (.inr (.inr mem))
    rw [heapWeight_eq_sum, (m.after.map _).sum_eq, List.map_cons, List.sum_cons, sameOthers,
      m.weight_parent inv weights live, leafWeight_congr same, m.leafWeight_eq weights live, Nat.add_assoc]
  · exact absurd (noTree.symm.trans tree) (by decide)

end

theorem weightInv_tmergeBody {s : State} (inv : ForestInv s) (weights : WeightInv s) (live : s.heapLive = true)
    (two : 2 ≤ s.heapn.toNat) : WeightInv s.tmergeBody := by
  obtain ⟨a, b, others, m⟩ := inv.merges live two
  exact m.weightInv inv weights live

/-! ### TFIN (R126, R127) -/

section
variable {s : State} (inv : ForestInv s) (live : s.heapLive = true) (one : s.heapn.toNat = 1)
include inv live one

omit inv in
theorem weight_lastHandle (weights : WeightInv s) : s.weight (s.heapAt 0) = leafWeight s := by
  rw [← weights.heapSum live, heapWeight_eq_sum, one]
  simp [slots, List.range_succ]
  rfl

/-- The nodes after TFIN: those of before, or one wrapper more. -/
theorem sameLeaves_tfinBody : SameLeaves s s.tfinBody := by
  cases leaf : (s.nodeAt (s.heapAt 0)).leaf
  · rw [tfinBody_of_inner leaf]
    exact fun _ _ => rfl
  · exact sameLeaves_adds inv.arena (inv.adds_wrapper live one leaf) rfl

theorem weightInv_tfinBody (weights : WeightInv s) : WeightInv s.tfinBody := by
  have same := sameLeaves_tfinBody inv live one
  have dead : s.tfinBody.heapLive = false := by rw [tfinBody_frame]
  have last := weight_lastHandle live one weights
  have sum := leafWeight_congr same
  refine ⟨leafRange_of_sameLeaves weights same, ?_, fun live' => absurd (dead.symm.trans live') (by decide),
    fun _ => ?_⟩
  all_goals cases leaf : (s.nodeAt (s.heapAt 0)).leaf
  · rw [tfinBody_of_inner leaf]
    exact weights.innerSum
  · have nodeR := inv.isNode_of_inHeap ⟨0, by omega, rfl⟩
    have adds := inv.adds_wrapper live one leaf
    refine innerSum_adds inv.arena weights adds ?_
    simp only [wrapperNode, if_true]
    rw [weight_old adds nodeR, State.weight, adds.nodeAt_new]
    rfl
  · rw [sum, ← last, tfinBody_of_inner leaf]
    rfl
  · have adds := inv.adds_wrapper live one leaf
    have root : s.tfinBody.root = s.nnode := by rw [tfinBody_of_leaf leaf]; rfl
    rw [sum, ← last, root, State.weight, adds.nodeAt_new]
    rfl

end

/-! ### TINIT (R124) -/

section
variable {ys : List Sym} {s : State} (leaves : Leaves ys s) (short : ys.length ≤ 256)
include leaves short

omit short in
theorem Leaves.leaf_iff {h : Handle} : (s.nodeAt h).leaf = true ↔ h.toNat < ys.length := by
  rcases Nat.lt_or_ge h.toNat ys.length with lt | ge
  · rw [leaves.nodeAt_of_lt lt]
    exact iff_of_true rfl lt
  · rw [leaves.nodeAt_of_ge ge]
    exact iff_of_false nofun (Nat.not_lt.2 ge)

theorem Leaves.leafWeight_eq : leafWeight s = (ys.map fun y => (s.freqAt y).toNat).sum := by
  rw [leafWeight_eq_sum (by omega) fun h => leaves.leaf_iff, List.map_map]
  refine congrArg List.sum (List.ext_getElem (by simp) fun i hi _ => ?_)
  rw [List.length_map, List.length_range] at hi
  have toNat : (BitVec.ofNat 9 i).toNat = i := (BitVec.toNat_ofNat _ _).trans (Nat.mod_eq_of_lt (by omega))
  have node := leaves.nodeAt_of_lt (h := BitVec.ofNat 9 i) (by rwa [toNat])
  simp only [toNat] at node
  simp only [List.getElem_map, List.getElem_range, Function.comp_apply, State.weight, node, leafNode]
  exact BitVec.toNat_setWidth_of_le (by decide)

theorem Leaves.weightInv (counts : ∀ y ∈ ys, s.freqAt y ≠ 0) (noTree : s.treeValid = false) : WeightInv s where
  leafRange := fun h leaf => by
    have lt := (leaves.leaf_iff).1 leaf
    have weight : s.weight h = (s.freqAt ys[h.toNat]).toNat := by
      rw [State.weight, leaves.nodeAt_of_lt lt]
      exact BitVec.toNat_setWidth_of_le (by decide)
    have pos := (freqAt_ne_zero_iff s _).1 (counts _ (List.getElem_mem lt))
    have small := (s.freqAt ys[h.toNat]).isLt
    omega
  innerSum := fun h node inner => by
    rw [leaves.leaf_of_isNode node] at inner
    cases inner
  heapSum := fun _ => by
    rw [heapWeight_eq_sum, (leaves.inHeap.map _).sum_eq, leafWeight_eq_sum (by omega) fun h => leaves.leaf_iff]
  rootSum := fun tree => absurd (noTree.symm.trans tree) (by decide)

end

theorem sum_present (s : State) : (s.present.map fun y => (s.freqAt y).toNat).sum = s.total := by
  have counted : s.present = allSymbols.filter ((fun n => n != 0) ∘ fun y => (s.freqAt y).toNat) :=
    List.filter_congr fun y _ => by
      rw [Bool.eq_iff_iff, bne_iff_ne, freqAt_ne_zero_iff, Function.comp_apply, bne_iff_ne]
  rw [counted, ← List.filter_map, List.sum_filter_bne_zero]
  rfl

theorem short_present (s : State) : s.present.length ≤ 256 := (length_present s).trans_le (nsym_le s)

theorem leafWeight_tinitBody (s : State) : leafWeight s.tinitBody = s.total := by
  rw [(leaves_tinitBody s).leafWeight_eq (short_present s)]
  simpa only [freqAt_tinitBody] using sum_present s

theorem weightInv_tinitBody (s : State) : WeightInv s.tinitBody := by
  refine (leaves_tinitBody s).weightInv (short_present s) (fun y mem => ?_) (by rw [tinitBody_frame])
  rw [freqAt_tinitBody]
  exact mem_present.1 mem

end Sys2Proof.Machine
end

section
/-! SUPPORT. The build commands (rules R124 to R128): what TINIT, TMERGE, TFIN and TBUILD leave, and TBUILD as the
stepwise build. -/

namespace Sys2Proof.Machine

/-! ### TINIT (R124) -/

theorem freqEmpty_of_count {s : State} (count : ∃ sym, s.freqAt sym ≠ 0) : s.freqEmpty = false := by
  rw [← Bool.not_eq_true, freqEmpty_iff, not_forall]
  exact count

@[simp] theorem weight_done (s : State) (h : Handle) : s.done.weight h = s.weight h := rfl

/-- Settles O35: the leaves TINIT makes are those of the present symbols, and the frame is TINIT's. -/
theorem tinitMakesOneLeafPerSymbol : Obligations.TinitMakesOneLeafPerSymbol := by
  intro s count
  have run : exec .tinit s = .next s.tinitBody.done := exec_of_succeeds (i := .tinit) (freqEmpty_of_count count)
  have leaves := leaves_tinitBody s
  have frame := tinitBody_frame s
  rw [(counts_tinitBody s).1, (counts_tinitBody s).2] at frame
  have heapn := heapn_tinitBody s
  have freq := freqAt_tinitBody s
  generalize s.tinitBody = t at *
  refine ⟨t.done, run, congrArg State.done frame, fun h => ?_, fun h => ?_,
    fun i past => leaves.rest i (heapn.trans_le past), leaves.order⟩
  · refine (leaves.node h).trans ?_
    simp only [freq]
    unfold State.present
    cases (allSymbols.filter fun y => s.freqAt y != 0)[h.toNat]? <;> rfl
  · rw [← length_present]
    exact leaves.inHeap_iff

/-! ### TMERGE (R125) -/

theorem less_of_le {t : Vector Node 511} {a b : Handle} (le : nodeKey t a ≤ nodeKey t b) (ne : a ≠ b) :
    less t a b = true :=
  less_iff_nodeKey_lt.2 (lt_of_le_of_ne le ((nodeKey_injective t).ne ne))

/-- Settles O37: the merge joins `a` and `b`, the least two of distinct handles, whose weights do not wrap. -/
theorem tmergeJoinsTheTwoLeast : Obligations.TmergeJoinsTheTwoLeast := by
  intro s live two
  refine ⟨s.tmergeBody.done, exec_of_succeeds (i := .tmerge) ⟨live, two⟩, ?_, fun build weights => ?_⟩
  · have frame := tmergeBody_eq s
    generalize s.tmergeBody = t at frame ⊢
    exact congrArg State.done frame
  · have inv := build.forest
    obtain ⟨a, b, others, m⟩ := inv.merges live two
    obtain ⟨ab, aOthers, bOthers⟩ := m.nodup (heapDistinct_iff.1 inv.arena.heapDistinct)
    have noWrap := m.weight_add_lt inv weights live
    have parent : parentNode s.node a b = ⟨false, 0, BitVec.ofNat 40 (s.weight a + s.weight b), a, b⟩ := by
      rw [BitVec.ofNat_add, State.weight, State.weight, BitVec.ofNat_toNat, BitVec.ofNat_toNat, BitVec.setWidth_eq,
        BitVec.setWidth_eq]
      rfl
    refine ⟨a, b, m.inHeap_iff_before.2 (.inl rfl), m.inHeap_iff_before.2 (.inr (.inl rfl)),
      less_of_le (m.least b List.mem_cons_self) ab, fun c inHeap notA notB => ?_, parent ▸ m.adds.nodeAt_new, noWrap,
      fun h old => m.adds.nodeAt_of_ne old, fun c => ?_⟩
    · have other : c ∈ others := ((m.inHeap_iff_before.1 inHeap).resolve_left notA).resolve_left notB
      exact less_of_le (m.second c other) (Ne.symm notB)
    · refine m.inHeap_iff_after.trans (or_congr_right ?_)
      rw [m.inHeap_iff_before]
      constructor
      · exact fun other => ⟨.inr (.inr other), by rintro rfl; exact aOthers other, by rintro rfl; exact bOthers other⟩
      · rintro ⟨rfl | rfl | other, notA, notB⟩
        · exact absurd rfl notA
        · exact absurd rfl notB
        · exact other

/-! ### TFIN (R126, R127) -/

/-- Settles O38: the two branches of TFIN's body, on the handle at position 0. -/
theorem tfinMakesTheRoot : Obligations.TfinMakesTheRoot := by
  intro s live one
  have oneNat : s.heapn.toNat = 1 := by rw [one]; rfl
  refine ⟨s.tfinBody.done, exec_of_succeeds (i := .tfin) ⟨live, oneNat⟩, fun i => heapAt_tfinBody oneNat i,
    fun inner => ?_, fun leaf => ⟨?_, fun room => ?_, fun h old => ?_⟩⟩
  · rw [tfinBody_of_inner inner, State.heapExtractMin, one]
    rfl
  · rw [tfinBody_of_leaf leaf, State.heapExtractMin, one]
    rfl
  · rw [tfinBody_of_leaf leaf]
    exact (adds_newNode (s := s.heapExtractMin.2) room _).nodeAt_new
  · rw [tfinBody_of_leaf leaf]
    change nodeAt (tableSet s.node s.nnode.toNat _) h = nodeAt s.node h
    rw [nodeAt_tableSet, if_neg fun same => old (BitVec.eq_of_toNat_eq same.1.symm)]

/-! ### TBUILD as the stepwise build (R128) -/

theorem done_of_result {s : State} (ok : s.result = 0) : s.done = s := by
  rw [State.done, ← ok]

theorem tmergeBody_done (s : State) : s.done.tmergeBody = s.tmergeBody.done := rfl

theorem mergeAll_done (fuel : Nat) (s : State) : s.done.mergeAll fuel = (s.mergeAll fuel).done := by
  induction fuel generalizing s with
  | zero => rfl
  | succ fuel ih =>
    unfold State.mergeAll
    rw [done_heapn, tmergeBody_done, ih]
    split <;> rfl

theorem tfinBody_done (s : State) : s.done.tfinBody = s.tfinBody.done := by
  cases leaf : (s.nodeAt (s.heapAt 0)).leaf
  · rw [tfinBody_of_inner leaf, tfinBody_of_inner (s := s.done) leaf]
    rfl
  · rw [tfinBody_of_leaf leaf, tfinBody_of_leaf (s := s.done) leaf]
    rfl

/-- Each TMERGE of the stepwise build is a round of TBUILD's loop. -/
theorem runOk_merges {k : Nat} {s t : State} {is : List Instr} (live : s.heapLive = true)
    (count : s.heapn.toNat = k + 1) (ok : s.result = 0) :
    runOk (List.replicate k .tmerge ++ is) s = some t ↔ runOk is (s.mergeAll (k + 1)) = some t := by
  induction k generalizing s with
  | zero =>
    have stop : s.mergeAll 1 = s := if_neg (by omega)
    rw [stop]
    rfl
  | succ k ih =>
    have go : s.mergeAll (k + 1 + 1) = s.tmergeBody.mergeAll (k + 1) := if_pos (by omega)
    have heapn := heapn_tmergeBody_toNat s (by omega)
    have merged : effect .tmerge s = s.tmergeBody := done_of_result (by rw [tmergeBody_eq, ok])
    have succeeds : Succeeds .tmerge s := ⟨live, by omega⟩
    rw [go, List.replicate_succ, List.cons_append, runOk_cons_eq_some, merged,
      ih (by rw [tmergeBody_eq, live]) (by omega) (by rw [tmergeBody_eq, ok])]
    exact and_iff_right succeeds

/-- Settles O39: TINIT leaves NSYM handles, one merge after another leaves one, and TFIN ends both builds. -/
theorem tbuildEqualsTheStepwiseBuild : Obligations.TbuildEqualsTheStepwiseBuild := by
  intro s count
  have nonEmpty := freqEmpty_of_count count
  have heapn := heapn_tinitBody s
  have pos : s.nsym ≠ 0 := fun zero => by rw [(nsym_eq_zero s).1 zero] at nonEmpty; cases nonEmpty
  have live : s.tinitBody.heapLive = true := by rw [tinitBody_frame]
  have one : (s.tinitBody.mergeAll s.nsym).heapn.toNat = 1 := heapn_mergeAll _ _ (by omega) (by omega)
  have liveMerged := (mergeAll_induction (P := fun _ => True) (fun _ _ _ _ => trivial) s.nsym trivial live).2
  refine ⟨s.tbuildBody.done, exec_tbuild_of_count count, rfl, ?_⟩
  have merges := runOk_merges (k := s.nsym - 1) (s := s.tinitBody.done) (t := s.tbuildBody.done) (is := [.tfin])
    (by rw [done_heapLive, live]) (by rw [done_heapn]; omega) (done_result _)
  have finished : effect .tfin (s.tinitBody.mergeAll s.nsym).done = s.tbuildBody.done := by
    rw [State.tbuildBody, heapn, effect, tfinBody_done]
    rfl
  rw [List.append_assoc, List.singleton_append, runOk_cons_eq_some]
  refine ⟨nonEmpty, merges.2 ?_⟩
  rw [Nat.sub_add_cancel (by omega), mergeAll_done, runOk_cons_eq_some, finished]
  exact ⟨⟨liveMerged, one⟩, rfl⟩

/-! ### The finished tree (R128, R130, R132) -/

/-- Before TFIN in TBUILD: the forest over NSYM leaves, which are TINIT's. -/
structure BuiltUpTo (s u : State) : Prop where
  inv : ForestInv u
  weights : WeightInv u
  sameLeaves : SameLeaves s.tinitBody u
  counts : u.nnode.toNat + u.heapn.toNat = 2 * s.nsym

theorem builtUpTo_tinitBody {s : State} (count : s.freqEmpty = false) : BuiltUpTo s s.tinitBody where
  inv := forestInv_tinitBody count
  weights := weightInv_tinitBody s
  sameLeaves := .refl _
  counts := by
    have leaves := leaves_tinitBody s
    rw [leaves.nnode, leaves.heapn, length_present]
    omega

theorem BuiltUpTo.tmergeBody {s u : State} (h : BuiltUpTo s u) (live : u.heapLive = true) (two : 2 ≤ u.heapn.toNat) :
    BuiltUpTo s u.tmergeBody := by
  obtain ⟨a, b, others, m⟩ := h.inv.merges live two
  have counts := h.counts
  have nnode := m.adds.toNat_nnode
  have heapn := heapn_tmergeBody_toNat u two
  exact ⟨m.forest h.inv live two, m.weightInv h.inv h.weights live,
    h.sameLeaves.trans (sameLeaves_adds h.inv.arena m.adds rfl), by omega⟩

theorem exists_builtUpTo {s : State} (count : s.freqEmpty = false) :
    ∃ u, BuiltUpTo s u ∧ u.heapLive = true ∧ u.heapn.toNat = 1 ∧ s.tbuildBody = u.tfinBody :=
  tbuildBody_induction count (builtUpTo_tinitBody count) fun _ => BuiltUpTo.tmergeBody

theorem weightInv_tbuildBody {s : State} (count : s.freqEmpty = false) : WeightInv s.tbuildBody := by
  obtain ⟨u, built, live, one, same⟩ := exists_builtUpTo count
  rw [same]
  exact weightInv_tfinBody built.inv live one built.weights

/-- TFIN wraps a leaf exactly when there is one symbol. -/
theorem BuiltUpTo.leaf_iff {s u : State} (h : BuiltUpTo s u) (live : u.heapLive = true) (one : u.heapn.toNat = 1) :
    (u.nodeAt (u.heapAt 0)).leaf = true ↔ s.nsym = 1 := by
  obtain ⟨l, -, le, leaves, counts, -⟩ := h.inv.arena.leaves
  have last := h.inv.toNat_lastHandle live one
  have sum := h.counts
  have counts := counts live
  rw [leaves _ (h.inv.isNode_of_inHeap ⟨0, by omega, rfl⟩)]
  omega

theorem heap_tbuildBody {s : State} (count : s.freqEmpty = false) : s.tbuildBody.heap = Vector.replicate 256 NIL := by
  obtain ⟨u, built, live, one, same⟩ := exists_builtUpTo count
  rw [same]
  refine table_ext NIL fun i _ => ?_
  rw [tableGet_replicate]
  exact built.inv.heapRest_tfinBody one i

/-- Settles O40: the last handle made is the root, TFIN adds a wrapper only over one symbol, and the root weighs what
the leaves weigh. -/
theorem tbuildShape : Obligations.TbuildShape := by
  intro s count
  have nonEmpty := freqEmpty_of_count count
  obtain ⟨u, built, live, one, same⟩ := exists_builtUpTo nonEmpty
  have inv := built.inv
  have last := inv.toNat_lastHandle live one
  have sum := built.counts
  have leafIff := built.leaf_iff live one
  refine ⟨s.tbuildBody.done, exec_tbuild_of_count count, ?_, fun two => ?_, fun single => ?_, ?_⟩
  · simp only [done_node, done_nnode, done_root]
    rw [← heap_tbuildBody nonEmpty]
    have frame := tbuildBody_frame s
    rw [heapn_tbuildBody s nonEmpty] at frame
    generalize s.tbuildBody = t at frame ⊢
    exact congrArg State.done frame
  · have inner : (u.nodeAt (u.heapAt 0)).leaf = false := by
      rw [← Bool.not_eq_true, leafIff]
      omega
    rw [done_nnode, done_root, same, tfinBody_of_inner inner, setTree_nnode, setTree_root, heapExtractMin_nnode]
    omega
  · have nnode : u.nnode = 1 := BitVec.eq_of_toNat_eq (show u.nnode.toNat = 1 by omega)
    rw [done_nnode, done_root, same, tfinBody_of_leaf (leafIff.2 single), setTree_nnode, setTree_root, newNode_nnode,
      heapExtractMin_nnode, nnode]
    exact ⟨rfl, rfl⟩
  · have tree : s.tbuildBody.treeValid = true := by rw [tbuildBody_frame]
    have root := (weightInv_tbuildBody nonEmpty).rootSum tree
    have leaves := built.sameLeaves.trans (sameLeaves_tfinBody inv live one)
    rw [← same] at leaves
    rw [leafWeight_congr leaves, leafWeight_tinitBody] at root
    rw [done_root, weight_done, root]

end Sys2Proof.Machine
end

section
/-! SUPPORT. What every step keeps (rules R48, R130, R131, R195): the induction over the inputs of a step, once for the
part of the state that only build commands, CGEN and reset write, and the invariants of that part. -/

namespace Sys2Proof.Machine

/-! ### The structures of a build and the code table -/

/-- The flags, ROOT, the arena, the heap and CODE: what only a build command, CGEN or a reset writes. -/
def State.structures (s : State) : State :=
  { State.reset with
    node := s.node, heap := s.heap, nnode := s.nnode, heapn := s.heapn, root := s.root, treeValid := s.treeValid,
    codeValid := s.codeValid, heapLive := s.heapLive, code := s.code }

/-- `P` is a property of the structures that holds at reset and is kept by each command that writes them. TBUILD is
left out: it is TINIT, merges and TFIN. -/
structure KeptByBuild (P : State → Prop) : Prop where
  structural : ∀ s, P s ↔ P s.structures
  reset : P State.reset
  tinit : ∀ s, P s → s.freqEmpty = false → P s.tinitBody
  tmerge : ∀ s, P s → s.heapLive = true → 2 ≤ s.heapn.toNat → P s.tmergeBody
  tfin : ∀ s, P s → s.heapLive = true → s.heapn.toNat = 1 → P s.tfinBody
  cgen : ∀ s, P s → s.treeValid = true → (s.nodeAt s.root).leaf = false → P s.fillCode

namespace KeptByBuild
variable {P : State → Prop} (kept : KeptByBuild P)
include kept

theorem of_structures_eq {s t : State} (hs : P s) (same : t.structures = s.structures) : P t := by
  rw [kept.structural, same, ← kept.structural]
  exact hs

theorem tbuild {s : State} (hs : P s) (count : s.freqEmpty = false) : P s.tbuildBody := by
  obtain ⟨u, hu, live, one, same⟩ := tbuildBody_induction count (kept.tinit s hs count) kept.tmerge
  rw [same]
  exact kept.tfin u hu live one

theorem effect {i : Instr} {s : State} (hs : P s) (succeeds : Succeeds i s) : P (effect i s) := by
  have done {t : State} (ht : P t) : P t.done := kept.of_structures_eq ht rfl
  cases i with
  | tinit => exact done (kept.tinit s hs succeeds)
  | tmerge => exact done (kept.tmerge s hs succeeds.1 succeeds.2)
  | tfin => exact done (kept.tfin s hs succeeds.1 succeeds.2)
  | tbuild => exact done (kept.tbuild hs succeeds)
  | cgen => exact done (kept.cgen s hs succeeds.1 succeeds.2)
  | srst => exact kept.of_structures_eq kept.reset rfl
  | pput n => exact kept.of_structures_eq hs (by rw [Machine.effect, putBits_frame]; rfl)
  | psym sym => exact kept.of_structures_eq hs (by rw [Machine.effect, putBits_frame]; rfl)
  | usym => exact kept.of_structures_eq hs (by simp only [Machine.effect]; split <;> rfl)
  | _ => exact kept.of_structures_eq hs rfl

theorem runWord {w : Word} {s t : State} (hs : P s) (run : runWord w s = .next t) : P t := by
  rcases runWord_next run with ⟨i, -, succeeds, rfl⟩ | ⟨e, -, rfl⟩
  · exact kept.effect hs succeeds
  · exact kept.of_structures_eq hs rfl

theorem served {u t : State} {x : HostInput} (hu : P u) (h : Served u x t) : P t := by
  cases h with
  | reset => exact kept.of_structures_eq kept.reset rfl
  | command v t run => exact kept.of_structures_eq (kept.runWord hu run) rfl
  | writePay addr v a _ => exact kept.of_structures_eq hu (by rw [writePay_frame]; rfl)
  | _ => exact kept.of_structures_eq hu rfl

theorem step {s t : State} (hs : P s) (stepped : step s = .next t) : P t := by
  rcases step_cases stepped with ⟨-, rfl⟩ | ⟨x, rest, -, served⟩
  · exact hs
  · exact kept.served (u := { s with bus := rest }) (kept.of_structures_eq hs rfl) served

end KeptByBuild

/-! ### The flags (R195) -/

theorem flagInv_iff_structures (s : State) : FlagInv s ↔ FlagInv s.structures :=
  ⟨fun h => ⟨h.heapDead, h.heapAlive, h.heapnLe, h.noTree, h.codeNeedsTree, h.nothingBuilt⟩,
    fun h => ⟨h.heapDead, h.heapAlive, h.heapnLe, h.noTree, h.codeNeedsTree, h.nothingBuilt⟩⟩

theorem flagInv_reset : FlagInv State.reset := flagInv_clear rfl rfl rfl rfl rfl

theorem flagInv_fillCode {s : State} (flags : FlagInv s) (tree : s.treeValid = true) : FlagInv s.fillCode :=
  ⟨flags.heapDead, flags.heapAlive, flags.heapnLe, flags.noTree, fun _ => tree, flags.nothingBuilt⟩

theorem flagInv_kept : KeptByBuild FlagInv where
  structural := flagInv_iff_structures
  reset := flagInv_reset
  tinit := fun _ _ count => flagInv_tinitBody count
  tmerge := fun _ flags live two => flagInv_tmergeBody flags live two
  tfin := fun _ _ _ one => flagInv_tfinBody one
  cgen := fun _ flags tree _ => flagInv_fillCode flags tree

/-- Settles O57: each build command's flags, ROOT and HEAPN are read off its body. -/
theorem stepKeepsFlagInvariant : Obligations.StepKeepsFlagInvariant := fun _ _ => flagInv_kept.step

/-! ### The forest and the heap (R44, R45, R131) -/

/-- No node and an empty heap are a forest. -/
theorem arenaInv_clear {s : State} (nnode : s.nnode.toNat = 0) (heapn : s.heapn.toNat = 0)
    (heap : ∀ i, s.heapAt i = NIL) (nodes : ∀ h, s.nodeAt h = Node.empty) (noTree : s.treeValid = false) :
    ArenaInv s := by
  have noNode (h : Handle) : ¬IsNode s h := fun node => by
    rw [IsNode, nnode] at node
    exact Nat.not_lt_zero _ node
  exact ⟨fun i lt => by omega, fun i _ => heap i, fun i j lt => by omega, fun h _ => nodes h,
    fun h node => absurd node (noNode h), fun h node => absurd node (noNode h),
    fun g h _ node => absurd node (noNode h), fun p q c child => absurd child.1 (noNode p),
    fun h node => absurd node (noNode h), fun tree => absurd (noTree.symm.trans tree) (by decide),
    0, by decide, Nat.zero_le _, fun h node => absurd node (noNode h), fun _ => by omega,
    fun tree => absurd (noTree.symm.trans tree) (by decide)⟩

theorem heapOrder_clear {s : State} (heapn : s.heapn.toNat = 0) : HeapOrder s := fun i _ lt => by omega

theorem arenaInv_iff_structures (s : State) : ArenaInv s ↔ ArenaInv s.structures :=
  ⟨fun h => ⟨h.heapSlots, h.heapRest, h.heapDistinct, h.emptyRest, h.leafLinks, h.innerLinks, h.leavesFirst,
      h.oneParent, h.topIffNoParent, h.rootIsInner, h.leaves⟩,
    fun h => ⟨h.heapSlots, h.heapRest, h.heapDistinct, h.emptyRest, h.leafLinks, h.innerLinks, h.leavesFirst,
      h.oneParent, h.topIffNoParent, h.rootIsInner, h.leaves⟩⟩

theorem forestInv_iff_structures (s : State) : ForestInv s ↔ ForestInv s.structures :=
  ⟨fun h => ⟨(flagInv_iff_structures s).1 h.flags, (arenaInv_iff_structures s).1 h.arena, h.order⟩,
    fun h => ⟨(flagInv_iff_structures s).2 h.flags, (arenaInv_iff_structures s).2 h.arena, h.order⟩⟩

theorem forestInv_reset : ForestInv State.reset :=
  ⟨flagInv_reset, arenaInv_clear rfl rfl heapAt_reset nodeAt_reset rfl, heapOrder_clear rfl⟩

theorem forestInv_fillCode {s : State} (inv : ForestInv s) (tree : s.treeValid = true) : ForestInv s.fillCode := by
  obtain ⟨flags, h, order⟩ := inv
  exact ⟨flagInv_fillCode flags tree, ⟨h.heapSlots, h.heapRest, h.heapDistinct, h.emptyRest, h.leafLinks, h.innerLinks,
    h.leavesFirst, h.oneParent, h.topIffNoParent, h.rootIsInner, h.leaves⟩, order⟩

theorem forestInv_kept : KeptByBuild ForestInv where
  structural := forestInv_iff_structures
  reset := forestInv_reset
  tinit := fun _ _ count => forestInv_tinitBody count
  tmerge := fun _ inv live two => forestInv_tmergeBody inv live two
  tfin := fun _ inv live one => forestInv_tfinBody inv live one
  cgen := fun _ inv tree _ => forestInv_fillCode inv tree

/-- Settles O58: each build command keeps the forest, and no other input writes the arena or the heap. -/
theorem stepKeepsForestAndHeap : Obligations.StepKeepsForestAndHeap := by
  intro s t build stepped
  obtain ⟨-, arena, order⟩ := forestInv_kept.step build.forest stepped
  exact ⟨arena, order⟩

/-! ### The weights (R130) -/

theorem weightInv_iff_structures (s : State) : WeightInv s ↔ WeightInv s.structures :=
  ⟨fun h => ⟨h.leafRange, h.innerSum, h.heapSum, h.rootSum⟩, fun h => ⟨h.leafRange, h.innerSum, h.heapSum, h.rootSum⟩⟩

theorem weightInv_reset : WeightInv State.reset where
  leafRange := fun h leaf => by
    rw [nodeAt_reset] at leaf
    cases leaf
  innerSum := fun h node => absurd node (Nat.not_lt_zero _)
  heapSum := nofun
  rootSum := nofun

theorem weightInv_kept : KeptByBuild fun s => ForestInv s ∧ WeightInv s where
  structural := fun s => and_congr (forestInv_iff_structures s) (weightInv_iff_structures s)
  reset := ⟨forestInv_reset, weightInv_reset⟩
  tinit := fun s _ count => ⟨forestInv_tinitBody count, weightInv_tinitBody s⟩
  tmerge := fun _ ⟨inv, weights⟩ live two =>
    ⟨forestInv_tmergeBody inv live two, weightInv_tmergeBody inv weights live two⟩
  tfin := fun _ ⟨inv, weights⟩ live one => ⟨forestInv_tfinBody inv live one, weightInv_tfinBody inv live one weights⟩
  cgen := fun _ ⟨inv, h⟩ tree _ =>
    ⟨forestInv_fillCode inv tree, ⟨h.leafRange, h.innerSum, h.heapSum, h.rootSum⟩⟩

/-- Settles O59: each build command keeps the weights exact on a forest. -/
theorem stepKeepsWeights : Obligations.StepKeepsWeights := fun _ _ build weights stepped =>
  (weightInv_kept.step ⟨build.forest, weights⟩ stepped).2

/-! ### Registers and PAY (R34, R47, R48, R191) -/

theorem code_mem_resultCodes {e : CmdError} (h : e.Raisable) : e.code ∈ resultCodes := by
  obtain ⟨notEmptyInput, notCorruptHeader⟩ := h
  cases e with
  | emptyInput => exact absurd rfl notEmptyInput
  | corruptHeader => exact absurd rfl notCorruptHeader
  | _ => decide

theorem mem_putbit_pay {s : State} {b : Bool} {c : Host.Cell} (mem : c ∈ (s.putbit b).pay) :
    c.1 = s.bitcnt.toNat / 8 ∨ c ∈ s.pay := mem_setPayByte mem

/-- The loop of the packer stays inside PAY where its bits fit. -/
theorem payRange_putBits {f : Nat → Bool} {n : Nat} {s : State} (range : ∀ c ∈ s.pay, c.1 < s.cfg.payCap)
    (legal : s.cfg.legal = true) (fits : s.bitcnt.toNat + n ≤ s.capBits) :
    ∀ c ∈ (s.putBits f n).pay, c.1 < s.cfg.payCap := by
  induction n generalizing s with
  | zero => exact range
  | succ n ih =>
    have cap := capBits_le_of_legal legal
    have bitcnt := bitcnt_putbit s (f n) (by omega)
    have bytes : s.bitcnt.toNat / 8 < s.cfg.payCap := by
      rw [State.capBits] at fits
      omega
    refine ih (s := s.putbit (f n)) (fun c mem => ?_) legal ?_
    · rcases mem_putbit_pay mem with new | old
      · exact new.trans_lt bytes
      · exact range c old
    · rw [bitcnt]
      exact (Nat.add_right_comm _ _ _).trans_le fits

/-- The walk reads at most the bits it is given. -/
theorem walk_position {s : State} {rem p q : Nat} {h f : Handle} (ends : s.walk rem p h = .leaf f q) :
    p < q ∧ q ≤ p + rem := by
  induction rem generalizing p h with
  | zero => cases ends
  | succ rem ih =>
    unfold State.walk at ends
    simp only at ends
    split at ends
    · cases ends
    · split at ends
      · cases ends
        omega
      · have := ih ends
        omega

theorem reserved_zero : (0 : Word) &&& ~~~errsMask = 0 := by decide

theorem zero_mem_resultCodes : (0 : BitVec 8) ∈ resultCodes := by decide

namespace RegInv
variable {s : State} (inv : RegInv s)
include inv

/-- Writing only what `RegInv` does not speak of keeps it. -/
theorem congr {t : State} (cfg : t.cfg = s.cfg) (rdpos : t.rdpos = s.rdpos) (bitcnt : t.bitcnt = s.bitcnt)
    (errs : t.errs = s.errs) (result : t.result = s.result) (pay : t.pay = s.pay) : RegInv t := by
  obtain ⟨legal, read, le, reserved, code, wf, range⟩ := inv
  constructor
  all_goals simp only [State.capBits, cfg, rdpos, bitcnt, errs, result, pay]
  all_goals assumption

theorem done : RegInv s.done :=
  ⟨inv.cfgLegal, inv.rdposLe, inv.bitcntLe, inv.errsReserved, zero_mem_resultCodes, inv.payWf, inv.payRange⟩

theorem raise {e : CmdError} (raisable : e.Raisable) : RegInv (s.raise e) :=
  ⟨inv.cfgLegal, inv.rdposLe, inv.bitcntLe,
    (or_and_eq_zero s.errs e.bit _).2 ⟨inv.errsReserved, bit_and_reserved raisable⟩, code_mem_resultCodes raisable,
    inv.payWf, inv.payRange⟩

theorem respond (r : Response) : RegInv (s.respond r) := inv.congr rfl rfl rfl rfl rfl rfl

/-- A position of RDPOS between 0 and BITCNT. -/
theorem setRdpos {p : Word} (le : p.toNat ≤ s.bitcnt.toNat) (d : Word) : RegInv { s with data := d, rdpos := p } :=
  ⟨inv.cfgLegal, le, inv.bitcntLe, inv.errsReserved, inv.resultLegal, inv.payWf, inv.payRange⟩

theorem rewind {v : Word} (le : v.toNat ≤ s.capBits) : RegInv { s with bitcnt := v, rdpos := 0 } :=
  ⟨inv.cfgLegal, Nat.zero_le _, le, inv.errsReserved, inv.resultLegal, inv.payWf, inv.payRange⟩

theorem append {p : List Host.Cell} {c : Word} (grown : s.bitcnt.toNat ≤ c.toNat) (le : c.toNat ≤ s.capBits)
    (wf : Memory.wf p) (range : ∀ c ∈ p, c.1 < s.cfg.payCap) : RegInv { s with pay := p, bitcnt := c } :=
  ⟨inv.cfgLegal, inv.rdposLe.trans grown, le, inv.errsReserved, inv.resultLegal, wf, range⟩

theorem putBits (f : Nat → Bool) {n : Nat} (room : s.overflows n = false) : RegInv (s.putBits f n) := by
  have fits := (overflows_eq_false_iff s n).1 room
  have bitcnt := bitcnt_putBits f n s (fits.trans (capBits_le_of_legal inv.cfgLegal))
  rw [putBits_frame]
  exact inv.append (bitcnt ▸ Nat.le_add_right _ _) (bitcnt.trans_le fits) (putBits_wf f n s inv.payWf)
    (payRange_putBits inv.payRange inv.cfgLegal fits)

theorem writePay {a : Nat} (aligned : a % 4 = 0) (inside : a < s.cfg.payCap) (v : Word) : RegInv (s.writePay a v) := by
  have legal := inv.cfgLegal
  simp only [Config.legal, Bool.and_eq_true, beq_iff_eq, decide_eq_true_eq] at legal
  obtain ⟨⟨capAligned, -⟩, -⟩ := legal
  refine ⟨by rw [writePay_cfg]; exact inv.cfgLegal, by rw [writePay_rdpos, writePay_bitcnt]; exact inv.rdposLe, ?_,
    by rw [writePay_errs]; exact inv.errsReserved, by rw [writePay_result]; exact inv.resultLegal,
    writePay_wf s a v inv.payWf, fun c mem => ?_⟩
  · rw [writePay_bitcnt, State.capBits, writePay_cfg]
    exact inv.bitcntLe
  · rw [writePay_cfg]
    rcases mem_setPayByte mem with third | mem
    · omega
    rcases mem_setPayByte mem with second | mem
    · omega
    rcases mem_setPayByte mem with first | mem
    · omega
    rcases mem_setPayByte mem with zeroth | mem
    · omega
    exact inv.payRange c mem

theorem effect {i : Instr} (succeeds : Succeeds i s) : RegInv (effect i s) := by
  cases i with
  | tinit => exact RegInv.done (inv.congr (by rw [tinitBody_frame]) (by rw [tinitBody_frame])
      (by rw [tinitBody_frame]) (by rw [tinitBody_frame]) (by rw [tinitBody_frame]) (by rw [tinitBody_frame]))
  | tmerge => exact RegInv.done (inv.congr (by rw [tmergeBody_eq]) (by rw [tmergeBody_eq])
      (by rw [tmergeBody_eq]) (by rw [tmergeBody_eq]) (by rw [tmergeBody_eq]) (by rw [tmergeBody_eq]))
  | tfin => exact RegInv.done (inv.congr (by rw [tfinBody_frame]) (by rw [tfinBody_frame])
      (by rw [tfinBody_frame]) (by rw [tfinBody_frame]) (by rw [tfinBody_frame]) (by rw [tfinBody_frame]))
  | tbuild => exact RegInv.done (inv.congr (by rw [tbuildBody_frame]) (by rw [tbuildBody_frame])
      (by rw [tbuildBody_frame]) (by rw [tbuildBody_frame]) (by rw [tbuildBody_frame]) (by rw [tbuildBody_frame]))
  | prst => exact (inv.rewind (Nat.zero_le _)).done
  | urst => exact (inv.setRdpos (p := 0) (Nat.zero_le _) s.data).done
  | pput n => exact (inv.putBits _ succeeds).done
  | psym sym => exact (inv.putBits _ succeeds.2.2).done
  | uget n =>
    have rdpos := toNat_rdpos_uget succeeds
    exact (inv.setRdpos (rdpos.trans_le succeeds) _).done
  | usym =>
    obtain ⟨-, -, notStuck⟩ := succeeds
    simp only [Machine.effect]
    split
    · next stuck => exact absurd stuck notStuck
    · next h p ends =>
      have position := walk_position ends
      have read := inv.rdposLe
      refine (inv.setRdpos ?_ _).done
      rw [BitVec.toNat_ofNat, Nat.mod_eq_of_lt (by omega)]
      omega
  | srst =>
    exact ⟨inv.cfgLegal, Nat.zero_le _, Nat.zero_le _, reserved_zero, zero_mem_resultCodes, inv.payWf, inv.payRange⟩
  | _ => exact RegInv.done (inv.congr rfl rfl rfl rfl rfl rfl)

theorem hardReset : RegInv s.hardReset :=
  ⟨inv.cfgLegal, Nat.zero_le _, Nat.zero_le _, reserved_zero, zero_mem_resultCodes, wf_nil, nofun⟩

theorem runWord {w : Word} {t : State} (run : runWord w s = .next t) : RegInv t := by
  rcases runWord_next run with ⟨i, -, succeeds, rfl⟩ | ⟨e, raisable, rfl⟩
  · exact inv.effect succeeds
  · exact inv.raise raisable

theorem served {x : HostInput} {t : State} (h : Served s x t) : RegInv t := by
  cases h with
  | reset => exact inv.hardReset
  | read addr => exact inv.respond _
  | refusedWrite addr v => exact inv.respond _
  | command v t run => exact (inv.runWord run).respond _
  | writeArg v => exact (inv.congr (t := { s with arg := v }) rfl rfl rfl rfl rfl rfl).respond _
  | writeErrs v =>
    refine RegInv.respond (s := { s with errs := s.errs &&& ~~~v }) ⟨inv.cfgLegal, inv.rdposLe, inv.bitcntLe, ?_,
      inv.resultLegal, inv.payWf, inv.payRange⟩ _
    rw [BitVec.and_assoc, BitVec.and_comm (~~~v), ← BitVec.and_assoc, inv.errsReserved]
    exact BitVec.zero_and
  | writeBitcnt v le => exact (inv.rewind le).respond _
  | writeFreq addr v i _ =>
    exact (inv.congr (t := { s with freq := tableSet s.freq i v }) rfl rfl rfl rfl rfl rfl).respond _
  | writePay addr v a place =>
    obtain ⟨-, aligned, inside⟩ := placeOf_pay place
    exact (inv.writePay aligned inside v).respond _

end RegInv

/-- Settles O56: every input a step can serve keeps each clause. -/
theorem stepKeepsRegisterInvariant : Obligations.StepKeepsRegisterInvariant := by
  intro s t inv stepped
  rcases step_cases stepped with ⟨-, rfl⟩ | ⟨x, rest, -, served⟩
  · exact inv
  · exact RegInv.served (s := { s with bus := rest }) (inv.congr rfl rfl rfl rfl rfl rfl) served

/-! ### Reset (R48, R50) -/

theorem regInv_reset : RegInv State.reset :=
  ⟨by decide, by decide, by decide, by decide, by decide, wf_nil, nofun⟩

theorem codeInv_of_absent {s : State} (noCode : s.codeValid = false) (absent : ∀ sym, s.codeAt sym = CodeEntry.absent) :
    CodeInv s where
  form := ⟨fun sym _ => absent sym, fun sym => by
    rw [State.codeLen, absent]
    decide⟩
  isTable := fun code => absurd (noCode.symm.trans code) (by decide)

/-- Settles O55: after reset there is neither a node nor a code. -/
theorem invariantsHoldAtReset : Obligations.InvariantsHoldAtReset :=
  ⟨⟨regInv_reset, flagInv_reset, forestInv_reset.arena, forestInv_reset.order⟩, weightInv_reset,
    codeInv_of_absent rfl codeAt_reset⟩

end Sys2Proof.Machine
end

section
/-! SUPPORT. The code table (rules R140 to R143): a path of the finished tree is a code of at most 255 bits, CGEN's
traversal reaches every leaf within its 511 pops, and what it records spells the path. -/

namespace Sys2Proof.Machine

/-! ### Paths (R140) -/

/-- `c` is reached from the internal node `p` by one bit. -/
def IsLink (t : Vector Node 511) (p c : Handle) : Prop :=
  (nodeAt t p).leaf = false ∧ c ≠ NIL ∧ ∃ b, (nodeAt t p).child b = c

/-- `f` is reached from `h` by some path. -/
def Reaches (t : Vector Node 511) : Handle → Handle → Prop := Relation.ReflTransGen (IsLink t)

theorem reaches_of_descends {t : Vector Node 511} {h f : Handle} {bs : List Bool} (path : Descends t h bs f) :
    Reaches t h f := by
  induction path with
  | here h => exact .refl
  | down h f b bs inner real rest ih => exact .head ⟨inner, real, b, rfl⟩ ih

theorem exists_descends_of_reaches {t : Vector Node 511} {h f : Handle} (reaches : Reaches t h f) :
    ∃ bs, Descends t h bs f := by
  induction reaches using Relation.ReflTransGen.head_induction_on with
  | refl => exact ⟨[], .here f⟩
  | head link _ ih =>
    obtain ⟨inner, real, b, rfl⟩ := link
    obtain ⟨bs, path⟩ := ih
    exact ⟨b :: bs, .down _ _ b bs inner real path⟩

/-- A path that starts with another to a leaf is that path: no code begins with another (R143). -/
theorem descends_unique {t : Vector Node 511} {h f g : Handle} {bs cs : List Bool} (pathF : Descends t h bs f)
    (leafF : (nodeAt t f).leaf = true) (pathG : Descends t h (bs ++ cs) g) : f = g := by
  induction pathF with
  | here h =>
    cases pathG with
    | here => rfl
    | down _ _ b bs inner => exact absurd (inner.symm.trans leafF) (by decide)
  | down h f b bs inner real rest ih =>
    cases pathG with
    | down _ _ _ _ _ _ rest' => exact ih leafF rest'

/-! ### The bits that spell a path (R46, R142) -/

/-- The bits gathered along a path, the last one lowest. -/
def pathBits (bs : List Bool) : CodeBits := bs.foldl (fun c b => if b then c <<< 1 ||| 1 else c <<< 1) 0

theorem getLsbD_pathBits (bs : List Bool) (j : Nat) :
    (pathBits bs).getLsbD j = (decide (j < 256) && bs.reverse[j]?.getD false) := by
  induction bs using List.reverseRecOn generalizing j with
  | nil => simp [pathBits]
  | append_singleton bs b ih =>
    have step : pathBits (bs ++ [b]) = pathBits bs <<< 1 ||| (BitVec.ofBool b).setWidth 256 := by
      rw [pathBits, List.foldl_append]
      cases b <;> simp [pathBits]
    rw [step, BitVec.getLsbD_or, BitVec.getLsbD_shiftLeft, ih, List.reverse_append, List.reverse_singleton,
      List.singleton_append, BitVec.getLsbD_setWidth, BitVec.getLsbD_ofBool]
    cases j with
    | zero => simp
    | succ j =>
      by_cases inside : j + 1 < 256
      · simp [Nat.lt_of_succ_lt inside]
      · simp [inside]

/-- The entry that spells a path. -/
def pathEntry (bs : List Bool) : CodeEntry := ⟨true, BitVec.ofNat 8 bs.length, pathBits bs⟩

theorem along_eq_pathEntry (root : Handle) (bs : List Bool) : (Visit.mk root 0 0).along bs = pathEntry bs := by
  rw [Visit.along, Nat.zero_add]
  rfl

section
variable {bs : List Bool} (short : bs.length ≤ 255)
include short

theorem toNat_len_pathEntry : (pathEntry bs).len.toNat = bs.length :=
  (BitVec.toNat_ofNat _ _).trans (Nat.mod_eq_of_lt (by omega))

theorem seq_pathEntry : (pathEntry bs).seq = bs := by
  rw [CodeEntry.seq, toNat_len_pathEntry short]
  refine List.ext_getElem (by simp) fun j hj hj' => ?_
  have inside : bs.length - 1 - j < 256 := by omega
  have back : bs.length - 1 - (bs.length - 1 - j) = j := by omega
  have position : bs.length - 1 - j < bs.length := by omega
  simp [pathEntry, getLsbD_pathBits, inside, back, List.getElem?_reverse position, hj']

theorem bits_pathEntry_lt : (pathEntry bs).bits.toNat < 2 ^ (pathEntry bs).len.toNat := by
  rw [toNat_len_pathEntry short]
  refine Nat.lt_pow_two_of_testBit _ fun i above => ?_
  have past : bs.reverse[i]? = none := List.getElem?_eq_none (by rwa [List.length_reverse])
  have bit := getLsbD_pathBits bs i
  rw [past, Option.getD_none, Bool.and_false] at bit
  exact bit

end

/-! ### The finished tree (R44, R48) -/

theorem isChild_iff_isLink {s : State} (arena : ArenaInv s) {p c : Handle} :
    IsChild s p c ↔ IsLink s.node p c := by
  constructor
  · rintro ⟨-, inner, real, rfl | rfl⟩
    · exact ⟨inner, real, false, rfl⟩
    · exact ⟨inner, real, true, rfl⟩
  · rintro ⟨inner, real, b, link⟩
    have links : (s.nodeAt p).left = c ∨ (s.nodeAt p).right = c := by
      cases b
      · exact .inl link
      · exact .inr link
    refine ⟨?_, inner, real, links⟩
    by_contra notNode
    rw [arena.emptyRest p notNode] at links
    rcases links with nil | nil <;> exact real nil.symm

namespace ArenaInv
variable {s : State} (arena : ArenaInv s)
include arena

theorem link_lt {p c : Handle} (link : IsLink s.node p c) : c.toNat < p.toNat :=
  arena.child_lt ((isChild_iff_isLink arena).2 link)

theorem le_of_reaches {h f : Handle} (reaches : Reaches s.node h f) : f.toNat ≤ h.toNat := by
  induction reaches with
  | refl => exact le_refl _
  | tail _ link ih => exact (arena.link_lt link).le.trans ih

/-- Internal nodes come after the `l` leaves and a path goes down through them, so it has at most one bit for each. -/
theorem length_le {l : Nat} (leaves : ∀ h, (s.nodeAt h).leaf = true ↔ h.toNat < l) {h f : Handle} {bs : List Bool}
    (path : Descends s.node h bs f) (nonEmpty : bs ≠ []) : l + bs.length ≤ h.toNat + 1 := by
  induction path with
  | here h => exact absurd rfl nonEmpty
  | down h f b bs inner real rest ih =>
    have lt := arena.link_lt ⟨inner, real, b, rfl⟩
    have above : l ≤ h.toNat := Nat.not_lt.1 fun lt => by
      rw [← leaves h] at lt
      exact absurd (inner.symm.trans lt) (by decide)
    rw [List.length_cons]
    by_cases last : bs = []
    · rw [last, List.length_nil]
      omega
    · have := ih last
      omega

/-- Two children of one node: neither is below the other, for it would be below their parent. -/
theorem not_reaches_sibling {h a b : Handle} (linkA : IsLink s.node h a) (linkB : IsLink s.node h b) (ne : a ≠ b) :
    ¬Reaches s.node a b := by
  intro reaches
  rcases Relation.ReflTransGen.cases_tail reaches with same | ⟨p, toP, link⟩
  · exact ne same.symm
  · have sameParent : p = h :=
      arena.oneParent p h b ((isChild_iff_isLink arena).2 link) ((isChild_iff_isLink arena).2 linkB)
    have below := arena.le_of_reaches toP
    have lt := arena.link_lt linkA
    rw [sameParent] at below
    omega

end ArenaInv

/-- The handles at or below `h`; none where `h` is NIL. -/
def below (t : Vector Node 511) (h : Handle) : Set Handle := {f | h ≠ NIL ∧ Reaches t h f}

theorem below_nil (t : Vector Node 511) : below t NIL = ∅ := Set.eq_empty_of_forall_notMem fun _ mem => mem.1 rfl

theorem mem_below_self {t : Vector Node 511} {h : Handle} (real : h ≠ NIL) : h ∈ below t h := ⟨real, .refl⟩

theorem below_child_subset {t : Vector Node 511} {h : Handle} (real : h ≠ NIL) (inner : (nodeAt t h).leaf = false)
    (b : Bool) : below t ((nodeAt t h).child b) ⊆ below t h :=
  fun _ ⟨realChild, reaches⟩ => ⟨real, .head ⟨inner, realChild, b, rfl⟩ reaches⟩

/-- NIL is no child, so of the 512 handles at most 511 are below one. -/
theorem ncard_below_le (t : Vector Node 511) (h : Handle) : (below t h).ncard ≤ 511 := by
  have notNil : below t h ⊆ {NIL}ᶜ := by
    rintro f ⟨real, reaches⟩ rfl
    rcases Relation.ReflTransGen.cases_tail reaches with same | ⟨p, -, link⟩
    · exact real same.symm
    · exact link.2.1 rfl
  refine (Set.ncard_le_ncard notNil).trans ?_
  have handles : Nat.card Handle = 512 := Nat.card_eq_fintype_card.trans FinEnum.card_eq_fintypeCard.symm
  rw [Set.ncard_compl, Set.ncard_singleton, handles]

/-- An internal node and the handles below its two children are different handles below it. -/
theorem ncard_below_children {s : State} (arena : ArenaInv s) {h : Handle} (real : h ≠ NIL)
    (inner : (s.nodeAt h).leaf = false) :
    (below s.node (s.nodeAt h).left).ncard + (below s.node (s.nodeAt h).right).ncard < (below s.node h).ncard := by
  have left := below_child_subset (t := s.node) real inner false
  have right := below_child_subset (t := s.node) real inner true
  have apart : Disjoint (below s.node (s.nodeAt h).left) (below s.node (s.nodeAt h).right) := by
    rw [Set.disjoint_left]
    rintro f ⟨realL, reachesL⟩ ⟨realR, reachesR⟩
    have linkL : IsLink s.node h (s.nodeAt h).left := ⟨inner, realL, false, rfl⟩
    have linkR : IsLink s.node h (s.nodeAt h).right := ⟨inner, realR, true, rfl⟩
    obtain ⟨node, -⟩ := (isChild_iff_isLink arena).2 linkR
    obtain ⟨-, -, ⟨-, ne⟩ | ⟨nil, -⟩⟩ := arena.innerLinks h node inner
    · have unique : Relator.RightUnique (Function.swap (IsLink s.node)) := fun c p q linkP linkQ =>
        arena.oneParent p q c ((isChild_iff_isLink arena).2 linkP) ((isChild_iff_isLink arena).2 linkQ)
      rcases Relation.ReflTransGen.total_of_right_unique unique (Relation.reflTransGen_swap.2 reachesL)
        (Relation.reflTransGen_swap.2 reachesR) with up | up
      · exact arena.not_reaches_sibling linkR linkL ne.symm (Relation.reflTransGen_swap.1 up)
      · exact arena.not_reaches_sibling linkL linkR ne (Relation.reflTransGen_swap.1 up)
    · exact realR nil
  rw [← Set.ncard_union_eq apart]
  refine Set.ncard_lt_ncard ((Set.ssubset_iff_of_subset (Set.union_subset left right)).2
    ⟨h, mem_below_self real, ?_⟩)
  rintro (⟨realC, reaches⟩ | ⟨realC, reaches⟩)
  · have lt := arena.link_lt ⟨inner, realC, false, rfl⟩
    exact absurd (arena.le_of_reaches reaches) (Nat.not_le.2 lt)
  · have lt := arena.link_lt ⟨inner, realC, true, rfl⟩
    exact absurd (arena.le_of_reaches reaches) (Nat.not_le.2 lt)

/-! ### The traversal ends in time (R142) -/

/-- How many handles the traversal has still to pop, at most. -/
noncomputable def popsLeft (t : Vector Node 511) (stack : List Visit) : Nat :=
  (stack.map fun v => (below t v.h).ncard).sum

theorem popsLeft_childVisits (t : Vector Node 511) (x : Node) (v : Visit) :
    popsLeft t (childVisits x v) = (below t x.left).ncard + (below t x.right).ncard := by
  rw [popsLeft, childVisits, List.map_append, List.sum_append]
  congr 1
  · split
    · next nil => rw [nil, below_nil, Set.ncard_empty]; rfl
    · simp
  · split
    · next nil => rw [nil, below_nil, Set.ncard_empty]; rfl
    · simp

/-- `k` is the symbol of a leaf at or below a handle of the stack. -/
def Awaits (t : Vector Node 511) (stack : List Visit) (k : Nat) : Prop :=
  ∃ v ∈ stack, ∃ f, Reaches t v.h f ∧ (nodeAt t f).leaf = true ∧ (nodeAt t f).sym.toNat = k

theorem awaits_cons {t : Vector Node 511} {v : Visit} {stack : List Visit} {k : Nat} : Awaits t (v :: stack) k ↔
    (∃ f, Reaches t v.h f ∧ (nodeAt t f).leaf = true ∧ (nodeAt t f).sym.toNat = k) ∨ Awaits t stack k := by
  simp only [Awaits, List.mem_cons, exists_eq_or_imp]

theorem awaits_append {t : Vector Node 511} {us vs : List Visit} {k : Nat} :
    Awaits t (us ++ vs) k ↔ Awaits t us k ∨ Awaits t vs k := by
  simp only [Awaits, List.mem_append, or_and_right, exists_or]

/-- A leaf below an internal node is below one of the children that are pushed. -/
theorem awaits_childVisits {t : Vector Node 511} {v : Visit} {f : Handle} (inner : (nodeAt t v.h).leaf = false)
    (reaches : Reaches t v.h f) (leaf : (nodeAt t f).leaf = true) :
    Awaits t (childVisits (nodeAt t v.h) v) (nodeAt t f).sym.toNat := by
  rcases Relation.ReflTransGen.cases_head reaches with same | ⟨c, ⟨-, real, b, link⟩, rest⟩
  · rw [← same] at leaf
    exact absurd (inner.symm.trans leaf) (by decide)
  · subst link
    cases b with
    | false =>
      have realLeft : (nodeAt t v.h).left ≠ NIL := real
      exact ⟨⟨(nodeAt t v.h).left, v.len + 1, v.bits <<< 1⟩,
        List.mem_append_left _ (by rw [if_neg realLeft]; exact List.mem_singleton_self _), f, rest, leaf, rfl⟩
    | true =>
      have realRight : (nodeAt t v.h).right ≠ NIL := real
      exact ⟨⟨(nodeAt t v.h).right, v.len + 1, v.bits <<< 1 ||| 1⟩,
        List.mem_append_right _ (by rw [if_neg realRight]; exact List.mem_singleton_self _), f, rest, leaf, rfl⟩

/-- With a pop for every handle at or below the stack, each leaf there gets an entry, and entries are not lost. -/
theorem cgenWalk_valid {s : State} (arena : ArenaInv s) {fuel : Nat} {stack : List Visit}
    {code : Vector CodeEntry 256} {k : Nat} (hk : k < 256) (real : ∀ v ∈ stack, v.h ≠ NIL)
    (enough : popsLeft s.node stack ≤ fuel)
    (entry : (tableGet code CodeEntry.absent k).valid = true ∨ Awaits s.node stack k) :
    (tableGet (cgenWalk s.node fuel stack code) CodeEntry.absent k).valid = true := by
  induction fuel generalizing stack code with
  | zero =>
    refine entry.resolve_right fun ⟨v, mem, _⟩ => ?_
    have pos : 0 < (below s.node v.h).ncard := (Set.ncard_pos).2 ⟨_, mem_below_self (real v mem)⟩
    have le := List.single_le_sum (l := stack.map fun v => (below s.node v.h).ncard) (fun _ _ => Nat.zero_le _) _
      (List.mem_map_of_mem mem)
    exact absurd (pos.trans_le (le.trans enough)) (lt_irrefl 0)
  | succ fuel ih =>
    cases stack with
    | nil => exact entry.resolve_right fun ⟨v, mem, _⟩ => List.not_mem_nil mem
    | cons v stack =>
      have realV := real v List.mem_cons_self
      have realRest : ∀ u ∈ stack, u.h ≠ NIL := fun u mem => real u (List.mem_cons_of_mem _ mem)
      have sum : popsLeft s.node (v :: stack) = (below s.node v.h).ncard + popsLeft s.node stack := List.sum_cons
      rw [awaits_cons] at entry
      unfold cgenWalk
      split
      · next leaf =>
        have pos : 0 < (below s.node v.h).ncard := (Set.ncard_pos).2 ⟨_, mem_below_self realV⟩
        refine ih realRest (by omega) ?_
        rw [tableGet_tableSet]
        split
        · exact .inl rfl
        · next other =>
          rcases entry with valid | ⟨f, reaches, -, sym⟩ | awaits
          · exact .inl valid
          · rcases Relation.ReflTransGen.cases_head reaches with same | ⟨c, ⟨inner, -⟩, -⟩
            · rw [← same] at sym
              exact absurd ⟨sym, sym.trans_lt hk⟩ other
            · exact absurd (inner.symm.trans leaf) (by decide)
          · exact .inr awaits
      · next notLeaf =>
        have inner : (s.nodeAt v.h).leaf = false := Bool.not_eq_true _ ▸ notLeaf
        have children := popsLeft_childVisits s.node (s.nodeAt v.h) v
        have fewer := ncard_below_children arena realV inner
        refine ih (fun u mem => ?_) ?_ ?_
        · rcases List.mem_append.1 mem with child | rest
          · obtain ⟨-, -, realU, -⟩ := childVisits_along child
            exact realU
          · exact realRest u rest
        · have append : popsLeft s.node (childVisits (nodeAt s.node v.h) v ++ stack) =
              popsLeft s.node (childVisits (s.nodeAt v.h) v) + popsLeft s.node stack := by
            rw [popsLeft, List.map_append, List.sum_append]
            rfl
          omega
        · rw [awaits_append]
          rcases entry with valid | ⟨f, reaches, leaf, rfl⟩ | awaits
          · exact .inl valid
          · exact .inr (.inl (awaits_childVisits inner reaches leaf))
          · exact .inr (.inr awaits)

end Sys2Proof.Machine
end

section
/-! SUPPORT. CODE after CGEN is the code table of the tree (rules R140, R141, R143), and every step keeps it so while
CODE_VALID = 1 (R48 items 7 and 8). -/

namespace Sys2Proof.Machine

/-! ### CGEN on a finished tree (R141) -/

section
variable {s : State} (inv : ForestInv s) (tree : s.treeValid = true)
include inv tree

theorem ForestInv.root_isInner : (s.nodeAt s.root).leaf = false := (inv.arena.rootIsInner tree).2

theorem ForestInv.code_ne_nil {sym : Sym} {bs : List Bool} (code : IsCode s sym bs) : bs ≠ [] := by
  rintro rfl
  obtain ⟨f, path, leaf, -⟩ := code
  cases path
  exact absurd ((inv.root_isInner tree).symm.trans leaf) (by decide)

/-- Two symbols at least, and a code has one bit for each internal node at most; or the wrapper and one bit. -/
theorem ForestInv.code_length_le {sym : Sym} {bs : List Bool} (code : IsCode s sym bs) : bs.length ≤ 255 := by
  have nonEmpty := inv.code_ne_nil tree code
  obtain ⟨f, path, leaf, -⟩ := code
  obtain ⟨l, le256, le, leaves, -, counts⟩ := inv.arena.leaves
  obtain ⟨root, -⟩ := inv.arena.rootIsInner tree
  have allLeaves (h : Handle) : (s.nodeAt h).leaf = true ↔ h.toNat < l := by
    by_cases node : IsNode s h
    · exact leaves h node
    · rw [inv.arena.emptyRest h node]
      exact iff_of_false nofun fun lt => node (Nat.lt_of_lt_of_le lt le)
  have length := inv.arena.length_le allLeaves path nonEmpty
  have rootLt : s.root.toNat < s.nnode.toNat := root
  rcases counts tree with ⟨-, nnode⟩ | ⟨one, two⟩
  · omega
  · rw [two] at rootLt
    change _ < 2 at rootLt
    omega

/-- An entry CGEN leaves is absent, or spells the code of its symbol. -/
theorem codeAt_fillCode_cases (sym : Sym) :
    s.fillCode.codeAt sym = CodeEntry.absent ∨
    ∃ bs, IsCode s sym bs ∧ bs.length ≤ 255 ∧ s.fillCode.codeAt sym = pathEntry bs := by
  refine (codeAt_fillCode s sym).imp_right fun ⟨bs, code, entry⟩ => ?_
  exact ⟨bs, code, inv.code_length_le tree code, entry.trans (along_eq_pathEntry s.root bs)⟩

/-- Every symbol that has a leaf in the tree gets an entry: 511 pops are enough. -/
theorem valid_fillCode {sym : Sym} {bs : List Bool} (code : IsCode s sym bs) :
    (s.fillCode.codeAt sym).valid = true := by
  obtain ⟨f, path, leaf, rfl⟩ := code
  refine cgenWalk_valid inv.arena (s.nodeAt f).sym.isLt (fun v mem => ?_) ?_ (.inr ?_)
  · rw [List.mem_singleton.1 mem]
    exact isNode_ne_nil (inv.arena.rootIsInner tree).1
  · rw [popsLeft, List.map_singleton, List.sum_singleton]
    exact ncard_below_le s.node s.root
  · exact ⟨_, List.mem_singleton_self _, f, reaches_of_descends path, leaf, rfl⟩

theorem isCode_of_valid_fillCode {sym : Sym} (valid : (s.fillCode.codeAt sym).valid = true) :
    ∃ bs, IsCode s sym bs ∧ bs.length ≤ 255 ∧ s.fillCode.codeAt sym = pathEntry bs := by
  refine (codeAt_fillCode_cases inv tree sym).resolve_left fun absent => ?_
  rw [absent] at valid
  cases valid

theorem codeMatches_fillCode : CodeMatches s.fillCode where
  validIff := fun sym => by
    constructor
    · intro valid
      obtain ⟨bs, code, -⟩ := isCode_of_valid_fillCode inv tree valid
      exact ⟨bs, code⟩
    · exact fun ⟨bs, code⟩ => valid_fillCode inv tree code
  spells := fun sym valid => by
    obtain ⟨bs, code, short, entry⟩ := isCode_of_valid_fillCode inv tree valid
    rw [entry, seq_pathEntry short]
    exact code
  nonEmpty := fun sym valid => by
    obtain ⟨bs, code, short, entry⟩ := isCode_of_valid_fillCode inv tree valid
    rw [State.codeLen, entry, toNat_len_pathEntry short]
    exact List.length_pos_iff.2 (inv.code_ne_nil tree code)

theorem codeForm_fillCode : CodeForm s.fillCode where
  absent := fun sym invalid => by
    refine (codeAt_fillCode_cases inv tree sym).resolve_right fun ⟨bs, _, _, entry⟩ => ?_
    rw [entry] at invalid
    cases invalid
  highZero := fun sym => by
    rw [State.codeLen]
    rcases codeAt_fillCode_cases inv tree sym with absent | ⟨bs, -, short, entry⟩
    · rw [absent]
      decide
    · rw [entry]
      exact bits_pathEntry_lt short

end

/-- Settles O42: CGEN writes CODE and CODE_VALID, and on a forest with a root its traversal fills the code table. -/
theorem cgenFillsTheCodeTable : Obligations.CgenFillsTheCodeTable := by
  intro s tree inner
  refine ⟨s.fillCode.done, exec_of_succeeds (i := .cgen) ⟨tree, inner⟩, rfl, fun build => ?_⟩
  obtain ⟨iff, spells, nonEmpty⟩ := codeMatches_fillCode build.forest tree
  obtain ⟨absent, highZero⟩ := codeForm_fillCode build.forest tree
  exact ⟨⟨iff, spells, nonEmpty⟩, ⟨absent, highZero⟩⟩

/-! ### The laws of the code table (R143) -/

theorem isCode_unique_of_isPrefix {s : State} {x y : Sym} {bs cs : List Bool} (codeX : IsCode s x bs)
    (codeY : IsCode s y cs) (isPrefix : bs <+: cs) : x = y := by
  obtain ⟨f, pathF, leafF, rfl⟩ := codeX
  obtain ⟨g, pathG, -, rfl⟩ := codeY
  obtain ⟨ds, rfl⟩ := isPrefix
  rw [descends_unique pathF leafF pathG]

theorem length_seq (x : CodeEntry) : x.seq.length = x.len.toNat := by
  rw [CodeEntry.seq, List.length_map, List.length_range]

/-- CGEN succeeded, so there was a finished tree and CODE is its table. -/
theorem cgen_success {s t : State} (run : exec .cgen s = .next t) (ok : t.result = 0) :
    s.treeValid = true ∧ t = s.fillCode.done := by
  rcases exec_next run with ⟨⟨tree, -⟩, rfl⟩ | ⟨e, -, rfl⟩
  · exact ⟨tree, rfl⟩
  · exact absurd ok (code_ne_zero e)

/-- Settles O43: codes are paths to leaves, of at least one bit, and a path to a leaf goes no further. -/
theorem codesArePrefixFree : Obligations.CodesArePrefixFree := by
  intro s t build run ok x y validX validY
  obtain ⟨tree, rfl⟩ := cgen_success run ok
  have table := codeMatches_fillCode build.forest tree
  have codeX := table.spells x validX
  have codeY := table.spells y validY
  have pos : 1 ≤ (s.fillCode.codeAt x).len.toNat := table.nonEmpty x validX
  have le := (s.fillCode.codeAt x).len.isLt
  refine ⟨?_, ?_, isCode_unique_of_isPrefix codeX codeY⟩
  all_goals
    rw [length_seq]
    change _ ≤ _ at pos
  · exact pos
  · exact Nat.le_of_lt_succ le

/-- Settles O45: with a finished tree ROOT is an internal node, and without one the error is another. -/
theorem invalidTreeErrorIsDead : Obligations.InvalidTreeErrorIsDead := by
  intro s t build run invalidTree
  rcases exec_cases .cgen s with ⟨-, run'⟩ | ⟨fails, -⟩
  · cases run.symm.trans run'
    exact done_result_ne_code _ .invalidTree invalidTree
  · cases tree : s.treeValid
    · have run' := exec_of_outOfSequence (i := .cgen) (s := s) tree
      cases run.symm.trans run'
      exact raise_result_ne_code s (d := .sequenceError) (e := .invalidTree) (by decide) invalidTree
    · exact fails ⟨tree, build.forest.root_isInner tree⟩

/-! ### Which symbols have a code (R143 item 1) -/

/-- Every node of a finished tree is reached from the root: it is the root, or its parent is reached. -/
theorem ForestInv.reaches_of_isNode {s : State} (inv : ForestInv s) (tree : s.treeValid = true) {h : Handle}
    (node : IsNode s h) : Reaches s.node s.root h := by
  induction below : s.nnode.toNat - h.toNat using Nat.strong_induction_on generalizing h with
  | _ n ih =>
    by_cases root : h = s.root
    · exact root ▸ .refl
    · have dead : s.heapLive = false := by
        rw [← Bool.not_eq_true]
        exact fun live => absurd ((inv.flags.heapAlive live).2.symm.trans tree) (by decide)
      have noTop : ¬IsTop s h := by
        rintro (⟨i, lt, -⟩ | ⟨-, isRoot⟩)
        · rw [inv.flags.heapDead dead] at lt
          exact Nat.not_lt_zero i lt
        · exact root isRoot.symm
      rw [inv.arena.topIffNoParent h node, not_forall] at noTop
      obtain ⟨p, hp⟩ := noTop
      rw [not_not] at hp
      have lt := inv.arena.child_lt hp
      have nodeP : p.toNat < s.nnode.toNat := hp.1
      exact (ih _ (by omega) hp.1 rfl).tail ((isChild_iff_isLink inv.arena).1 hp)

theorem exists_isCode_iff {s : State} (inv : ForestInv s) (tree : s.treeValid = true) (sym : Sym) :
    (∃ bs, IsCode s sym bs) ↔ ∃ f, (s.nodeAt f).leaf = true ∧ (s.nodeAt f).sym = sym := by
  constructor
  · exact fun ⟨_, f, _, leaf, isSym⟩ => ⟨f, leaf, isSym⟩
  · rintro ⟨f, leaf, isSym⟩
    obtain ⟨bs, path⟩ := exists_descends_of_reaches (inv.reaches_of_isNode tree (inv.arena.isNode_of_leaf leaf))
    exact ⟨bs, f, path, leaf, isSym⟩

/-- The leaves of a build carry the symbols with a count. -/
theorem exists_leaf_tinitBody_iff (s : State) (sym : Sym) :
    (∃ f, (s.tinitBody.nodeAt f).leaf = true ∧ (s.tinitBody.nodeAt f).sym = sym) ↔ s.freqAt sym ≠ 0 := by
  have leaves := leaves_tinitBody s
  have short := short_present s
  rw [← mem_present]
  constructor
  · rintro ⟨f, leaf, rfl⟩
    have lt := leaves.leaf_iff.1 leaf
    rw [leaves.nodeAt_of_lt lt]
    exact List.getElem_mem lt
  · intro mem
    obtain ⟨i, lt, rfl⟩ := List.mem_iff_getElem.1 mem
    have toNat : (BitVec.ofNat 9 i).toNat = i := (BitVec.toNat_ofNat _ _).trans (Nat.mod_eq_of_lt (by omega))
    have node := leaves.nodeAt_of_lt (h := BitVec.ofNat 9 i) (by rwa [toNat])
    simp only [toNat] at node
    exact ⟨BitVec.ofNat 9 i, by rw [node]; rfl, by rw [node]; rfl⟩

theorem SameLeaves.exists_leaf_iff {s t : State} (same : SameLeaves s t) (sym : Sym) :
    (∃ f, (t.nodeAt f).leaf = true ∧ (t.nodeAt f).sym = sym) ↔
      ∃ f, (s.nodeAt f).leaf = true ∧ (s.nodeAt f).sym = sym := by
  constructor
  · rintro ⟨f, leaf, isSym⟩
    have node := same f (.inr leaf)
    exact ⟨f, node ▸ leaf, node ▸ isSym⟩
  · rintro ⟨f, leaf, isSym⟩
    have node := same f (.inl leaf)
    exact ⟨f, by rw [node, leaf], by rw [node, isSym]⟩

theorem sameLeaves_tbuildBody {s : State} (count : s.freqEmpty = false) : SameLeaves s.tinitBody s.tbuildBody := by
  obtain ⟨u, built, live, one, same⟩ := exists_builtUpTo count
  rw [same]
  exact built.sameLeaves.trans (sameLeaves_tfinBody built.inv live one)

/-- Settles O44: codes are for the leaves of the tree, and these are the leaves TINIT made. -/
theorem presentSymbolsGetCodes : Obligations.PresentSymbolsGetCodes := by
  intro s t run sym
  obtain ⟨count, rest⟩ := runOk_cons_eq_some.1 run
  obtain ⟨⟨tree, -⟩, finish⟩ := runOk_cons_eq_some.1 rest
  rw [runOk, Option.some_inj] at finish
  have inv := forestInv_tbuildBody count
  have leaves := sameLeaves_tbuildBody count
  rw [← exists_leaf_tinitBody_iff, ← leaves.exists_leaf_iff]
  simp only [effect] at tree finish
  generalize s.tbuildBody = u at *
  subst finish
  have invDone : ForestInv u.done := forestInv_kept.of_structures_eq inv rfl
  exact ((codeMatches_fillCode invDone tree).validIff sym).trans (exists_isCode_iff invDone tree sym)

/-! ### Every step keeps the code table (R48 items 7 and 8) -/

theorem codeForm_congr {s t : State} (same : t.code = s.code) (form : CodeForm s) : CodeForm t := by
  have entry (sym : Sym) : t.codeAt sym = s.codeAt sym := by rw [State.codeAt, same, State.codeAt]
  refine ⟨fun sym invalid => ?_, fun sym => ?_⟩
  · rw [entry] at invalid ⊢
    exact form.absent sym invalid
  · rw [State.codeLen, entry]
    exact form.highZero sym

/-- A build clears CODE_VALID and leaves CODE as it was. -/
theorem codeInv_of_noCode {s t : State} (inv : CodeInv s) (same : t.code = s.code) (noCode : t.codeValid = false) :
    CodeInv t :=
  ⟨codeForm_congr same inv.form, fun code => absurd (noCode.symm.trans code) (by decide)⟩

/-- While a build runs there is no finished tree, so there are no codes (R195). -/
theorem FlagInv.noCode_of_live {s : State} (flags : FlagInv s) (live : s.heapLive = true) : s.codeValid = false := by
  rw [← Bool.not_eq_true]
  exact fun code => absurd ((flags.noTree_of_live live).symm.trans (flags.codeNeedsTree code)) (by decide)

theorem codeInv_iff_structures (s : State) : CodeInv s ↔ CodeInv s.structures :=
  ⟨fun h => ⟨codeForm_congr (t := s.structures) (s := s) rfl h.form, fun code =>
      ⟨(h.isTable code).validIff, (h.isTable code).spells, (h.isTable code).nonEmpty⟩⟩,
    fun h => ⟨codeForm_congr (s := s.structures) (t := s) rfl h.form, fun code =>
      ⟨(h.isTable code).validIff, (h.isTable code).spells, (h.isTable code).nonEmpty⟩⟩⟩

theorem codeInv_kept : KeptByBuild fun s => ForestInv s ∧ CodeInv s where
  structural := fun s => and_congr (forestInv_iff_structures s) (codeInv_iff_structures s)
  reset := ⟨forestInv_reset, codeInv_of_absent rfl codeAt_reset⟩
  tinit := fun s ⟨_, codes⟩ count =>
    ⟨forestInv_tinitBody count, codeInv_of_noCode codes (by rw [tinitBody_frame]) (by rw [tinitBody_frame])⟩
  tmerge := fun s ⟨inv, codes⟩ live two =>
    ⟨forestInv_tmergeBody inv live two,
    codeInv_of_noCode codes (by rw [tmergeBody_eq]) (by rw [tmergeBody_eq]; exact inv.flags.noCode_of_live live)⟩
  tfin := fun s ⟨inv, codes⟩ live one => ⟨forestInv_tfinBody inv live one,
    codeInv_of_noCode codes (by rw [tfinBody_frame]) (by rw [tfinBody_frame]; exact inv.flags.noCode_of_live live)⟩
  cgen := fun s ⟨inv, _⟩ tree _ =>
    ⟨forestInv_fillCode inv tree, codeForm_fillCode inv tree, fun _ => codeMatches_fillCode inv tree⟩

/-- Settles O60: a build clears CODE_VALID, and CGEN fills the table. -/
theorem stepKeepsCodeTable : Obligations.StepKeepsCodeTable := fun _ _ build codes stepped =>
  (codeInv_kept.step ⟨build.forest, codes⟩ stepped).2

end Sys2Proof.Machine
end

section
/-! SUPPORT. The pack law and the round trips (rules R152, R153, R166 to R169, R198): what one transaction or command
appends to the payload, how appends follow one another, and how UGET and USYM read them back. -/

namespace Sys2Proof.Machine

/-! ### PSYM (R152) -/

theorem length_payloadBits (s : State) (p n : Nat) : (s.payloadBits p n).length = n := by
  rw [State.payloadBits, List.length_map, List.length_range]

theorem payloadBits_add (s : State) (p m n : Nat) :
    s.payloadBits p (m + n) = s.payloadBits p m ++ s.payloadBits (p + m) n := by
  simp only [State.payloadBits, List.range_add, List.map_append, List.map_map, Function.comp_def, Nat.add_assoc]

theorem payloadBits_congr {s t : State} {p q n : Nat} (same : ∀ j < n, t.getbit (q + j) = s.getbit (p + j)) :
    t.payloadBits q n = s.payloadBits p n :=
  List.map_congr_left fun j hj => same j (List.mem_range.1 hj)

/-- The bits the loop of the packer appends, first bit first. -/
def bitsOf (f : Nat → Bool) (n : Nat) : List Bool := (List.range n).map fun j => f (n - 1 - j)

theorem length_bitsOf (f : Nat → Bool) (n : Nat) : (bitsOf f n).length = n := by
  rw [bitsOf, List.length_map, List.length_range]

theorem payloadBits_putBits {f : Nat → Bool} {n : Nat} {s : State} (fits : s.bitcnt.toNat + n ≤ 2 ^ 31) :
    (s.putBits f n).payloadBits s.bitcnt.toNat n = bitsOf f n :=
  List.map_congr_left fun _ hj => getbit_putBits_appended fits (List.mem_range.1 hj)

/-- Settles O48: PSYM's effect is the loop of `putbit` over the code's bits. -/
theorem psymAppendsTheCode : Obligations.PsymAppendsTheCode := by
  intro s sym legal codes valid pos room
  have fits : s.bitcnt.toNat + s.codeLen sym ≤ 2 ^ 31 := room.trans (capBits_le_of_legal legal)
  have grown : (effect (.psym sym) s).bitcnt.toNat = s.bitcnt.toNat + s.codeLen sym := bitcnt_putBits _ _ s fits
  refine ⟨_, exec_of_succeeds (i := .psym sym) ⟨codes, valid, (overflows_eq_false_iff s _).2 room⟩, ?_, grown,
    payloadBits_putBits fits, fun p => getbit_putBits_of_lt fits, ?_, ?_⟩
  · rw [effect, putBits_frame]
    rfl
  · rw [grown]
    exact fun p => getbit_putBits_padding fits pos
  · rw [grown]
    exact payByte_putBits _ _ s fits

/-! ### Appending to the payload (R153) -/

/-- From `s` to `t` the bits `bs` were appended to the payload, and nothing else of it changed. -/
structure Appends (s : State) (bs : List Bool) (t : State) : Prop where
  bitcnt : t.bitcnt.toNat = s.bitcnt.toNat + bs.length
  appended : t.payloadBits s.bitcnt.toNat bs.length = bs
  kept : ∀ p, p < s.bitcnt.toNat → t.getbit p = s.getbit p
  padded : bs ≠ [] → ∀ p, t.bitcnt.toNat ≤ p → p < 8 * ((t.bitcnt.toNat + 7) / 8) → t.getbit p = false
  outside : ∀ a, a < s.bitcnt.toNat / 8 ∨ (t.bitcnt.toNat + 7) / 8 ≤ a → t.payByte a = s.payByte a
  idle : bs = [] → ∀ a, t.payByte a = s.payByte a

theorem appends_nil {s t : State} (bitcnt : t.bitcnt = s.bitcnt) (bytes : ∀ a, t.payByte a = s.payByte a) :
    Appends s [] t where
  bitcnt := by rw [bitcnt]; rfl
  appended := rfl
  kept := fun p _ => by rw [State.getbit, bytes, State.getbit]
  padded := fun nonEmpty => absurd rfl nonEmpty
  outside := fun a _ => bytes a
  idle := fun _ => bytes

theorem appends_of_same {s t : State} (bitcnt : t.bitcnt = s.bitcnt) (pay : t.pay = s.pay)
    (resets : t.resets = s.resets) : Appends s [] t :=
  appends_nil bitcnt fun a => by
    rw [State.payByte, State.payByte, State.unwrittenByte, State.unwrittenByte, pay, resets]

theorem appends_putBits {f : Nat → Bool} {n : Nat} {s : State} (fits : s.bitcnt.toNat + n ≤ 2 ^ 31) :
    Appends s (bitsOf f n) (s.putBits f n) := by
  have grown := bitcnt_putBits f n s fits
  refine ⟨by rw [grown, length_bitsOf], by rw [length_bitsOf]; exact payloadBits_putBits fits,
    fun p => getbit_putBits_of_lt fits, fun nonEmpty => ?_, ?_, fun empty => ?_⟩
  · have pos : 1 ≤ n := by
      rw [← length_bitsOf f n]
      exact List.length_pos_iff.2 nonEmpty
    rw [grown]
    exact fun p => getbit_putBits_padding fits pos
  · rw [grown]
    exact payByte_putBits f n s fits
  · have zero : n = 0 := by rw [← length_bitsOf f n, empty]; rfl
    rw [zero]
    exact fun _ => rfl

theorem Appends.trans {s t u : State} {bs cs : List Bool} (st : Appends s bs t) (tu : Appends t cs u) :
    Appends s (bs ++ cs) u := by
  have bitcntT := st.bitcnt
  have bitcntU := tu.bitcnt
  refine ⟨by rw [bitcntU, bitcntT, List.length_append, Nat.add_assoc], ?_, fun p lt => ?_, fun nonEmpty => ?_,
    fun a outside => ?_, fun empty a => ?_⟩
  · rw [List.length_append, payloadBits_add, ← bitcntT, tu.appended]
    congr 1
    refine (payloadBits_congr fun j lt => ?_).trans st.appended
    exact tu.kept _ (by omega)
  · rw [tu.kept p (by omega), st.kept p lt]
  · by_cases more : cs = []
    · have same : u.bitcnt.toNat = t.bitcnt.toNat := by rw [bitcntU, more]; rfl
      rw [more, List.append_nil] at nonEmpty
      rw [same]
      intro p above lastByte
      rw [State.getbit, tu.idle more, ← State.getbit]
      exact st.padded nonEmpty p above lastByte
    · exact tu.padded more
  · rw [tu.outside a (outside.imp_left fun lt => by omega), st.outside a (outside.imp_right fun le => by omega)]
  · obtain ⟨noBs, noCs⟩ := List.append_eq_nil_iff.1 empty
    rw [tu.idle noCs, st.idle noBs]

/-! ### Commands and transactions (R153) -/

/-- A command that does not restart the payload appends its bits when it succeeds. -/
theorem appends_effect {i : Instr} {s : State} (legal : s.cfg.legal = true) (goesOn : restartsPayload i = false)
    (succeeds : Succeeds i s) : Appends s (packedBits s i) (effect i s) := by
  have within {n : Nat} (room : s.overflows n = false) : s.bitcnt.toNat + n ≤ 2 ^ 31 :=
    ((overflows_eq_false_iff s n).1 room).trans (capBits_le_of_legal legal)
  have ended {bs : List Bool} {t : State} (h : Appends s bs t) : Appends s bs t.done :=
    ⟨h.bitcnt, h.appended, h.kept, h.padded, h.outside, h.idle⟩
  cases i with
  | prst | srst => cases goesOn
  | pput n => exact ended (appends_putBits (within succeeds))
  | psym sym => exact ended (appends_putBits (within succeeds.2.2))
  | tinit => exact ended (appends_of_same (by rw [tinitBody_frame]) (by rw [tinitBody_frame]) (by rw [tinitBody_frame]))
  | tmerge => exact ended (appends_of_same (by rw [tmergeBody_eq]) (by rw [tmergeBody_eq]) (by rw [tmergeBody_eq]))
  | tfin => exact ended (appends_of_same (by rw [tfinBody_frame]) (by rw [tfinBody_frame]) (by rw [tfinBody_frame]))
  | tbuild =>
    exact ended (appends_of_same (by rw [tbuildBody_frame]) (by rw [tbuildBody_frame]) (by rw [tbuildBody_frame]))
  | usym =>
    simp only [effect]
    split <;> exact appends_of_same rfl rfl rfl
  | _ => exact appends_of_same rfl rfl rfl

/-- The bits of `appended` for a CMD write, by the command's outcome. -/
theorem appended_cmd {s t : State} {w : Word} {i : Instr} (decoded : decode w = .ok i) (run : exec i s = .next t) :
    appended s (.write 0x04 w) = if t.result = 0 then packedBits s i else [] := by
  have isCmd : (0x04 : Word) = cmdAddr := rfl
  simp only [appended, isCmd, if_true, decoded, run]

theorem appended_illegal {s : State} {w : Word} (undecoded : ∀ i, decode w ≠ .ok i) :
    appended s (.write 0x04 w) = [] := by
  have isCmd : (0x04 : Word) = cmdAddr := rfl
  simp only [appended, isCmd, if_true]
  split
  · next i decoded => exact absurd decoded (undecoded i)
  · rfl

theorem appended_of_ne_cmd {s : State} {addr w : Word} (other : addr ≠ 0x04) : appended s (.write addr w) = [] :=
  if_neg other

theorem appends_runWord {w : Word} {s t : State} (legal : s.cfg.legal = true)
    (goesOn : ∀ i, decode w = .ok i → restartsPayload i = false) (run : runWord w s = .next t) :
    Appends s (appended s (.write 0x04 w)) t := by
  rcases runWord_cases w s with ⟨undecoded, illegal⟩ | ⟨i, decoded, -⟩
  · cases run.symm.trans illegal
    rw [appended_illegal undecoded]
    exact appends_of_same rfl rfl rfl
  · rw [runWord_of_decode decoded] at run
    rw [appended_cmd decoded run]
    rcases exec_next run with ⟨succeeds, rfl⟩ | ⟨e, -, rfl⟩
    · rw [if_pos (effect_result succeeds)]
      exact appends_effect legal (goesOn i decoded) succeeds
    · have failed : (s.raise e).result ≠ 0 := code_ne_zero e
      rw [if_neg failed]
      exact appends_of_same rfl rfl rfl

/-- The address of a write that leaves the payload alone is neither BITCNT's nor in the PAY window. -/
theorem addr_of_not_disturbs {payCap : Nat} {addr w : Word} (calm : disturbsPayload payCap (.write addr w) = false) :
    addr ≠ 0x34 ∧ ¬(0x10000 ≤ addr.toNat ∧ addr.toNat < 0x10000 + payCap) := by
  simp only [disturbsPayload, Bool.or_eq_false_iff, beq_eq_false_iff_ne, decide_eq_false_iff_not] at calm
  exact calm.1

theorem goesOn_of_not_disturbs {payCap : Nat} {w : Word} {i : Instr}
    (calm : disturbsPayload payCap (.write 0x04 w) = false) (decoded : decode w = .ok i) :
    restartsPayload i = false := by
  have isCmd : ((0x04 : Word) == cmdAddr) = true := rfl
  simp only [disturbsPayload, Bool.or_eq_false_iff, isCmd, Bool.true_and, decoded] at calm
  exact calm.2

/-- A write elsewhere than to CMD appends nothing. -/
theorem appends_of_write {addr v : Word} {s t : State} (other : addr ≠ 0x04)
    (calm : disturbsPayload s.cfg.payCap (.write addr v) = false) (served : Served s (.txn (.write addr v)) t) :
    Appends s [] t := by
  obtain ⟨notBitcnt, notPay⟩ := addr_of_not_disturbs calm
  cases served with
  | command => exact absurd rfl other
  | writeBitcnt => exact absurd rfl notBitcnt
  | writePay _ _ a place =>
    obtain ⟨there, -, inside⟩ := placeOf_pay place
    exact absurd ⟨by omega, by omega⟩ notPay
  | _ => exact appends_of_same rfl rfl rfl

theorem appends_serve {x : Transaction} {s t : State} (legal : s.cfg.legal = true)
    (calm : disturbsPayload s.cfg.payCap x = false) (served : serve (.txn x) s = .next t) :
    Appends s (appended s x) t := by
  cases x with
  | read addr =>
    cases served
    exact appends_of_same rfl rfl rfl
  | write addr v =>
    by_cases isCmd : addr = 0x04
    · subst isCmd
      obtain ⟨u, run, -⟩ := runWord_responses v s
      have written : serve (.txn (.write 0x04 v)) s = .next (u.respond .ok) :=
        (hostWrite_cmd v s).trans (by rw [run]; rfl)
      cases served.symm.trans written
      obtain ⟨bitcnt, new, kept, padded, outside, idle⟩ :=
        appends_runWord legal (fun i decoded => goesOn_of_not_disturbs calm decoded) run
      exact ⟨bitcnt, new, kept, padded, outside, idle⟩
    · rw [appended_of_ne_cmd isCmd]
      exact appends_of_write isCmd calm (serve_next served)

/-- The pack law over a run (R153). -/
theorem appends_session {xs : List Transaction} {s : State} (legal : s.cfg.legal = true)
    (calm : ∀ x ∈ xs, disturbsPayload s.cfg.payCap x = false) : Appends s (session xs s).1 (session xs s).2 := by
  induction xs generalizing s with
  | nil => exact appends_of_same rfl rfl rfl
  | cons x xs ih =>
    obtain ⟨t, served⟩ := exists_serve (.txn x) s
    have cfg : t.cfg = s.cfg := (served_surroundings (serve_next served)).2.1
    have first := appends_serve legal (calm x List.mem_cons_self) served
    have rest := ih (s := t) (cfg ▸ legal) (by rw [cfg]; exact fun y mem => calm y (List.mem_cons_of_mem _ mem))
    simp only [session, served]
    exact first.trans rest

/-- Pack commands write PAY, BITCNT and RESULT only. -/
theorem pack_frame {i : Instr} (pack : isPack i = true) (s : State) : effect i s =
    { s with pay := (effect i s).pay, bitcnt := (effect i s).bitcnt, result := (effect i s).result } := by
  cases i with
  | pput n => rw [effect, putBits_frame]; rfl
  | psym sym => rw [effect, putBits_frame]; rfl
  | _ => cases pack

theorem packs_frame {is : List Instr} {s t : State} (packs : ∀ i ∈ is, isPack i = true) (run : runOk is s = some t) :
    t = { s with pay := t.pay, bitcnt := t.bitcnt, result := t.result } := by
  induction is generalizing s with
  | nil => cases run; rfl
  | cons i is ih =>
    obtain ⟨-, rest⟩ := runOk_cons_eq_some.1 run
    have frame := ih (fun j mem => packs j (List.mem_cons_of_mem _ mem)) rest
    rw [pack_frame (packs i List.mem_cons_self)] at frame
    exact frame

/-- Settles O49: a run appends what its transactions append, one after another. -/
theorem packingConcatenatesInOrder : Obligations.PackingConcatenatesInOrder := by
  refine ⟨fun s xs legal calm => ?_, fun s t is packs run => packs_frame packs run⟩
  obtain ⟨bitcnt, new, kept, padded, outside, -⟩ := appends_session legal calm
  exact ⟨bitcnt, new, kept, padded, outside⟩

/-! ### What was packed is read back by UGET (R169) -/

theorem runOk_singleton {i : Instr} {s : State} (succeeds : Succeeds i s) : runOk [i] s = some (effect i s) :=
  runOk_cons_eq_some.2 ⟨succeeds, rfl⟩

/-- Reads whose counts are left significant bits succeed, and return the bits from RDPOS on. -/
theorem readBits_eq {ns : List Nat} {s : State} (counts : ∀ n ∈ ns, 1 ≤ n ∧ n ≤ 32)
    (enough : s.rdpos.toNat + ns.sum ≤ s.bitcnt.toNat) :
    ∃ v, readBits ns s = some (s.payloadBits s.rdpos.toNat ns.sum, v) ∧
      v.rdpos.toNat = s.rdpos.toNat + ns.sum ∧ v.bitcnt = s.bitcnt := by
  induction ns generalizing s with
  | nil => exact ⟨s, rfl, rfl, rfl⟩
  | cons n ns ih =>
    rw [List.sum_cons] at enough ⊢
    obtain ⟨-, le⟩ := counts n List.mem_cons_self
    have succeeds : Succeeds (.uget n) s := (Nat.add_le_add_left (Nat.le_add_right _ _) _).trans enough
    have rdpos := toNat_rdpos_uget succeeds
    obtain ⟨v, rest, rdposV, bitcntV⟩ := ih (s := effect (.uget n) s)
      (fun m mem => counts m (List.mem_cons_of_mem _ mem)) (by rw [rdpos, Nat.add_assoc]; exact enough)
    have data : (List.range n).map (fun j => (effect (.uget n) s).data.getLsbD (n - 1 - j)) =
        s.payloadBits s.rdpos.toNat n :=
      List.map_congr_left fun j mem => getLsbD_data_uget s le (List.mem_range.1 mem)
    have later : (effect (.uget n) s).payloadBits (s.rdpos.toNat + n) ns.sum =
        s.payloadBits (s.rdpos.toNat + n) ns.sum := rfl
    refine ⟨v, ?_, by rw [rdposV, rdpos, Nat.add_assoc], bitcntV⟩
    simp only [readBits, runOk_singleton succeeds, rest, Option.map_some, data, rdpos, later, payloadBits_add]

theorem eos_iff_toNat (s : State) : s.eos = true ↔ s.rdpos.toNat = s.bitcnt.toNat := by
  rw [eos_iff, BitVec.toNat_inj]

/-- UGET reads the bits that PPUT has just appended. -/
theorem data_uget_pput {s : State} {n : Nat} (le : n ≤ 32) (fits : s.bitcnt.toNat + n ≤ 2 ^ 31)
    (read : s.rdpos = s.bitcnt) :
    (effect (.uget n) (effect (.pput n) s)).data.toNat = s.arg.toNat % 2 ^ n := by
  have rdpos : (effect (.pput n) s).rdpos = s.bitcnt := by rw [effect, putBits_frame]; exact read
  refine Nat.eq_of_testBit_eq fun i => ?_
  rw [BitVec.testBit_toNat, Nat.testBit_mod_two_pow]
  by_cases lt : i < n
  · have position : n - 1 - (n - 1 - i) = i := by omega
    have bit := getLsbD_data_uget (effect (.pput n) s) le (j := n - 1 - i) (by omega)
    rw [position, rdpos] at bit
    rw [bit, decide_eq_true lt, Bool.true_and, BitVec.testBit_toNat]
    refine (getbit_putBits_appended fits (f := s.argBit) (by omega)).trans ?_
    rw [position]
    rfl
  · rw [getLsbD_data_uget_of_le _ (Nat.not_lt.1 lt), decide_eq_false lt, Bool.false_and]

/-- Settles O53: the payload is what the run appended, and UGET reads it from position 0 on. -/
theorem unpackInvertsPack : Obligations.UnpackInvertsPack := by
  refine ⟨fun s xs ns legal empty calm counts enough => ?_, fun s t n legal pos le read run => ?_⟩
  · obtain ⟨bitcnt, new, -⟩ := appends_session legal calm
    have zero : s.bitcnt.toNat = 0 := by rw [empty]; rfl
    rw [zero] at bitcnt new
    rw [Nat.zero_add] at bitcnt
    generalize session xs s = r at *
    obtain ⟨bits, t⟩ := r
    simp only at bitcnt new enough ⊢
    obtain ⟨v, reads, rdpos, bitcntV⟩ := readBits_eq (s := effect .urst t) counts
      (show 0 + ns.sum ≤ t.bitcnt.toNat by omega)
    have rdposV : v.rdpos.toNat = ns.sum := rdpos.trans (Nat.zero_add _)
    have same : (effect .urst t).payloadBits 0 ns.sum = t.payloadBits 0 ns.sum := rfl
    have taken : t.payloadBits 0 ns.sum = bits.take ns.sum := by
      have split := payloadBits_add t 0 ns.sum (bits.length - ns.sum)
      rw [Nat.add_sub_cancel' enough, new] at split
      rw [split, List.take_left' (length_payloadBits _ _ _)]
    refine ⟨effect .urst t, v, exec_of_succeeds (i := .urst) trivial, ?_, rdposV, ?_⟩
    · rw [reads, ← taken, ← same]
      rfl
    · rw [eos_iff_toNat, rdposV, bitcntV, ← bitcnt]
      rfl
  · obtain ⟨room, rest⟩ := runOk_cons_eq_some.1 run
    obtain ⟨enough, finish⟩ := runOk_cons_eq_some.1 rest
    rw [runOk, Option.some_inj] at finish
    have fits := ((overflows_eq_false_iff s n).1 room).trans (capBits_le_of_legal legal)
    have bitcnt : (effect (.pput n) s).bitcnt.toNat = s.bitcnt.toNat + n := bitcnt_putBits s.argBit n s fits
    have rdpos := toNat_rdpos_uget enough
    have start : (effect (.pput n) s).rdpos = s.bitcnt := by rw [effect, putBits_frame]; exact read
    have same : (effect (.uget n) (effect (.pput n) s)).bitcnt = (effect (.pput n) s).bitcnt := rfl
    rw [← finish]
    refine ⟨data_uget_pput le fits read, BitVec.eq_of_toNat_eq ?_⟩
    rw [rdpos, same, bitcnt, start]

/-! ### USYM (R167, R198) -/

/-- Settles O51: the walk ends at the leaf that the next bits spell. -/
theorem usymDecodesOneSymbol : Obligations.UsymDecodesOneSymbol := by
  rintro s sym bs tree ⟨f, path, leaf, rfl⟩ nonEmpty fits spelt
  have pos : 0 < bs.length := List.length_pos_iff.2 nonEmpty
  have notEnd : s.rdpos ≠ s.bitcnt := fun same => by
    rw [same] at fits
    omega
  have walk : s.walkFromRoot = .leaf f (s.rdpos.toNat + bs.length) :=
    walk_of_descends path leaf nonEmpty (by omega) spelt
  have rdpos : BitVec.ofNat 32 (s.rdpos.toNat + bs.length) = s.rdpos + BitVec.ofNat 32 bs.length := by
    rw [BitVec.ofNat_add, BitVec.ofNat_toNat, BitVec.setWidth_eq]
  have succeeds : Succeeds .usym s := ⟨tree, notEnd, by rw [walk]; nofun⟩
  rw [exec_of_succeeds succeeds]
  simp only [effect, walk, rdpos]
  rfl

/-- Settles O52: a walk that ended at a leaf would have read a code. -/
theorem usymRaisesDecodeError : Obligations.UsymRaisesDecodeError := by
  intro s tree inner notEnd noCode
  have stuck : s.walkFromRoot = .stuck := by
    cases walk : s.walkFromRoot with
    | stuck => rfl
    | leaf f p =>
      obtain ⟨m, pos, le, -, leaf, path⟩ := walk_leaf inner walk
      have length := length_payloadBits s s.rdpos.toNat m
      refine absurd ?_ (noCode (s.nodeAt f).sym (s.payloadBits s.rdpos.toNat m) ⟨f, path, leaf, rfl⟩ ?_ ?_)
      · rw [length]
      · exact List.ne_nil_of_length_pos (by omega)
      · omega
  have decodeError : raised s 0x05 = s.raise .decodeError := (raise_eq_raised s .decodeError).symm
  rw [decodeError]
  simp only [exec, execUsym, tree, notEnd, stuck, Bool.true_eq_false, if_false]

/-! ### Symbols packed by PSYM come back from USYM (R169) -/

/-- PSYM keeps the codes, so a run of it appends the codes of its symbols. -/
theorem appends_psyms {xs : List Sym} {s t : State} (legal : s.cfg.legal = true)
    (run : runOk (xs.map .psym) s = some t) : Appends s (xs.flatMap fun x => (s.codeAt x).seq) t ∧
      ∀ x ∈ xs, s.codeValid = true ∧ (s.codeAt x).valid = true := by
  induction xs generalizing s with
  | nil =>
    cases run
    exact ⟨appends_of_same rfl rfl rfl, nofun⟩
  | cons x xs ih =>
    obtain ⟨succeeds, rest⟩ := runOk_cons_eq_some.1 run
    have first := appends_effect legal (i := .psym x) rfl succeeds
    have frame := pack_frame (i := .psym x) rfl s
    have cfg : (effect (.psym x) s).cfg = s.cfg := by rw [frame]
    have code (y : Sym) : (effect (.psym x) s).codeAt y = s.codeAt y := by rw [frame]; rfl
    have codeValid : (effect (.psym x) s).codeValid = s.codeValid := by rw [frame]
    obtain ⟨appended, valid⟩ := ih (cfg ▸ legal) rest
    simp only [code, codeValid] at appended valid
    exact ⟨first.trans appended, List.forall_mem_cons.2 ⟨⟨succeeds.1, succeeds.2.1⟩, valid⟩⟩

/-- USYM after USYM reads the codes that stand in the payload from RDPOS to its end. -/
theorem decodeSymbols_eq {xs : List Sym} {s : State} {code : Sym → List Bool} (tree : s.treeValid = true)
    (codes : ∀ x ∈ xs, IsCode s x (code x) ∧ code x ≠ [])
    (spelt : s.payloadBits s.rdpos.toNat (xs.flatMap code).length = xs.flatMap code)
    (ends : s.rdpos.toNat + (xs.flatMap code).length = s.bitcnt.toNat) :
    ∃ u, decodeSymbols xs.length s = some (xs, u) ∧ u.eos = true := by
  induction xs generalizing s with
  | nil => exact ⟨s, rfl, (eos_iff_toNat s).2 ends⟩
  | cons x xs ih =>
    obtain ⟨⟨isCode, nonEmpty⟩, codes⟩ := List.forall_mem_cons.1 codes
    rw [List.flatMap_cons, List.length_append] at spelt ends
    rw [payloadBits_add] at spelt
    obtain ⟨speltX, speltXs⟩ := List.append_inj spelt (length_payloadBits _ _ _)
    have run := usymDecodesOneSymbol s x (code x) tree isCode nonEmpty (by omega) speltX
    have rdpos : (s.rdpos + BitVec.ofNat 32 (code x).length).toNat = s.rdpos.toNat + (code x).length := by
      have small := s.bitcnt.isLt
      have count : (BitVec.ofNat 32 (code x).length).toNat = (code x).length := Nat.mod_eq_of_lt (by omega)
      rw [BitVec.toNat_add_of_lt (by omega), count]
    generalize next : ({ s with
      data := x.setWidth 32, rdpos := s.rdpos + BitVec.ofNat 32 (code x).length, result := 0 } : State) = t at run
    have ok : runOk [.usym] s = some t := by
      simp only [runOk, run]
      exact if_pos (next ▸ rfl)
    have symbol : t.data.setWidth 8 = x := by
      subst next
      exact BitVec.setWidth_setWidth_of_le x (by decide)
    have speltNext : t.payloadBits t.rdpos.toNat (xs.flatMap code).length = xs.flatMap code := by
      rw [← next]
      exact (congrArg (s.payloadBits · _) rdpos).trans speltXs
    have endsNext : t.rdpos.toNat + (xs.flatMap code).length = t.bitcnt.toNat := by
      rw [← next]
      simp only [rdpos]
      omega
    obtain ⟨u, rest, eos⟩ := ih (s := t) (next ▸ tree) (next ▸ codes) speltNext endsNext
    refine ⟨u, ?_, eos⟩
    simp only [List.length_cons, decodeSymbols, ok, rest, Option.map_some, symbol]

/-- Settles O54: the payload from RDPOS on is the codes of the symbols, and each is a path of the tree. -/
theorem symbolRoundTrip : Obligations.SymbolRoundTrip := by
  intro s t xs build codes read run
  cases xs with
  | nil =>
    cases run
    exact ⟨s, rfl, (eos_iff s).2 read⟩
  | cons x xs =>
    obtain ⟨packed, valid⟩ := appends_psyms build.regs.cfgLegal run
    have frame := packs_frame (by simp [isPack]) run
    have codeValid := (valid x List.mem_cons_self).1
    have table := codes.isTable codeValid
    have rdpos : t.rdpos = s.bitcnt := by rw [frame]; exact read
    have tree : t.treeValid = true := by rw [frame]; exact build.flags.codeNeedsTree codeValid
    have sameTree (y : Sym) (bs : List Bool) (code : IsCode s y bs) : IsCode t y bs := by rw [frame]; exact code
    refine decodeSymbols_eq (code := fun y => (s.codeAt y).seq) tree (fun y mem => ?_) ?_ ?_
    · have isValid := (valid y mem).2
      refine ⟨sameTree y _ (table.spells y isValid), List.ne_nil_of_length_pos ?_⟩
      rw [length_seq]
      exact table.nonEmpty y isValid
    · rw [rdpos]
      exact packed.appended
    · rw [rdpos]
      exact packed.bitcnt.symm

end Sys2Proof.Machine
end
